-- ==== Sys2Proof/Word.lean ====
section
/-! DEFINITION. The plain words of the block: the byte of the two streams and the 16-bit quantity of a window bound or a
header length (spec/00_scope.md R8: `u8`, `u16`, byte sequences). Everything computed from them stands in later files. -/

namespace Sys2Proof

/-- `u8` (R8): one byte of a stream, a file or a header. -/
abbrev Byte := BitVec 8

/-- `u16` (R8): a window bound or a header length. -/
abbrev U16 := BitVec 16

/-- A byte sequence (R8); its head is the first byte on the wire or in the file. -/
abbrev Bytes := List Byte

end Sys2Proof
end

