-- ==== Sys2Proof/Machine/Parameters.lean ====
section
/-! DEFINITION. The parameters whose value the source fixes (spec/00_scope.md R6). Types and rules name them; none stands as a literal
anywhere else. Those that stand in a type are abbreviations, so that the type is the plain one. -/

namespace Sys2Proof.Config

/-- `MAX_CHUNK`: the largest payload of one frame and the largest read request, in bytes. -/
def maxChunk : Nat := 16384

/-- `HEADER_LEN`: bytes in a command header. -/
abbrev headerLen : Nat := 4

/-- `DIR_WRITE`: the direction byte of a write frame. -/
def dirWrite : Byte := 0

/-- `DIR_READ`: the direction byte of a read frame. -/
def dirRead : Byte := 1

/-- `CMD_CONT`: the command byte of a continuation frame. -/
def cmdCont : Byte := 0

/-- `STATUS_LEN`: bytes in the status image. -/
def statusLen : Nat := 5

/-- `GAMMA_LEN`: bytes in the gamma image. -/
def gammaLen : Nat := 14

/-- `N_GAMMA_FIELDS`: named fields in a gamma table. -/
def nGammaFields : Nat := 18

/-- `N_POLARITY`: banks of `GT` and files of `NVS`. -/
abbrev nPolarity : Nat := 2

/-- `N_FIXED_CURVES`: the fixed gamma curves. -/
abbrev nFixedCurves : Nat := 4

/-- `READ_TIMEOUT`, in the unit `readTimeoutUnit`; no rule reads it (D15). -/
def readTimeout : Nat := 1

/-- `PIX_BITS`, red: the width of the red channel. -/
abbrev redBits : Nat := 5

/-- `PIX_BITS`, green. -/
abbrev greenBits : Nat := 6

/-- `PIX_BITS`, blue. -/
abbrev blueBits : Nat := 5

end Sys2Proof.Config
end

