-- ==== Sys2Proof/Syntax.lean ====
section
/-! DEFINITION. The syntax of the block: the operand types of the host operations (spec/30_encoding.md R66), the two field
lists (spec/10_state.md R12, R18), and `Instr`, with one constructor for each of the 36 rows of spec/opcode_table.json: ten
frame kinds (R65), ten payload and image formats (R50) and sixteen host operations (R66). -/

namespace Sys2Proof

/-- The direction of a frame (R52): `write` is the byte 0, `read` the byte 1. -/
inductive Direction where
  | write
  | read
deriving DecidableEq, Repr

/-- The polarity `p`, which selects a bank of `GT` and a file of `NVS` (R11, R21). -/
inductive Polarity where
  | positive
  | negative
deriving DecidableEq, Repr

/-- The 18 gamma fields in layout order (R12). -/
inductive GammaField where
  | v63 | v0 | v1 | v2 | v4 | v6 | j0 | v13 | v20 | v36 | v27 | v43 | j1 | v50 | v57 | v59 | v61 | v62
deriving DecidableEq, Repr

/-- The 19 named fields of the status image (R18): 17 flags, `pixfmt` and `gamma`. -/
inductive StatusField where
  | booster | my | mx | mv | ml | rgb | mh | idle | partialMode | slout | normal | vscroll | hscroll | inverted | dison | teon
  | tem | pixfmt | gamma
deriving DecidableEq, Repr

/-- The index of a fixed gamma curve (R6 `N_FIXED_CURVES`). -/
abbrev Curve := Fin Config.nFixedCurves

/-- A channel operand of `PACK_PIXEL` (R103): an integer, or the float form that R104 refuses, here the number
`mantissa * 2 ^ exponent`. -/
inductive Channel where
  | int (value : Int)
  | float (mantissa exponent : Int)
deriving DecidableEq, Repr

/-- A record with one entry for each gamma field, in layout order: the operand of `GAMMA_ENCODE` (R136), whose entries may be
wider than their fields. -/
structure GammaRecord (α : Type) where
  v63 : α
  v0 : α
  v1 : α
  v2 : α
  v4 : α
  v6 : α
  j0 : α
  v13 : α
  v20 : α
  v36 : α
  v27 : α
  v43 : α
  j1 : α
  v50 : α
  v57 : α
  v59 : α
  v61 : α
  v62 : α
deriving DecidableEq, Repr

/-- The formats of R50, which are the `format` column of spec/opcode_table.json: what kind of encoding a byte sequence is
offered as. The same byte is another row in another format, so a decoder is told the format. -/
inductive Format where
  | hostop | frame | win | pix16 | onehot8 | img112 | img40 | resp | chunk
deriving DecidableEq, Repr

/-- One constructor for each row of spec/opcode_table.json, in the table's order. -/
inductive Instr where
  /-- `F.WRITE` (R80): the generic write frame. -/
  | fWrite (command : Byte) (payload : Bytes)
  /-- `F.READ` (R81): the generic read frame, a header alone. -/
  | fRead (command : Byte) (length : U16)
  /-- `F.CONT` (R101): a continuation frame, command byte 0. -/
  | fCont (payload : Bytes)
  /-- `F.CASET` (R100): the column bounds of a window. -/
  | fCaset (start stop : U16)
  /-- `F.RASET` (R100): the row bounds of a window. -/
  | fRaset (start stop : U16)
  /-- `F.RAMWR` (R101): memory-write, empty payload. -/
  | fRamwr
  /-- `F.GAMSET` (R160): curve select with a one-hot payload. -/
  | fGamset (curve : Curve)
  /-- `F.PVGAM` (R159): positive gamma-register write. -/
  | fPvgam (image : Bytes)
  /-- `F.NVGAM` (R159): negative gamma-register write. -/
  | fNvgam (image : Bytes)
  /-- `F.RDDST` (R123): status read, a header alone. -/
  | fRddst
  /-- `WIN` (R57): two big-endian bounds, the start first. -/
  | win (start stop : U16)
  /-- `PIX16` (R58): one 5-6-5 pixel. -/
  | pix16 (red : BitVec Config.redBits) (green : BitVec Config.greenBits) (blue : BitVec Config.blueBits)
  /-- `ONEHOT8.0` (R59): the byte selecting fixed curve 0. -/
  | onehot0
  /-- `ONEHOT8.1` (R59): the byte selecting fixed curve 1. -/
  | onehot1
  /-- `ONEHOT8.2` (R59): the byte selecting fixed curve 2. -/
  | onehot2
  /-- `ONEHOT8.3` (R59): the byte selecting fixed curve 3. -/
  | onehot3
  /-- `IMG112` (R60): a 14-byte gamma image. -/
  | img112 (image : Bytes)
  /-- `IMG40` (R61): a 5-byte status image. -/
  | img40 (image : Bytes)
  /-- `RESP` (R56): the raw bytes of an answer. -/
  | resp (answer : Bytes)
  /-- `CHUNK` (R64): a slice of a pixel buffer. -/
  | chunk (slice : Bytes)
  /-- `WRITE_COMMAND(direction, command, payload)` (R80). -/
  | writeCommand (direction : Direction) (command : Byte) (payload : Bytes)
  /-- `READ_RESPONSE(command, length)` (R81). -/
  | readResponse (command : Byte) (length : Nat)
  /-- `SET_WINDOW(x0, y0, x1, y1)` (R100). -/
  | setWindow (x0 y0 x1 y1 : U16)
  /-- `STREAM_PIXELS(buffer)` (R101). -/
  | streamPixels (buffer : Bytes)
  /-- `PACK_PIXEL(r, g, b)` (R103). -/
  | packPixel (r g b : Channel)
  /-- `DECODE_STATUS(bytes)` (R120). -/
  | decodeStatus (bytes : Bytes)
  /-- `READ_STATUS()` (R123). -/
  | readStatus
  /-- `GAMMA_DECODE(bytes)` (R135). -/
  | gammaDecode (bytes : Bytes)
  /-- `GAMMA_ENCODE(table)` (R136). -/
  | gammaEncode (table : GammaRecord Int)
  /-- `LOAD_CAL(p)` (R156). -/
  | loadCal (p : Polarity)
  /-- `ATTACH()` (R157). -/
  | attach
  /-- `SET_FIELD(p, f, value)` (R158). -/
  | setField (p : Polarity) (f : GammaField) (value : Int)
  /-- `PUSH(p)` (R159). -/
  | push (p : Polarity)
  /-- `SELECT_CURVE(i)` (R160). -/
  | selectCurve (curve : Int)
  /-- `ENTER_CUSTOM()` (R161). -/
  | enterCustom
  /-- `STARTUP()` (R163). -/
  | startup
deriving DecidableEq, Repr

end Sys2Proof
end

