-- ==== Sys2Proof/Machine/Bits.lean ====
section
/-! DEFINITION. Numbers, bytes and bits: the ten arithmetic steps of spec/46_arithmetic_and_sequencing_laws.md R170 to R172, the
stream order of a register image (spec/00_scope.md R8), the two bit-field algorithms (spec/30_encoding.md R62, R63) and the
layouts they run on (R60, R61, R71). Everything here is a plain function on numbers and lists. -/

namespace Sys2Proof.Machine

/-- `lo_w(x) = x mod 2^w`: the mask of the encoders (R8, R170 row 1). -/
def lo (w x : Nat) : Nat := x % 2 ^ w

/-- `clamp_w(x)`: 0 below 0, `2^w - 1` above it, else `x` (R8, R170 row 2); `SET_FIELD`'s narrowing. -/
def clamp (w : Nat) (x : Int) : Nat :=
  if x < 0 then 0 else if (2 ^ w - 1 : Int) < x then 2 ^ w - 1 else x.toNat

/-- `le16(n) = [n & 0xFF, n >> 8]` (R172): the header length and the pixel. -/
def le16 (n : Nat) : Bytes := [BitVec.ofNat 8 n, BitVec.ofNat 8 (n / 256)]

/-- `be16(n) = [n >> 8, n & 0xFF]` (R172): a window bound. -/
def be16 (n : Nat) : Bytes := [BitVec.ofNat 8 (n / 256), BitVec.ofNat 8 n]

/-- The number whose little-endian bytes are `low`, `high` (R54). -/
def fromLe16 (low high : Byte) : Nat := low.toNat + 256 * high.toNat

/-- The number whose big-endian bytes are `high`, `low` (R57). -/
def fromBe16 (high low : Byte) : Nat := 256 * high.toNat + low.toNat

/-- `1 << i` for a curve index (R59, R170 row 6). -/
def oneHot (i : Curve) : Byte := BitVec.ofNat 8 (1 <<< i.val)

/-- The value of a pixel from channels already narrowed to `PIX_BITS`: red above green above blue, in bits 15:11, 10:5 and 4:0 (R58,
D9). -/
def pixelValue (r g b : Nat) : Nat :=
  (r <<< (Config.greenBits + Config.blueBits)) + (g <<< Config.blueBits) + b

/-- `b[i : i + n]`, shorter when the sequence ends early (R8). -/
def slice (b : Bytes) (i n : Nat) : Bytes := (b.drop i).take n

/-- The bits of one byte in stream order, most significant first (R8, R32). -/
def bitsOfByte (b : Byte) : List Bool :=
  [b.getLsbD 7, b.getLsbD 6, b.getLsbD 5, b.getLsbD 4, b.getLsbD 3, b.getLsbD 2, b.getLsbD 1, b.getLsbD 0]

/-- A register image as a string of bits in stream order (R8). -/
def bitsOfBytes (bs : Bytes) : List Bool := bs.flatMap bitsOfByte

/-- The number whose bits, most significant first, are given: `v <- (v << 1) | bit` of R62. -/
def natOfBits (bits : List Bool) : Nat := bits.foldl (fun v b => 2 * v + b.toNat) 0

/-- The low `w` bits of a number, most significant first: `(v >> (w - 1 - i)) & 1` of R63. -/
def bitsOfNat : Nat → Nat → List Bool
  | 0, _ => []
  | w + 1, v => v.testBit w :: bitsOfNat w v

/-- Eight bits at a time, most significant first, put into bytes; R63 fills whole bytes only. -/
def bytesOfBits : List Bool → Bytes
  | b7 :: b6 :: b5 :: b4 :: b3 :: b2 :: b1 :: b0 :: rest =>
    BitVec.ofNat 8 (natOfBits [b7, b6, b5, b4, b3, b2, b1, b0]) :: bytesOfBits rest
  | _ => []

/-- A layout (R61, R62): segments of stated width in stream order; a segment without a name is padding. -/
abbrev Layout (ν : Type) := List (Option ν × Nat)

/-- The sum of the widths of a layout. -/
def layoutWidth {ν : Type} (layout : Layout ν) : Nat := (layout.map Prod.snd).sum

/-- The loop of `Unpack` (R62) over the segments: the value of each named field in layout order, and whether any pad bit was
1. -/
def unpackBits {ν : Type} : Layout ν → List Bool → List (ν × Nat) × Bool
  | [], _ => ([], false)
  | (name, w) :: rest, bits =>
    let v := natOfBits (bits.take w)
    let tail := unpackBits rest (bits.drop w)
    match name with
    | none => (tail.1, (v != 0) || tail.2)
    | some f => ((f, v) :: tail.1, tail.2)

/-- `Unpack(layout, bytes)` (R62), `none` where the widths do not sum to the bits offered (`MalformedRegister`). -/
def unpack {ν : Type} (layout : Layout ν) (bs : Bytes) : Option (List (ν × Nat) × Bool) :=
  if layoutWidth layout = 8 * bs.length then some (unpackBits layout (bitsOfBytes bs)) else none

/-- The value unpacked under a name; 0 for a name the layout does not hold (every layout in use holds all of its names). -/
def fieldOf {ν : Type} [DecidableEq ν] (fields : List (ν × Nat)) (f : ν) : Nat := (fields.lookup f).getD 0

/-- `Pack(layout, values)` (R63): every field masked to its width, every pad bit 0. -/
def pack {ν : Type} (layout : Layout ν) (values : ν → Nat) : Bytes :=
  bytesOfBits (layout.flatMap fun (name, w) =>
    match name with
    | none => bitsOfNat w 0
    | some f => bitsOfNat w (lo w (values f)))

/-- The width of a gamma field (R12). -/
def gammaWidth : GammaField → Nat
  | .v63 => 4 | .v0 => 4 | .v1 => 6 | .v2 => 6 | .v4 => 5 | .v6 => 5 | .j0 => 2 | .v13 => 4 | .v20 => 7
  | .v36 => 3 | .v27 => 3 | .v43 => 7 | .j1 => 2 | .v50 => 4 | .v57 => 5 | .v59 => 5 | .v61 => 6 | .v62 => 6

/-- The 18 fields in the order of R12. -/
def gammaFields : List GammaField :=
  [.v63, .v0, .v1, .v2, .v4, .v6, .j0, .v13, .v20, .v36, .v27, .v43, .j1, .v50, .v57, .v59, .v61, .v62]

/-- `GAMMA_LAYOUT` (R60). -/
def gammaLayout : Layout GammaField :=
  [(some .v63, 4), (some .v0, 4), (none, 2), (some .v1, 6), (none, 2), (some .v2, 6), (none, 3), (some .v4, 5),
   (none, 3), (some .v6, 5), (none, 2), (some .j0, 2), (some .v13, 4), (none, 1), (some .v20, 7), (none, 1),
   (some .v36, 3), (none, 1), (some .v27, 3), (none, 1), (some .v43, 7), (none, 2), (some .j1, 2), (some .v50, 4),
   (none, 3), (some .v57, 5), (none, 3), (some .v59, 5), (none, 2), (some .v61, 6), (none, 2), (some .v62, 6)]

/-- `GAMMA_FIELD_MASK` (R71): the bits of the 14 bytes that belong to a named field. -/
def gammaFieldMask : Bytes :=
  [0xFF, 0x3F, 0x3F, 0x1F, 0x1F, 0x3F, 0x7F, 0x77, 0x7F, 0x3F, 0x1F, 0x1F, 0x3F, 0x3F]

/-- The 17 flags of the status image in the order R61 (d) requires. -/
def statusFlags : List StatusField :=
  [.booster, .my, .mx, .mv, .ml, .rgb, .mh, .idle, .partialMode, .slout, .normal, .vscroll, .hscroll, .inverted, .dison,
   .teon, .tem]

/-- `LAYOUT_LITERAL` (R61): the order of the source's list taken as the bit order, padding last. -/
def layoutLiteral : Layout StatusField :=
  statusFlags.map (fun f => (some f, 1)) ++ [(some .pixfmt, 3), (some .gamma, 3), (none, 17)]

/-- The named segments of a layout, in order. -/
def namedSegments {ν : Type} (layout : Layout ν) : List (ν × Nat) :=
  layout.filterMap fun (name, w) => name.map (·, w)

/-- The constraints (a) to (e) of R61 on `STATUS_LAYOUT`: 40 bits; the 17 flags, each once, of width 1 and in order; `pixfmt`
before `gamma`, each once and of width 3; 17 pad bits. -/
def admissibleLayout (layout : Layout StatusField) : Bool :=
  layoutWidth layout == 8 * Config.statusLen
    && (namedSegments layout).filter (fun s => s.1 ∈ statusFlags) == statusFlags.map (·, 1)
    && (namedSegments layout).filter (fun s => s.1 ∉ statusFlags) == [(.pixfmt, 3), (.gamma, 3)]
    && layoutWidth (layout.filter fun s => s.1.isNone) == 17

/-- A value of `STATUS_LAYOUT`. One that breaks a constraint of R61 cannot be built: "a configuration the model must refuse to build,
not a run-time error" (R120). The default is `LAYOUT_LITERAL`, the test default of D5. -/
structure StatusLayout where
  segments : Layout StatusField := layoutLiteral
  admissible : admissibleLayout segments = true := by decide
deriving DecidableEq, Repr, Inhabited

end Sys2Proof.Machine
end

