-- ==== Sys2Proof/Machine/Codes.lean ====
section
/-! DEFINITION. The two numberings that are the spec's own and appear on no wire: the selector of each host operation (`OP_INDEX`,
spec/30_encoding.md R70, D3) and the code of each error kind (`ERR_CODE`, spec/60_exceptions.md R191, D4). Both are parameters of
R7; the tables here are the values the decisions give them. -/

namespace Sys2Proof

/-- The sixteen host operations (R66), without their operands. -/
inductive HostOp where
  | writeCommand | readResponse | setWindow | streamPixels | packPixel | decodeStatus | readStatus | gammaDecode | gammaEncode
  | loadCal | attach | setField | push | selectCurve | enterCustom | startup
deriving DecidableEq, Repr

/-- The host operations in the order of R66. -/
def hostOps : List HostOp :=
  [.writeCommand, .readResponse, .setWindow, .streamPixels, .packPixel, .decodeStatus, .readStatus, .gammaDecode, .gammaEncode,
   .loadCal, .attach, .setField, .push, .selectCurve, .enterCustom, .startup]

/-- The value D3 gives `OP_INDEX`: the ordinal in R66's table, from 1 (R70). -/
def ordinalIndex : HostOp → Byte
  | .writeCommand => 0x01
  | .readResponse => 0x02
  | .setWindow => 0x03
  | .streamPixels => 0x04
  | .packPixel => 0x05
  | .decodeStatus => 0x06
  | .readStatus => 0x07
  | .gammaDecode => 0x08
  | .gammaEncode => 0x09
  | .loadCal => 0x0A
  | .attach => 0x0B
  | .setField => 0x0C
  | .push => 0x0D
  | .selectCurve => 0x0E
  | .enterCustom => 0x0F
  | .startup => 0x10

namespace Machine

/-- The five error kinds (R185, R191). -/
inductive ErrKind where
  | payloadTooLarge
  | shortRead
  | malformedRegister
  | fileAccessError
  | transportError
deriving DecidableEq, Repr

/-- The value D4 gives `ERR_CODE` (R191). -/
def ordinalCode : ErrKind → Byte
  | .payloadTooLarge => 1
  | .shortRead => 2
  | .malformedRegister => 3
  | .fileAccessError => 4
  | .transportError => 5

end Machine

end Sys2Proof
end

