-- ==== Sys2Proof/Config.lean ====
section
/-! DEFINITION. What a build of the block fixes (spec/00_scope.md R6, R7), and what the environment chooses (spec/60_exceptions.md
R194). The parameters of R6 stand in Sys2Proof/Machine/Parameters.lean; those of R7 are the fields of `Params`, which the operations take as an
argument; `Config.params` is the build the machine runs, with the decided values of R7 (D3, D4, D6, D7) and an opaque constant for
each open one.
The free choices of the environment are opaque functions of a counter: nothing in Lean can evaluate one. -/

namespace Sys2Proof

/-! ### The environment's choices at a link transfer or a store access (R194) -/

/-- The outcome of one `LinkWrite` (R36): all bytes sent; failed after some of them; or blocked for ever after some of them. A
count beyond the length of the write counts as all of it. -/
inductive WriteDraw where
  | done
  | failed (sent : Nat)
  | blocked (sent : Nat)
deriving DecidableEq, Repr, Inhabited

/-- The environment's part in one `LinkRead(n)` (R37): the bytes that come into `RX` while it waits, and how many bytes it gets
before the timeout (never more than `n`, nor than `RX` then holds). -/
structure ReadDraw where
  arrived : Bytes
  count : Nat
deriving DecidableEq, Repr, Inhabited

/-- Whether an `NvsRead` answers with what the store holds, or fails (R40). -/
inductive NvsReadDraw where
  | answered
  | failed
deriving DecidableEq, Repr, Inhabited

/-- What a failed `NvsWrite(p, bytes)` leaves of file `p` (R40; `other` is U15 of spec/93_implementation_defined.md). -/
inductive Leftover where
  | unchanged
  | written
  | truncated (kept : Nat)
  | absent
  | other (content : Bytes)
deriving DecidableEq, Repr, Inhabited

/-- The outcome of one `NvsWrite` (R40). -/
inductive NvsWriteDraw where
  | done
  | failed (leftover : Leftover)
deriving DecidableEq, Repr, Inhabited

/-- The parameters of R7 that a rule reads: "each is a named argument of the model". -/
structure Params where
  /-- `CMD_CASET`: column-address-set. -/
  cmdCaset : Byte
  /-- `CMD_RASET`: row-address-set. -/
  cmdRaset : Byte
  /-- `CMD_RAMWR`: memory-write. -/
  cmdRamwr : Byte
  /-- `CMD_GAMSET`: gamma-curve-select. -/
  cmdGamset : Byte
  /-- `CMD_PVGAM`: positive gamma-register write. -/
  cmdPvgam : Byte
  /-- `CMD_NVGAM`: negative gamma-register write. -/
  cmdNvgam : Byte
  /-- `CMD_RDDST`: status read. -/
  cmdRddst : Byte
  /-- `STATUS_LAYOUT`, an admissible one (R61). -/
  statusLayout : Machine.StatusLayout
  /-- `STATUS_PAD_MBZ`: whether a nonzero reserved status bit is `MalformedRegister`. -/
  statusPadMbz : Bool
  /-- `WINDOW_END_BIAS`: what `SET_WINDOW` takes off an end bound. -/
  windowEndBias : Fin 2
  /-- `OP_INDEX`: the selector of each host operation. -/
  opIndex : HostOp → Byte
  /-- `ERR_CODE`: the number of each error kind. -/
  errCode : Machine.ErrKind → Byte

/-- The premise `CmdDistinct` of D11: the seven codes are pairwise distinct and none is the continuation code 0. -/
def Params.cmdDistinct (cfg : Params) : Bool :=
  decide [Config.cmdCont, cfg.cmdCaset, cfg.cmdRaset, cfg.cmdRamwr, cfg.cmdGamset, cfg.cmdPvgam, cfg.cmdNvgam, cfg.cmdRddst].Nodup

/-- The selectors tell the sixteen host operations apart; D3 lets a build bind them freely. -/
def Params.opDistinct (cfg : Params) : Bool := decide (hostOps.map cfg.opIndex).Nodup

namespace Config

/-! ### R7: the parameters the source leaves open -/

/-- `CMD_CASET`, open (D11). -/
opaque cmdCaset : Byte

/-- `CMD_RASET`, open (D11). -/
opaque cmdRaset : Byte

/-- `CMD_RAMWR`, open (D11). -/
opaque cmdRamwr : Byte

/-- `CMD_GAMSET`, open (D11). -/
opaque cmdGamset : Byte

/-- `CMD_PVGAM`, open (D11). -/
opaque cmdPvgam : Byte

/-- `CMD_NVGAM`, open (D11). -/
opaque cmdNvgam : Byte

/-- `CMD_RDDST`, open (D11). -/
opaque cmdRddst : Byte

/-- `STATUS_LAYOUT`, open among the admissible ones (D5). -/
opaque statusLayout : Machine.StatusLayout

/-- `READ_TIMEOUT_UNIT`, open and read by no rule (D15); a number of any unit of time. -/
opaque readTimeoutUnit : Nat

/-- `BAUD`, open and read by no rule (N4). -/
opaque baud : Nat

/-- The build the machine runs: `STATUS_PAD_MBZ = false` (D6), `WINDOW_END_BIAS = 0` (D7), the selectors of D3 and the error codes of
D4; the rest open. -/
def params : Params where
  cmdCaset := cmdCaset
  cmdRaset := cmdRaset
  cmdRamwr := cmdRamwr
  cmdGamset := cmdGamset
  cmdPvgam := cmdPvgam
  cmdNvgam := cmdNvgam
  cmdRddst := cmdRddst
  statusLayout := statusLayout
  statusPadMbz := false
  windowEndBias := 0
  opIndex := ordinalIndex
  errCode := Machine.ordinalCode

/-! ### The free choices of the environment, used when a state lists none (R194: "No draw is under any law") -/

/-- The outcome of the link write numbered by the counter. -/
opaque freeWrite : Nat → WriteDraw

/-- The environment's part in the link read numbered by the counter. -/
opaque freeRead : Nat → ReadDraw

/-- The outcome of the store read numbered by the counter. -/
opaque freeNvsRead : Nat → NvsReadDraw

/-- The outcome of the store write numbered by the counter. -/
opaque freeNvsWrite : Nat → NvsWriteDraw

/-- The bytes queued in `RX` at reset: unspecified (R24, N16). -/
opaque rxAtReset : Bytes

/-- The file of `Positive` at reset: whatever the store holds (R24). -/
opaque positiveFileAtReset : Option Bytes

/-- The file of `Negative` at reset: whatever the store holds (R24). -/
opaque negativeFileAtReset : Option Bytes

end Config

end Sys2Proof
end

