-- ==== Sys2Proof/WellFormed.lean ====
section
/-! DEFINITION. Which instructions are well formed. The operand types of `Instr` exclude an operand outside its type (R192
`OperandType`), and a host operation is well formed whatever its operands: those without a meaning are refused by the operation
itself (R192). A frame is well formed when its length is one the block may emit (R54, R65) and, for the two generic kinds, when no
specific kind of R65 has the same bytes in the build; an image or a payload format is well formed at its stated width (R50). -/

namespace Sys2Proof

/-- Whether the write frame with this command byte and payload is a specific kind of R65 in the build: a continuation, or a frame
with the command byte, the length and the payload format of its row. The command byte 0 is the continuation's (R53). That 14 bytes under
`CMD_PVGAM` or `CMD_NVGAM` are the gamma rows' whatever their padding bits are is a DESIGN CHOICE (log entry 28). -/
def Params.namesWrite (cfg : Params) (command : Byte) (payload : Bytes) : Bool :=
  if command = Config.cmdCont then payload != []
  else (command = cfg.cmdCaset || command = cfg.cmdRaset) && payload.length == 4
    || command = cfg.cmdRamwr && payload == []
    || command = cfg.cmdGamset && (List.finRange Config.nFixedCurves).any (fun curve => payload == [Machine.oneHot curve])
    || (command = cfg.cmdPvgam || command = cfg.cmdNvgam) && payload.length == Config.gammaLen

/-- Whether the read frame with this command byte and length is the status read of the build (R65, `F.RDDST`). -/
def Params.namesRead (cfg : Params) (command : Byte) (length : Nat) : Bool :=
  command = cfg.cmdRddst && length == Config.statusLen

/-- The check of each row; rows without a check here are well formed at every operand. `F.PVGAM` and `F.NVGAM` take any 14 bytes, also
with a padding bit that is 1: DESIGN CHOICE (log entry 28). -/
def Instr.isWellFormed (cfg : Params) : Instr → Bool
  | .fWrite command payload => payload.length ≤ Config.maxChunk && !cfg.namesWrite command payload
  | .fRead command length => length.toNat ≤ Config.maxChunk && !cfg.namesRead command length.toNat
  | .fCont payload => 1 ≤ payload.length && payload.length ≤ Config.maxChunk
  | .fPvgam image => image.length == Config.gammaLen
  | .fNvgam image => image.length == Config.gammaLen
  | .img112 image => image.length == Config.gammaLen
  | .img40 image => image.length == Config.statusLen
  | .resp answer => answer.length ≤ Config.maxChunk
  | .chunk slice => 1 ≤ slice.length && slice.length ≤ Config.maxChunk
  | .fCaset _ _ => true
  | .fRaset _ _ => true
  | .fRamwr => true
  | .fGamset _ => true
  | .fRddst => true
  | .win _ _ => true
  | .pix16 _ _ _ => true
  | .onehot0 => true
  | .onehot1 => true
  | .onehot2 => true
  | .onehot3 => true
  | .writeCommand _ _ _ => true
  | .readResponse _ _ => true
  | .setWindow _ _ _ _ => true
  | .streamPixels _ => true
  | .packPixel _ _ _ => true
  | .decodeStatus _ => true
  | .readStatus => true
  | .gammaDecode _ => true
  | .gammaEncode _ => true
  | .loadCal _ => true
  | .attach => true
  | .setField _ _ _ => true
  | .push _ => true
  | .selectCurve _ => true
  | .enterCustom => true
  | .startup => true

/-- `i` is an instruction of the build `cfg` whose checks all hold. -/
abbrev WellFormed (cfg : Params) (i : Instr) : Prop := i.isWellFormed cfg = true

end Sys2Proof
end

