-- ==== Sys2Proof/Decode.lean ====
section
/-! DEFINITION. Decoding and encoding. A frame is cut and named as spec/30_encoding.md R51 to R55, R65 say; a payload or image is
read at its width (R57 to R61); a host operation is told by its selector (R70). The source gives the operands of a host operation
no bits, so their bytes at the host port are this model's own (notes/assumptions/5.md): they follow the selector in the order of
R66, a byte or a 16-bit bound as it stands (low byte first), a natural in groups of seven bits, low group first, the top bit of
each byte but the last set, an integer as the natural `2z` or `-2z - 1`, a byte sequence behind its length. -/

namespace Sys2Proof

open Machine

/-- Why a decoder gives no instruction. -/
inductive Reject where
  /-- A selector bound to no host operation: 0x00 and 0x11 to 0xFF under D3 (R70). -/
  | unknownHostOp
  /-- An operand byte outside its type: a direction, polarity, field or channel form that does not exist (R192). -/
  | operandType
  /-- The bytes end before the operands or the frame do. -/
  | truncated
  /-- A direction byte of 0x02 to 0xFF (R68). -/
  | reservedDirection
  /-- A header length above `MAX_CHUNK` (R54, R68). -/
  | lengthAboveMax
  /-- A payload or image of another width than its format's (R50, R69). -/
  | wrongLength
  /-- A curve-select byte other than the four of R59. -/
  | notOneHot
deriving DecidableEq, Repr

/-- What a reader of bytes gives: a value and the bytes after it, or a rejection by name. -/
abbrev Read (α : Type) := Except Reject (α × Bytes)

/-- Read on where a first reader has stopped; a rejection ends the reading. -/
def readThen {α β : Type} (r : Read α) (f : α → Bytes → Read β) : Read β :=
  match r with
  | .ok (a, rest) => f a rest
  | .error e => .error e

/-! ### Frames -/

/-- The direction byte (R52). -/
def directionByte : Direction → Byte
  | .write => Config.dirWrite
  | .read => Config.dirRead

/-- The command header `H` (R51): the direction, the command, and the length low byte first. -/
def header (d : Direction) (command : Byte) (length : Nat) : Vector Byte Config.headerLen :=
  ⟨([directionByte d, command] ++ le16 length).toArray, rfl⟩

/-- The bytes of a header, the first on the wire first. -/
def headerBytes (d : Direction) (command : Byte) (length : Nat) : Bytes := (header d command length).toList

/-- A frame as the receiver sees it (R51, R55): the record CommandHeader of R19 and the payload that follows it. -/
structure Frame where
  direction : Direction
  command : Byte
  length : Nat
  payload : Bytes
deriving DecidableEq, Repr

/-- The bytes of a frame: `H ++ payload` (R55). -/
def Frame.bytes (f : Frame) : Bytes := headerBytes f.direction f.command f.length ++ f.payload

/-- A frame the block may emit: `length ≤ MAX_CHUNK`, and the payload is `length` bytes of a write and absent from a read (R54,
R55). -/
def Frame.wf (f : Frame) : Bool :=
  f.length ≤ Config.maxChunk &&
    match f.direction with
    | .write => f.payload.length == f.length
    | .read => f.payload == []

/-- The receiver's rule of R55: read `H`, and take `length` more bytes when the direction is write. -/
def cutFrame (bs : Bytes) : Read Frame :=
  match bs.take Config.headerLen with
  | [d, command, low, high] =>
    let rest := bs.drop Config.headerLen
    let length := fromLe16 low high
    if Config.maxChunk < length then .error .lengthAboveMax
    else if d = Config.dirRead then .ok (⟨.read, command, length, []⟩, rest)
    else if d = Config.dirWrite then
      if rest.length < length then .error .truncated
      else .ok (⟨.write, command, length, rest.take length⟩, rest.drop length)
    else .error .reservedDirection
  | _ => .error .truncated

/-- `n` frames cut from the front of a stream, with what is left (R84). -/
def cutFrames : Nat → Bytes → Read (List Frame)
  | 0, bs => .ok ([], bs)
  | n + 1, bs =>
    readThen (cutFrame bs) fun f rest =>
    readThen (cutFrames n rest) fun fs rest =>
    .ok (f :: fs, rest)

/-- The curve a one-hot byte selects (R59). -/
def curveOf (mask : Byte) : Option Curve := (List.finRange Config.nFixedCurves).find? fun curve => oneHot curve == mask

/-- A 16-bit bound from its two big-endian bytes (R57). -/
def boundOf (high low : Byte) : U16 := BitVec.ofNat 16 (fromBe16 high low)

/-- The kind of a write frame in a build (R65). The command byte 0 is a continuation's when it has a payload. A gamma-register frame is
`F.PVGAM` or `F.NVGAM` whatever its padding bits are: DESIGN CHOICE (log entry 28). -/
def writeKind (cfg : Params) (command : Byte) (payload : Bytes) : Instr :=
  if command = Config.cmdCont then
    if payload = [] then .fWrite command payload else .fCont payload
  else
    match payload with
    | [] => if command = cfg.cmdRamwr then .fRamwr else .fWrite command payload
    | [mask] =>
      if command = cfg.cmdGamset then
        match curveOf mask with
        | some curve => .fGamset curve
        | none => .fWrite command payload
      else .fWrite command payload
    | [s1, s0, e1, e0] =>
      if command = cfg.cmdCaset then .fCaset (boundOf s1 s0) (boundOf e1 e0)
      else if command = cfg.cmdRaset then .fRaset (boundOf s1 s0) (boundOf e1 e0)
      else .fWrite command payload
    | _ =>
      if payload.length = Config.gammaLen then
        if command = cfg.cmdPvgam then .fPvgam payload
        else if command = cfg.cmdNvgam then .fNvgam payload
        else .fWrite command payload
      else .fWrite command payload

/-- The kind of a frame in a build (R65). -/
def frameKind (cfg : Params) (f : Frame) : Instr :=
  match f.direction with
  | .write => writeKind cfg f.command f.payload
  | .read =>
    if f.length = Config.statusLen then
      if f.command = cfg.cmdRddst then .fRddst else .fRead f.command (BitVec.ofNat 16 f.length)
    else .fRead f.command (BitVec.ofNat 16 f.length)

/-- `FRAME`: the frame at the front, named. -/
def decodeFrame (cfg : Params) (bs : Bytes) : Read Instr :=
  readThen (cutFrame bs) fun f rest =>
  .ok (frameKind cfg f, rest)

/-! ### Payload and image formats -/

/-- `WIN` (R57). -/
def decodeWin : Bytes → Except Reject Instr
  | [s1, s0, e1, e0] => .ok (.win (boundOf s1 s0) (boundOf e1 e0))
  | _ => .error .wrongLength

/-- `PIX16` (R58), low byte first. -/
def decodePix16 : Bytes → Except Reject Instr
  | [low, high] =>
    let v := fromLe16 low high
    .ok (.pix16 (BitVec.ofNat Config.redBits (v >>> (Config.greenBits + Config.blueBits)))
      (BitVec.ofNat Config.greenBits (v >>> Config.blueBits)) (BitVec.ofNat Config.blueBits v))
  | _ => .error .wrongLength

/-- `ONEHOT8` (R59). -/
def decodeOnehot : Bytes → Except Reject Instr
  | [mask] =>
    if mask = oneHot 0 then .ok .onehot0
    else if mask = oneHot 1 then .ok .onehot1
    else if mask = oneHot 2 then .ok .onehot2
    else if mask = oneHot 3 then .ok .onehot3
    else .error .notOneHot
  | _ => .error .wrongLength

/-- `IMG112` (R60): exactly 14 bytes. -/
def decodeImg112 (bs : Bytes) : Except Reject Instr :=
  if bs.length = Config.gammaLen then .ok (.img112 bs) else .error .wrongLength

/-- `IMG40` (R61): exactly 5 bytes. -/
def decodeImg40 (bs : Bytes) : Except Reject Instr :=
  if bs.length = Config.statusLen then .ok (.img40 bs) else .error .wrongLength

/-- `RESP` (R56): 0 to `MAX_CHUNK` raw bytes. -/
def decodeResp (bs : Bytes) : Except Reject Instr :=
  if bs.length ≤ Config.maxChunk then .ok (.resp bs) else .error .wrongLength

/-- `CHUNK` (R64): 1 to `MAX_CHUNK` raw bytes. -/
def decodeChunk (bs : Bytes) : Except Reject Instr :=
  if 1 ≤ bs.length ∧ bs.length ≤ Config.maxChunk then .ok (.chunk bs) else .error .wrongLength

/-! ### Operands at the host port -/

/-- One byte. -/
def getByte : Bytes → Read Byte
  | b :: rest => .ok (b, rest)
  | [] => .error .truncated

/-- A 16-bit bound, low byte first. -/
def getU16 : Bytes → Read U16
  | low :: high :: rest => .ok (BitVec.ofNat 16 (fromLe16 low high), rest)
  | _ => .error .truncated

/-- A natural, seven bits a byte, low group first; a byte below 128 is the last. -/
def getNat : Bytes → Read Nat
  | [] => .error .truncated
  | b :: rest =>
    if b.toNat < 128 then .ok (b.toNat, rest)
    else
      readThen (getNat rest) fun n rest =>
      .ok (b.toNat - 128 + 128 * n, rest)

/-- An integer `z`, as the natural `2z` or `-2z - 1`. -/
def getInt (bs : Bytes) : Read Int :=
  readThen (getNat bs) fun n rest =>
  .ok (if n % 2 = 0 then Int.ofNat (n / 2) else Int.negSucc (n / 2), rest)

/-- A byte sequence behind its length. -/
def getBytes (bs : Bytes) : Read Bytes :=
  readThen (getNat bs) fun n rest =>
  if rest.length < n then .error .truncated else .ok (rest.take n, rest.drop n)

/-- A direction: the byte of R52. -/
def getDirection (bs : Bytes) : Read Direction :=
  readThen (getByte bs) fun b rest =>
  if b = Config.dirWrite then .ok (.write, rest)
  else if b = Config.dirRead then .ok (.read, rest)
  else .error .operandType

/-- A polarity: 0 or 1. -/
def getPolarity (bs : Bytes) : Read Polarity :=
  readThen (getByte bs) fun b rest =>
  if b = 0 then .ok (.positive, rest)
  else if b = 1 then .ok (.negative, rest)
  else .error .operandType

/-- A gamma field: its number in R12. -/
def getField (bs : Bytes) : Read GammaField :=
  readThen (getByte bs) fun b rest =>
  match gammaFields[b.toNat]? with
  | some f => .ok (f, rest)
  | none => .error .operandType

/-- A channel: 0 and an integer, or 1 and the two integers of a float. -/
def getChannel (bs : Bytes) : Read Channel :=
  readThen (getByte bs) fun b rest =>
  if b = 0 then
    readThen (getInt rest) fun z rest =>
    .ok (.int z, rest)
  else if b = 1 then
    readThen (getInt rest) fun m rest =>
    readThen (getInt rest) fun e rest =>
    .ok (.float m e, rest)
  else .error .operandType

/-- `n` integers. -/
def getInts : Nat → Bytes → Read (List Int)
  | 0, bs => .ok ([], bs)
  | n + 1, bs =>
    readThen (getInt bs) fun z rest =>
    readThen (getInts n rest) fun zs rest =>
    .ok (z :: zs, rest)

/-- The record whose entries, in the order of R12, are given; an entry past the end of the list is 0. -/
def recordOf (zs : List Int) : GammaRecord Int where
  v63 := zs.getD 0 0
  v0 := zs.getD 1 0
  v1 := zs.getD 2 0
  v2 := zs.getD 3 0
  v4 := zs.getD 4 0
  v6 := zs.getD 5 0
  j0 := zs.getD 6 0
  v13 := zs.getD 7 0
  v20 := zs.getD 8 0
  v36 := zs.getD 9 0
  v27 := zs.getD 10 0
  v43 := zs.getD 11 0
  j1 := zs.getD 12 0
  v50 := zs.getD 13 0
  v57 := zs.getD 14 0
  v59 := zs.getD 15 0
  v61 := zs.getD 16 0
  v62 := zs.getD 17 0

/-- The entry of a record under a field name. -/
def recordGet {α : Type} (t : GammaRecord α) : GammaField → α
  | .v63 => t.v63 | .v0 => t.v0 | .v1 => t.v1 | .v2 => t.v2 | .v4 => t.v4 | .v6 => t.v6 | .j0 => t.j0 | .v13 => t.v13
  | .v20 => t.v20 | .v36 => t.v36 | .v27 => t.v27 | .v43 => t.v43 | .j1 => t.j1 | .v50 => t.v50 | .v57 => t.v57
  | .v59 => t.v59 | .v61 => t.v61 | .v62 => t.v62

/-- The operands of a host operation, in the order of R66. -/
def getOperands (op : HostOp) (bs : Bytes) : Read Instr :=
  match op with
  | .writeCommand =>
    readThen (getDirection bs) fun d bs =>
    readThen (getByte bs) fun c bs =>
    readThen (getBytes bs) fun payload bs =>
    .ok (.writeCommand d c payload, bs)
  | .readResponse =>
    readThen (getByte bs) fun c bs =>
    readThen (getNat bs) fun n bs =>
    .ok (.readResponse c n, bs)
  | .setWindow =>
    readThen (getU16 bs) fun x0 bs =>
    readThen (getU16 bs) fun y0 bs =>
    readThen (getU16 bs) fun x1 bs =>
    readThen (getU16 bs) fun y1 bs =>
    .ok (.setWindow x0 y0 x1 y1, bs)
  | .streamPixels =>
    readThen (getBytes bs) fun buffer bs =>
    .ok (.streamPixels buffer, bs)
  | .packPixel =>
    readThen (getChannel bs) fun r bs =>
    readThen (getChannel bs) fun g bs =>
    readThen (getChannel bs) fun b bs =>
    .ok (.packPixel r g b, bs)
  | .decodeStatus =>
    readThen (getBytes bs) fun image bs =>
    .ok (.decodeStatus image, bs)
  | .readStatus => .ok (.readStatus, bs)
  | .gammaDecode =>
    readThen (getBytes bs) fun image bs =>
    .ok (.gammaDecode image, bs)
  | .gammaEncode =>
    readThen (getInts Config.nGammaFields bs) fun zs bs =>
    .ok (.gammaEncode (recordOf zs), bs)
  | .loadCal =>
    readThen (getPolarity bs) fun p bs =>
    .ok (.loadCal p, bs)
  | .attach => .ok (.attach, bs)
  | .setField =>
    readThen (getPolarity bs) fun p bs =>
    readThen (getField bs) fun f bs =>
    readThen (getInt bs) fun z bs =>
    .ok (.setField p f z, bs)
  | .push =>
    readThen (getPolarity bs) fun p bs =>
    .ok (.push p, bs)
  | .selectCurve =>
    readThen (getInt bs) fun z bs =>
    .ok (.selectCurve z, bs)
  | .enterCustom => .ok (.enterCustom, bs)
  | .startup => .ok (.startup, bs)

/-- The host operation a selector is bound to in a build (R70). No rule says that the selectors differ (D3); in a build that binds one
selector to two operations it stands for the first in R66's order. DESIGN CHOICE, safe (log entry 27). -/
def hostOpOf (cfg : Params) (selector : Byte) : Option HostOp := hostOps.find? fun op => cfg.opIndex op == selector

/-- `HOSTOP`: the selector of R70, then the operands. -/
def decodeHostop (cfg : Params) (bs : Bytes) : Read Instr :=
  readThen (getByte bs) fun selector bs =>
  match hostOpOf cfg selector with
  | some op => getOperands op bs
  | none => .error .unknownHostOp

/-- The instruction that a byte sequence, offered in a format, stands for. The bytes after a self-delimiting encoding (a host
operation, a frame) are not looked at. -/
def decode (cfg : Params) : Format → Bytes → Except Reject Instr
  | .hostop, bs => (decodeHostop cfg bs).map Prod.fst
  | .frame, bs => (decodeFrame cfg bs).map Prod.fst
  | .win, bs => decodeWin bs
  | .pix16, bs => decodePix16 bs
  | .onehot8, bs => decodeOnehot bs
  | .img112, bs => decodeImg112 bs
  | .img40, bs => decodeImg40 bs
  | .resp, bs => decodeResp bs
  | .chunk, bs => decodeChunk bs

/-! ### The encoder -/

/-- The bytes of a natural: `getNat`'s groups, the fuel bounding their number. -/
def putNatFuel : Nat → Nat → Bytes
  | 0, n => [BitVec.ofNat 8 n]
  | fuel + 1, n => if n < 128 then [BitVec.ofNat 8 n] else BitVec.ofNat 8 (128 + n % 128) :: putNatFuel fuel (n / 128)

/-- The bytes of a natural. -/
def putNat (n : Nat) : Bytes := putNatFuel n n

/-- The bytes of an integer. -/
def putInt : Int → Bytes
  | .ofNat n => putNat (2 * n)
  | .negSucc n => putNat (2 * n + 1)

/-- A byte sequence behind its length. -/
def putBytes (bs : Bytes) : Bytes := putNat bs.length ++ bs

/-- The byte of a polarity. -/
def putPolarity : Polarity → Byte
  | .positive => 0
  | .negative => 1

/-- The byte of a gamma field: its number in R12. -/
def putField (f : GammaField) : Byte := BitVec.ofNat 8 (gammaFields.idxOf f)

/-- The bytes of a channel. -/
def putChannel : Channel → Bytes
  | .int z => 0 :: putInt z
  | .float m e => 1 :: (putInt m ++ putInt e)

/-- The bytes of a record, its entries in the order of R12. -/
def putRecord (t : GammaRecord Int) : Bytes := gammaFields.flatMap fun f => putInt (recordGet t f)

/-- `WIN`'s four bytes (R57). -/
def winBytes (start stop : U16) : Bytes := be16 start.toNat ++ be16 stop.toNat

/-- `PIX16`'s two bytes (R58). -/
def pix16Bytes (r : BitVec Config.redBits) (g : BitVec Config.greenBits) (b : BitVec Config.blueBits) : Bytes :=
  le16 (pixelValue r.toNat g.toNat b.toNat)

/-- The bytes of a write frame. -/
def writeBytes (command : Byte) (payload : Bytes) : Bytes := headerBytes .write command payload.length ++ payload

/-- The format and the bytes of an instruction in a build. -/
def encode (cfg : Params) : Instr → Format × Bytes
  | .fWrite command payload => (.frame, writeBytes command payload)
  | .fRead command length => (.frame, headerBytes .read command length.toNat)
  | .fCont payload => (.frame, writeBytes Config.cmdCont payload)
  | .fCaset start stop => (.frame, writeBytes cfg.cmdCaset (winBytes start stop))
  | .fRaset start stop => (.frame, writeBytes cfg.cmdRaset (winBytes start stop))
  | .fRamwr => (.frame, writeBytes cfg.cmdRamwr [])
  | .fGamset curve => (.frame, writeBytes cfg.cmdGamset [oneHot curve])
  | .fPvgam image => (.frame, writeBytes cfg.cmdPvgam image)
  | .fNvgam image => (.frame, writeBytes cfg.cmdNvgam image)
  | .fRddst => (.frame, headerBytes .read cfg.cmdRddst Config.statusLen)
  | .win start stop => (.win, winBytes start stop)
  | .pix16 r g b => (.pix16, pix16Bytes r g b)
  | .onehot0 => (.onehot8, [oneHot 0])
  | .onehot1 => (.onehot8, [oneHot 1])
  | .onehot2 => (.onehot8, [oneHot 2])
  | .onehot3 => (.onehot8, [oneHot 3])
  | .img112 image => (.img112, image)
  | .img40 image => (.img40, image)
  | .resp answer => (.resp, answer)
  | .chunk slice => (.chunk, slice)
  | .writeCommand d c payload => (.hostop, [cfg.opIndex .writeCommand, directionByte d, c] ++ putBytes payload)
  | .readResponse c n => (.hostop, [cfg.opIndex .readResponse, c] ++ putNat n)
  | .setWindow x0 y0 x1 y1 =>
    (.hostop, cfg.opIndex .setWindow :: (le16 x0.toNat ++ le16 y0.toNat ++ le16 x1.toNat ++ le16 y1.toNat))
  | .streamPixels buffer => (.hostop, cfg.opIndex .streamPixels :: putBytes buffer)
  | .packPixel r g b => (.hostop, cfg.opIndex .packPixel :: (putChannel r ++ putChannel g ++ putChannel b))
  | .decodeStatus image => (.hostop, cfg.opIndex .decodeStatus :: putBytes image)
  | .readStatus => (.hostop, [cfg.opIndex .readStatus])
  | .gammaDecode image => (.hostop, cfg.opIndex .gammaDecode :: putBytes image)
  | .gammaEncode table => (.hostop, cfg.opIndex .gammaEncode :: putRecord table)
  | .loadCal p => (.hostop, [cfg.opIndex .loadCal, putPolarity p])
  | .attach => (.hostop, [cfg.opIndex .attach])
  | .setField p f z => (.hostop, [cfg.opIndex .setField, putPolarity p, putField f] ++ putInt z)
  | .push p => (.hostop, [cfg.opIndex .push, putPolarity p])
  | .selectCurve z => (.hostop, cfg.opIndex .selectCurve :: putInt z)
  | .enterCustom => (.hostop, [cfg.opIndex .enterCustom])
  | .startup => (.hostop, [cfg.opIndex .startup])

/-! ### The words of spec/opcode_table.json -/

/-- The `n` bytes of a number whose top byte is the first on the wire, as the table numbers its words (R51). -/
def wireBytes : Nat → Nat → Bytes
  | 0, _ => []
  | n + 1, w => BitVec.ofNat 8 (w >>> (8 * n)) :: wireBytes n w

/-- The format and bytes of a table word: eight bits are a host-operation selector, 32 a frame header; every operand or payload
byte the table gives no bits is 0. -/
def tableRequest (nbits w : Nat) : Option (Format × Bytes) :=
  if nbits = 8 then some (.hostop, BitVec.ofNat 8 w :: List.replicate 24 0)
  else if nbits = Config.redBits + Config.greenBits + Config.blueBits then some (.pix16, wireBytes 2 w)
  else if nbits = 8 * Config.headerLen then
    let header := wireBytes Config.headerLen w
    let length := fromLe16 (header.getD 2 0) (header.getD 3 0)
    some (.frame, header ++ if header.getD 0 0 = Config.dirWrite then List.replicate length 0 else [])
  else if nbits = 8 * Config.statusLen then some (.img40, wireBytes Config.statusLen w)
  else if nbits = 8 * Config.gammaLen then some (.img112, wireBytes Config.gammaLen w)
  else none

/-- The instruction the decoder reads from a table word, `none` where it refuses. -/
def decodeTableWord (nbits w : Nat) : Option Instr :=
  match tableRequest nbits w with
  | some (format, bs) => (decode Config.params format bs).toOption
  | none => none

end Sys2Proof
end

