-- ==== Sys2Proof/Machine/State.lean ====
section
/-! DEFINITION. The state of the machine as plain data, its faults and refusals, and its value after reset. What the spec gives
the block: `GT`, `MODE`, `DIAG_STATUS_PAD`, `cur`, the link streams `TX` and `RX`, the store `NVS`, whether the handle is open, and
the operation in progress (spec/10_state.md R10 to R25). What is the model's own: the results and notifications given to the host
so far, the requests and outside events still to come, and the environment's choices still to be made (INVENTORY.md). -/

namespace Sys2Proof.Machine

/-- The place of a polarity among the `N_POLARITY` (R6, R11). -/
def Polarity.index : Polarity → Fin Config.nPolarity
  | .positive => 0
  | .negative => 1

/-- One value for each polarity: the banks of `GT` (R11), the files of `NVS` (R21). -/
structure Banks (α : Type) where
  values : Vector α Config.nPolarity
deriving DecidableEq, Repr

/-- The value of a polarity. -/
def Banks.get {α : Type} (b : Banks α) (p : Polarity) : α := b.values[Polarity.index p]

/-- The banks with the value of one polarity replaced. -/
def Banks.set {α : Type} (b : Banks α) (p : Polarity) (x : α) : Banks α := ⟨b.values.set (Polarity.index p) x⟩

/-- Banks with the two values given. -/
def Banks.of {α : Type} (positive negative : α) : Banks α := ⟨#v[positive, negative]⟩

/-- Banks with the same value in each. -/
def Banks.all {α : Type} (x : α) : Banks α := ⟨Vector.replicate Config.nPolarity x⟩

/-- A gamma table: one bank of `GT` (R11), each register of exactly its field's width (R12). -/
structure GammaTable where
  v63 : BitVec 4
  v0 : BitVec 4
  v1 : BitVec 6
  v2 : BitVec 6
  v4 : BitVec 5
  v6 : BitVec 5
  j0 : BitVec 2
  v13 : BitVec 4
  v20 : BitVec 7
  v36 : BitVec 3
  v27 : BitVec 3
  v43 : BitVec 7
  j1 : BitVec 2
  v50 : BitVec 4
  v57 : BitVec 5
  v59 : BitVec 5
  v61 : BitVec 6
  v62 : BitVec 6
deriving DecidableEq, Repr

/-- The zero value of a gamma table: every field 0. -/
def GammaTable.zero : GammaTable := ⟨0, 0, 0, 0, 0, 0, 0, 0, 0, 0, 0, 0, 0, 0, 0, 0, 0, 0⟩

/-- The StatusRegister view (R18): 17 one-bit flags, `pixfmt` and `gamma`. A value, never kept by the block. -/
structure StatusView where
  booster : BitVec 1
  my : BitVec 1
  mx : BitVec 1
  mv : BitVec 1
  ml : BitVec 1
  rgb : BitVec 1
  mh : BitVec 1
  idle : BitVec 1
  partialMode : BitVec 1
  slout : BitVec 1
  normal : BitVec 1
  vscroll : BitVec 1
  hscroll : BitVec 1
  inverted : BitVec 1
  dison : BitVec 1
  teon : BitVec 1
  tem : BitVec 1
  pixfmt : BitVec 3
  gamma : BitVec 3
deriving DecidableEq, Repr

/-- The mode register (R15). -/
inductive Mode where
  | unattached
  | fixed (curve : Curve)
  | custom
deriving DecidableEq, Repr

/-- How a part of an operation ended: the device part of `PUSH` (R159), a step of `STARTUP` (R163). -/
inductive Part where
  | ok
  | err (kind : ErrKind)
deriving DecidableEq, Repr

/-- The file part of `PUSH`'s result (R159). -/
inductive FileStatus where
  | ok
  | notTouched
  | fileAccessError
deriving DecidableEq, Repr

/-- The value of an `Ok` result (R66, column "result value"). -/
inductive Value where
  | none
  | bytes (bs : Bytes)
  | status (view : StatusView)
  | gamma (table : GammaTable)
deriving DecidableEq, Repr

/-- What an operation returns to the host (R185): `Ok(value)`, `Err(kind)`, the pair of `PUSH` (R159) or the triple of `STARTUP`
(R163). -/
inductive Result where
  | ok (value : Value)
  | err (kind : ErrKind)
  | push (file : FileStatus) (device : Part)
  | startup (positive negative attach : Part)
deriving DecidableEq, Repr

/-- For whom an `ATTACH` runs: the host, or a `STARTUP` whose two loads ended as given. -/
inductive AttachFor where
  | host
  | startup (positive negative : Part)
deriving DecidableEq, Repr

/-- For whom the status is read: `READ_STATUS`, or an `ATTACH`. -/
inductive StatusFor where
  | host
  | attach (whom : AttachFor)
deriving DecidableEq, Repr

/-- What the bytes of a read are for: `READ_RESPONSE`'s result, or a status decode. -/
inductive ReadFor where
  | response
  | status (whom : StatusFor)
deriving DecidableEq, Repr

/-- For whom a `LOAD_CAL` runs: the host, or the first or second load of a `STARTUP`. -/
inductive LoadFor where
  | host
  | startupPositive
  | startupNegative (positive : Part)
deriving DecidableEq, Repr

/-- The operation in progress, at the point where its next step begins. A step is one link transfer, one store access or one
register update group (D2). -/
inductive Progress where
  /-- Inside a link write that never returns (R36 outcome (c), R193). -/
  | blocked
  /-- `READ_RESPONSE` after its header: `LinkRead(length)` is next (R81). -/
  | respond (length : Nat) (whom : ReadFor)
  /-- `READ_STATUS` after its read: `DECODE_STATUS(bs)` is next (R123). -/
  | decode (image : Bytes) (whom : StatusFor)
  /-- `ATTACH` after its status read: the `gamma` field decides `MODE` (R157). -/
  | derive (gamma : BitVec 3) (whom : AttachFor)
  /-- `SET_WINDOW` after its column frame: the row frame is next (R100). -/
  | rows (start stop : U16)
  /-- `STREAM_PIXELS` after its memory-write frame: the frame at `cur` is next (R101). -/
  | chunks (buffer : Bytes)
  /-- `SELECT_CURVE` after its write of `MODE`: the frame is next (R160). -/
  | curve (i : Curve)
  /-- `LOAD_CAL` after its store access answered: `GT[p]` is next (R156). -/
  | fill (p : Polarity) (file : Option Bytes) (whom : LoadFor)
  /-- `SET_FIELD` in `Custom` mode after its store into `GT`: the file write of `PUSH(p)` is next (R158). -/
  | pushFile (p : Polarity)
  /-- `PUSH` in `Custom` mode after its file write: the device write is next (R159). -/
  | pushDevice (p : Polarity) (image : Bytes) (file : FileStatus)
  /-- `STARTUP` after its first load: `LOAD_CAL(Negative)` is next (R163). -/
  | loadNegative (positive : Part)
  /-- `STARTUP` after its loads: `ATTACH` is next (R163). -/
  | attachNext (positive negative : Part)
deriving DecidableEq, Repr

/-- What comes to the block from outside. -/
inductive Stimulus where
  /-- The host offers one encoded operation; it is taken when the block is idle (R200, D32). -/
  | request (format : Format) (bs : Bytes)
  /-- The device appends bytes to `RX`, at a time of its own choosing (R20, R194 (6)). -/
  | deviceBytes (bs : Bytes)
  /-- Controller start: the reset of a running block (R215). -/
  | restart
  /-- The host supplies or withdraws an open handle (R217 (1), R232 row 1). -/
  | handle (isOpen : Bool)
  /-- Nothing comes during one step: so that an event can stand between two steps of one operation. -/
  | quiet
deriving DecidableEq, Repr

/-- The environment's choices still to be made (R194), each list consumed from its front; when a list is empty the choice is the
free value of `Config` at the counter `taken`. -/
structure Draws where
  writes : List WriteDraw
  reads : List ReadDraw
  nvsReads : List NvsReadDraw
  nvsWrites : List NvsWriteDraw
  taken : Nat
deriving DecidableEq, Repr

/-- The state of the machine. -/
structure State where
  /-- `GT`: the gamma register file (R11). -/
  gt : Banks GammaTable
  /-- `MODE` (R15). -/
  mode : Mode
  /-- `DIAG_STATUS_PAD` (R17). -/
  diagStatusPad : BitVec 1
  /-- `cur`: the chunk cursor, live only inside `STREAM_PIXELS` (R16). -/
  cur : Option Nat
  /-- `TX`: every byte written to the link, in order (R20). -/
  tx : Bytes
  /-- `RX`: the bytes the device has sent and the block has not read (R20). -/
  rx : Bytes
  /-- `NVS`: for each polarity `Absent` (`none`) or `Present(bytes)` (R21). -/
  nvs : Banks (Option Bytes)
  /-- Whether the host has supplied an open handle (R20, R217). -/
  handleOpen : Bool
  /-- The operation in progress; `none` when the block is idle (R205, D2). -/
  busy : Option Progress
  /-- The results returned to the host, in order (R218); also the model's record of every error (R196). -/
  results : List Result
  /-- The `Notify(p)` events raised, in order (R166). -/
  notified : List Polarity
  /-- What comes from outside, in order. -/
  inbox : List Stimulus
  /-- The environment's choices. -/
  draws : Draws
deriving DecidableEq, Repr

/-- Why the machine stops with a fault. -/
inductive Fault where
  /-- The block is inside a link write that never returns: it "has no enabled step" (R193). Raised by `step` and `exec` in the
  stuck state, in no other. Safe: the spec gives the stuck block no step either. -/
  | linkWriteBlocked
deriving DecidableEq, Repr

/-- Why a call has no step. The first eleven after `notModelled` are the closed list of R192; each is safe, since "a model must
give a refused call no step". -/
inductive Refusal where
  /-- An instruction without a meaning; raised by no arm of `exec`. Safe. -/
  | notModelled (mnemonic : String)
  /-- `WRITE_COMMAND` with direction `Read` and a payload (D16). -/
  | readFrameWithPayload
  /-- `SET_WINDOW` with an end bound of 0 in a build with `WINDOW_END_BIAS = 1` (D7). -/
  | windowEndUnderflow
  /-- `PACK_PIXEL` with a negative channel (D24). -/
  | negativeChannel
  /-- `PACK_PIXEL` with a float channel (D10, R104). -/
  | floatChannel
  /-- `GAMMA_ENCODE` with a negative entry (D24). -/
  | negativeField
  /-- `ATTACH`, also inside `STARTUP`, when the status field `gamma` is 4 to 7 (D18). -/
  | attachGammaOutOfRange
  /-- `SET_FIELD` or `PUSH` while `MODE = Unattached` (D17). -/
  | modeUnattached
  /-- `SELECT_CURVE(i)` with `i` outside 0 to 3 (D31). -/
  | curveIndexOutOfRange
  /-- An operand byte outside its type (D36); raised by `step` on a request. -/
  | operandType
  /-- A selector bound to no operation: 0x00 and 0x11 to 0xFF under D3; raised by `step` on a request. -/
  | unknownHostOp
  /-- An operation that uses the link while the handle is not open (D37). -/
  | closedHandle
  /-- A second operation while one is in progress, which "has no move" (R200, D32); raised by `exec`, never by `step`. Safe. -/
  | operationInProgress
  /-- A request whose bytes are no encoding of its format, other than the two above; raised by `step`. Safe: the model's own host
  port, not the spec's. -/
  | malformedRequest (reason : Reject)
deriving DecidableEq, Repr

/-- The machine after reset (R24, R215, R216): the moment before `STARTUP`. The handle is open, as R217 (1) requires before the
first operation; nothing is requested and no choice is made yet. -/
def State.reset : State where
  gt := Banks.all GammaTable.zero
  mode := .unattached
  diagStatusPad := 0
  cur := none
  tx := []
  rx := Config.rxAtReset
  nvs := Banks.of Config.positiveFileAtReset Config.negativeFileAtReset
  handleOpen := true
  busy := none
  results := []
  notified := []
  inbox := []
  draws := ⟨[], [], [], [], 0⟩

end Sys2Proof.Machine
end

