-- ==== Sys2Proof/Machine/Flags.lean ====
section
/-! DEFINITION. The flags of the block. It has two (spec/10_state.md R17) and no arithmetic condition code: no operation sets a flag
from a carry, a zero, an overflow or a sign (R170). -/

namespace Sys2Proof.Machine

/-- The value `DECODE_STATUS` writes to `DIAG_STATUS_PAD`: 1 when a reserved bit of the image was 1, else 0 (R120, R121). -/
def padFlag (padNonzero : Bool) : BitVec 1 := if padNonzero then 1 else 0

/-- The custom-mode flag: the predicate `MODE = Custom` (R15, R17). -/
def customMode (s : State) : Bool := s.mode == .custom

/-- The number of how a part of an operation ended (R191): `ERR_CODE` of the error, or 0, "no error". -/
def Part.code (cfg : Params) : Part → Byte
  | .ok => 0
  | .err kind => cfg.errCode kind

/-- Whether a result is `Ok`: of a pair or triple, when no part of it is an error (R159, R163). -/
def Result.isOk : Result → Bool
  | .ok _ => true
  | .err _ => false
  | .push file device => file != .fileAccessError && device == .ok
  | .startup positive negative attach => positive == .ok && negative == .ok && attach == .ok

end Sys2Proof.Machine
end

