-- ==== Sys2Proof/Machine/Operands.lean ====
section
/-! DEFINITION. The values the operations compute from their operands: the channel encoder (spec/42_pixel_streaming.md R103), the
status decoder (spec/43_status_codec.md R120), the gamma decoder and encoder (spec/44_gamma_codec.md R135, R136), the registers of
a gamma table by field name, and the operand checks that refuse (spec/60_exceptions.md R192). Pure functions. -/

namespace Sys2Proof.Machine

/-- The register of field `f`, as a number. -/
def GammaTable.get (t : GammaTable) : GammaField → Nat
  | .v63 => t.v63.toNat | .v0 => t.v0.toNat | .v1 => t.v1.toNat | .v2 => t.v2.toNat | .v4 => t.v4.toNat
  | .v6 => t.v6.toNat | .j0 => t.j0.toNat | .v13 => t.v13.toNat | .v20 => t.v20.toNat | .v36 => t.v36.toNat
  | .v27 => t.v27.toNat | .v43 => t.v43.toNat | .j1 => t.j1.toNat | .v50 => t.v50.toNat | .v57 => t.v57.toNat
  | .v59 => t.v59.toNat | .v61 => t.v61.toNat | .v62 => t.v62.toNat

/-- The table with the register of field `f` replaced; every caller gives a number within the field's width. -/
def GammaTable.set (t : GammaTable) (f : GammaField) (n : Nat) : GammaTable :=
  match f with
  | .v63 => { t with v63 := BitVec.ofNat 4 n }
  | .v0 => { t with v0 := BitVec.ofNat 4 n }
  | .v1 => { t with v1 := BitVec.ofNat 6 n }
  | .v2 => { t with v2 := BitVec.ofNat 6 n }
  | .v4 => { t with v4 := BitVec.ofNat 5 n }
  | .v6 => { t with v6 := BitVec.ofNat 5 n }
  | .j0 => { t with j0 := BitVec.ofNat 2 n }
  | .v13 => { t with v13 := BitVec.ofNat 4 n }
  | .v20 => { t with v20 := BitVec.ofNat 7 n }
  | .v36 => { t with v36 := BitVec.ofNat 3 n }
  | .v27 => { t with v27 := BitVec.ofNat 3 n }
  | .v43 => { t with v43 := BitVec.ofNat 7 n }
  | .j1 => { t with j1 := BitVec.ofNat 2 n }
  | .v50 => { t with v50 := BitVec.ofNat 4 n }
  | .v57 => { t with v57 := BitVec.ofNat 5 n }
  | .v59 => { t with v59 := BitVec.ofNat 5 n }
  | .v61 => { t with v61 := BitVec.ofNat 6 n }
  | .v62 => { t with v62 := BitVec.ofNat 6 n }

/-- The table whose fields hold the given numbers, each within its width. -/
def GammaTable.ofValues (v : GammaField → Nat) : GammaTable where
  v63 := BitVec.ofNat 4 (v .v63)
  v0 := BitVec.ofNat 4 (v .v0)
  v1 := BitVec.ofNat 6 (v .v1)
  v2 := BitVec.ofNat 6 (v .v2)
  v4 := BitVec.ofNat 5 (v .v4)
  v6 := BitVec.ofNat 5 (v .v6)
  j0 := BitVec.ofNat 2 (v .j0)
  v13 := BitVec.ofNat 4 (v .v13)
  v20 := BitVec.ofNat 7 (v .v20)
  v36 := BitVec.ofNat 3 (v .v36)
  v27 := BitVec.ofNat 3 (v .v27)
  v43 := BitVec.ofNat 7 (v .v43)
  j1 := BitVec.ofNat 2 (v .j1)
  v50 := BitVec.ofNat 4 (v .v50)
  v57 := BitVec.ofNat 5 (v .v57)
  v59 := BitVec.ofNat 5 (v .v59)
  v61 := BitVec.ofNat 6 (v .v61)
  v62 := BitVec.ofNat 6 (v .v62)

/-- `GAMMA_DECODE(bytes)` (R135): `none` is `MalformedRegister`, any length but 14; padding is ignored. -/
def gammaDecode (bs : Bytes) : Option GammaTable :=
  if bs.length = Config.gammaLen then
    (unpack gammaLayout bs).map fun fields => GammaTable.ofValues (fieldOf fields.1)
  else none

/-- `GAMMA_ENCODE(table)` (R136): every value masked to its width, every padding bit 0. -/
def gammaEncode (values : GammaField → Nat) : Bytes := pack gammaLayout values

/-- The 14-byte image of a bank (R141). -/
def imageOf (t : GammaTable) : Bytes := gammaEncode t.get

/-- The operand check of `GAMMA_ENCODE`: a negative entry is refused (D24). -/
def tableValues (t : GammaRecord Int) : Except Refusal (GammaField → Nat) :=
  if gammaFields.any (fun f => recordGet t f < 0) then .error .negativeField
  else .ok fun f => (recordGet t f).toNat

/-- The view whose fields hold the given numbers, each within its width. -/
def StatusView.ofValues (v : StatusField → Nat) : StatusView where
  booster := BitVec.ofNat 1 (v .booster)
  my := BitVec.ofNat 1 (v .my)
  mx := BitVec.ofNat 1 (v .mx)
  mv := BitVec.ofNat 1 (v .mv)
  ml := BitVec.ofNat 1 (v .ml)
  rgb := BitVec.ofNat 1 (v .rgb)
  mh := BitVec.ofNat 1 (v .mh)
  idle := BitVec.ofNat 1 (v .idle)
  partialMode := BitVec.ofNat 1 (v .partialMode)
  slout := BitVec.ofNat 1 (v .slout)
  normal := BitVec.ofNat 1 (v .normal)
  vscroll := BitVec.ofNat 1 (v .vscroll)
  hscroll := BitVec.ofNat 1 (v .hscroll)
  inverted := BitVec.ofNat 1 (v .inverted)
  dison := BitVec.ofNat 1 (v .dison)
  teon := BitVec.ofNat 1 (v .teon)
  tem := BitVec.ofNat 1 (v .tem)
  pixfmt := BitVec.ofNat 3 (v .pixfmt)
  gamma := BitVec.ofNat 3 (v .gamma)

/-- The view of `DECODE_STATUS(bytes)` and whether a reserved bit was 1 (R120); `none` is `MalformedRegister`: a length other than
5, or, in a build with `STATUS_PAD_MBZ`, a reserved bit that is 1. -/
def statusDecode (cfg : Params) (bs : Bytes) : Option (StatusView × Bool) :=
  if bs.length = Config.statusLen then
    match unpack cfg.statusLayout.segments bs with
    | some (fields, padNonzero) =>
      if cfg.statusPadMbz && padNonzero then none else some (StatusView.ofValues (fieldOf fields), padNonzero)
    | none => none
  else none

/-- A channel operand as a natural; a negative one and the float form are refused (D24, R104). -/
def channelValue : Channel → Except Refusal Nat
  | .int z => if z < 0 then .error .negativeChannel else .ok z.toNat
  | .float _ _ => .error .floatChannel

/-- The pixel of three channels, each masked to its width, low byte first (R103). -/
def pixelBytes (r g b : Nat) : Bytes :=
  le16 (pixelValue (lo Config.redBits r) (lo Config.greenBits g) (lo Config.blueBits b))

/-- `PACK_PIXEL(r, g, b)` (R103), its operands checked from left to right. -/
def packPixel (r g b : Channel) : Except Refusal Bytes :=
  match channelValue r, channelValue g, channelValue b with
  | .ok r, .ok g, .ok b => .ok (pixelBytes r g b)
  | .error e, _, _ => .error e
  | _, .error e, _ => .error e
  | _, _, .error e => .error e

/-- The curve of `SELECT_CURVE(i)`: 0 to 3, else refused (D31). -/
def curveOperand (i : Int) : Except Refusal Curve :=
  if i < 0 ∨ (Config.nFixedCurves : Int) ≤ i then .error .curveIndexOutOfRange
  else .ok (Fin.ofNat Config.nFixedCurves i.toNat)

/-- The fixed curve of a status `gamma` field: 0 to 3, else refused (R157, D18). -/
def curveOfStatus (gamma : BitVec 3) : Except Refusal Curve :=
  if Config.nFixedCurves ≤ gamma.toNat then .error .attachGammaOutOfRange
  else .ok (Fin.ofNat Config.nFixedCurves gamma.toNat)

/-- An end bound as it goes on the wire (R100): the operand less `WINDOW_END_BIAS`. -/
def endBound (cfg : Params) (x : U16) : U16 := x - BitVec.ofNat 16 cfg.windowEndBias.val

/-- Whether `SET_WINDOW` is refused: the bias is 1 and an end bound 0 (R100, D7). -/
def windowUnderflows (cfg : Params) (x1 y1 : U16) : Bool := cfg.windowEndBias == 1 && (x1 == 0 || y1 == 0)

/-- `gamma_cmd(p)` (R165). -/
def gammaCmd (cfg : Params) : Polarity → Byte
  | .positive => cfg.cmdPvgam
  | .negative => cfg.cmdNvgam

end Sys2Proof.Machine
end

