-- ==== Sys2Proof/Machine/Ops.lean ====
section
/-! DEFINITION. The operations every meaning is built from: raising an error and ending an operation (spec/60_exceptions.md R196,
R197), the environment's choices (R194), the four data movement primitives (spec/20_memory.md R36, R37, R40), the two operations
that touch the link (spec/41_transport_framing.md R80, R81), and reset (spec/70_reset_and_hazards.md R215). -/

namespace Sys2Proof.Machine

/-- What running something from a state gives. -/
abbrev Out := Host.Outcome State Fault Refusal

/-! ### The end of an operation -/

/-- The operation in progress ends and its result goes to the host; `cur` is dead (R16, R185). -/
def finish (r : Result) (s : State) : State :=
  { s with busy := none, cur := none, results := s.results ++ [r] }

/-- `raise <Kind>`: the operation ends here with `Err(kind)`. What it did before stays, nothing else is written: no error register,
no saved state, no mode change (R196). The return is to idle, ready for the next operation (R197): there is nothing to restore. -/
def raise (kind : ErrKind) (s : State) : State := finish (.err kind) s

/-- `return`: the operation ends with `Ok` and no value. -/
def succeed (s : State) : State := finish (.ok .none) s

/-- `Notify(p)` (R166): recorded in the trace; no other effect. -/
def notify (p : Polarity) (s : State) : State := { s with notified := s.notified ++ [p] }

/-! ### The environment's choices (R194) -/

/-- The outcome of the next link write. -/
def drawWrite (s : State) : WriteDraw × State :=
  match s.draws.writes with
  | d :: ds => (d, { s with draws := { s.draws with writes := ds } })
  | [] => (Config.freeWrite s.draws.taken, { s with draws := { s.draws with taken := s.draws.taken + 1 } })

/-- The environment's part in the next link read. -/
def drawRead (s : State) : ReadDraw × State :=
  match s.draws.reads with
  | d :: ds => (d, { s with draws := { s.draws with reads := ds } })
  | [] => (Config.freeRead s.draws.taken, { s with draws := { s.draws with taken := s.draws.taken + 1 } })

/-- The outcome of the next store read. -/
def drawNvsRead (s : State) : NvsReadDraw × State :=
  match s.draws.nvsReads with
  | d :: ds => (d, { s with draws := { s.draws with nvsReads := ds } })
  | [] => (Config.freeNvsRead s.draws.taken, { s with draws := { s.draws with taken := s.draws.taken + 1 } })

/-- The outcome of the next store write. -/
def drawNvsWrite (s : State) : NvsWriteDraw × State :=
  match s.draws.nvsWrites with
  | d :: ds => (d, { s with draws := { s.draws with nvsWrites := ds } })
  | [] => (Config.freeNvsWrite s.draws.taken, { s with draws := { s.draws with taken := s.draws.taken + 1 } })

/-! ### The link -/

/-- How a write to the link ended: `stuck` never returns, and the state is then the stuck state (R193). -/
inductive Sent where
  | ok
  | err (kind : ErrKind)
  | stuck
deriving DecidableEq, Repr

/-- `LinkWrite(bs)` (R36): all of `bs` reaches `TX`; or the write fails after some of it; or it never returns, some of it sent. -/
def linkWrite (bs : Bytes) (s : State) : Sent × State :=
  match drawWrite s with
  | (.done, t) => (.ok, { t with tx := t.tx ++ bs })
  | (.failed k, t) => (.err .transportError, { t with tx := t.tx ++ bs.take k })
  | (.blocked k, t) => (.stuck, { t with tx := t.tx ++ bs.take k, busy := some .blocked })

/-- `LinkRead(n)` (R37): bytes may come into `RX` while it waits; the first `k ≤ n` bytes are taken from its front. `LinkRead(0)`
returns `[]` at once. -/
def linkRead (n : Nat) (s : State) : Bytes × State :=
  if n = 0 then ([], s)
  else
    let (d, t) := drawRead s
    let rx := t.rx ++ d.arrived
    let k := min d.count n
    (rx.take k, { t with rx := rx.drop k })

/-- `WRITE_COMMAND(direction, command, payload)` (R80) once its operands are accepted: the size check, then one blocking write of
header and payload. Every frame with a payload format goes through here (R67). -/
def writeCommand (d : Direction) (command : Byte) (payload : Bytes) (s : State) : Sent × State :=
  if Config.maxChunk < payload.length then (.err .payloadTooLarge, s)
  else linkWrite (headerBytes d command payload.length ++ payload) s

/-- The header of a read frame asking for `length` bytes (R81, first half): the size check, then one blocking write. -/
def requestRead (command : Byte) (length : Nat) (s : State) : Sent × State :=
  if Config.maxChunk < length then (.err .payloadTooLarge, s)
  else linkWrite (headerBytes .read command length) s

/-- Go on after a write: a stuck write goes nowhere. -/
def afterWrite (w : Sent × State) (onOk : State → State) (onErr : ErrKind → State → State) : State :=
  match w with
  | (.ok, t) => onOk t
  | (.err kind, t) => onErr kind t
  | (.stuck, t) => t

/-- One frame that ends the operation: `Ok` when it is written, its error otherwise. -/
def lastFrame (w : Sent × State) : State := afterWrite w succeed raise

/-! ### The store -/

/-- `NvsRead(p)` (R40): `none` when it fails, else what the store holds. -/
def nvsRead (p : Polarity) (s : State) : Option (Option Bytes) × State :=
  match drawNvsRead s with
  | (.answered, t) => (some (t.nvs.get p), t)
  | (.failed, t) => (none, t)

/-- What a failed write of `bs` over `old` leaves of the file (R40). -/
def leftoverFile (old : Option Bytes) (bs : Bytes) : Leftover → Option Bytes
  | .unchanged => old
  | .written => some bs
  | .truncated kept => some (bs.take kept)
  | .absent => none
  | .other content => some content

/-- `NvsWrite(p, bs)` (R40): the whole content of file `p` replaced, or a failure that leaves the file unspecified. -/
def nvsWrite (p : Polarity) (bs : Bytes) (s : State) : FileStatus × State :=
  match drawNvsWrite s with
  | (.done, t) => (.ok, { t with nvs := t.nvs.set p (some bs) })
  | (.failed left, t) => (.fileAccessError, { t with nvs := t.nvs.set p (leftoverFile (t.nvs.get p) bs left) })

/-! ### When an operation may start -/

/-- The host port: an operation starts when none is in progress (R200, D32); the stuck block has no step (R193). -/
def whenIdle (s : State) (o : Out) : Out :=
  match s.busy with
  | none => o
  | some .blocked => .fault .linkWriteBlocked
  | some _ => .refused .operationInProgress

/-- An operation that uses the link needs an open handle (R192 `ClosedHandle`, D37). -/
def onLink (s : State) (o : Out) : Out := if s.handleOpen then o else .refused .closedHandle

/-- Go on with an accepted operand, or give the refusal. -/
def accept {α : Type} (operand : Except Refusal α) (f : α → Out) : Out :=
  match operand with
  | .ok a => f a
  | .error r => .refused r

/-! ### Reset -/

/-- Reset, "controller start" (R215, R216): `GT`, `MODE` and `DIAG_STATUS_PAD` take their reset values, the operation in progress and
`cur` are dropped, nothing is sent; `TX`, `RX` and `NVS` stay. -/
def restart (s : State) : State :=
  { s with gt := Banks.all GammaTable.zero, mode := .unattached, diagStatusPad := 0, cur := none, busy := none }

end Sys2Proof.Machine
end

