-- ==== Sys2Proof/Machine/Transport.lean ====
section
/-! DEFINITION. Transport Framing (spec/41_transport_framing.md): `WRITE_COMMAND` and `READ_RESPONSE`, and the two halves of a read
that the composite operations share. -/

namespace Sys2Proof.Machine

/-! ### WRITE_COMMAND (R80) -/

/-- The checks of `WRITE_COMMAND` in the order of R195 (a): the size, then the refusal, then the write. -/
def startWrite (d : Direction) (command : Byte) (payload : Bytes) (s : State) : Out :=
  if Config.maxChunk < payload.length then .next (raise .payloadTooLarge s)
  else if d = .read ∧ payload ≠ [] then .refused .readFrameWithPayload
  else onLink s (.next (lastFrame (writeCommand d command payload s)))

/-- `WRITE_COMMAND(direction, command, payload)` (R80). -/
def execWriteCommand (d : Direction) (command : Byte) (payload : Bytes) (s : State) : Out :=
  whenIdle s (startWrite d command payload s)

/-! ### READ_RESPONSE (R81) and the reads inside READ_STATUS and ATTACH -/

/-- The result of an operation that ends as the part says. -/
def Part.result : Part → Result
  | .ok => .ok .none
  | .err kind => .err kind

/-- The end of an `ATTACH`: the host's own, or the last step of a `STARTUP` (R157, R163). -/
def endAttach (whom : AttachFor) (r : Part) (s : State) : State :=
  match whom with
  | .host => finish r.result s
  | .startup positive negative => finish (.startup positive negative r) s

/-- An error of a read or of the decode after it, given to whom the read is for (R195 (b), (f), (g)). -/
def failRead (whom : ReadFor) (kind : ErrKind) (s : State) : State :=
  match whom with
  | .response => raise kind s
  | .status .host => raise kind s
  | .status (.attach w) => endAttach w (.err kind) s

/-- The first step of a read (R81): the size check and the header; the answer is read in the next step. -/
def startRead (command : Byte) (length : Nat) (whom : ReadFor) (s : State) : State :=
  afterWrite (requestRead command length s) (fun t => { t with busy := some (.respond length whom) }) (failRead whom)

/-- The second step of a read (R81): `LinkRead(length)`; a short answer is discarded and raises `ShortRead`. -/
def takeAnswer (length : Nat) (whom : ReadFor) (s : State) : State :=
  let (bs, t) := linkRead length s
  if bs.length < length then failRead whom .shortRead t
  else
    match whom with
    | .response => finish (.ok (.bytes bs)) t
    | .status w => { t with busy := some (.decode bs w) }

/-- The checks of a read in the order of R195 (b): a request that is too large uses no link. -/
def beginRead (command : Byte) (length : Nat) (whom : ReadFor) (s : State) : Out :=
  if Config.maxChunk < length then .next (failRead whom .payloadTooLarge s)
  else onLink s (.next (startRead command length whom s))

/-- `READ_RESPONSE(command, length)` (R81). -/
def execReadResponse (command : Byte) (length : Nat) (s : State) : Out :=
  whenIdle s (beginRead command length .response s)

end Sys2Proof.Machine
end

