-- ==== Sys2Proof/Machine/Status.lean ====
section
/-! DEFINITION. The Status Register Codec (spec/43_status_codec.md): `DECODE_STATUS` and `READ_STATUS`. -/

namespace Sys2Proof.Machine

/-- A decoded view, given to whom it is for: the host, or `ATTACH`, which reads its `gamma` field in the next step. -/
def deliverStatus (whom : StatusFor) (view : StatusView) (s : State) : State :=
  match whom with
  | .host => finish (.ok (.status view)) s
  | .attach w => { s with busy := some (.derive view.gamma w) }

/-- `DECODE_STATUS(bs)` (R120): a failed decode writes nothing; a successful one writes `DIAG_STATUS_PAD`. -/
def decodeStatus (cfg : Params) (bs : Bytes) (whom : StatusFor) (s : State) : State :=
  match statusDecode cfg bs with
  | none => failRead (.status whom) .malformedRegister s
  | some (view, padNonzero) => deliverStatus whom view { s with diagStatusPad := padFlag padNonzero }

/-- `DECODE_STATUS(bytes)` (R120). -/
def execDecodeStatus (bs : Bytes) (s : State) : Out :=
  whenIdle s (.next (decodeStatus Config.params bs .host s))

/-- The read of the status image (R123): `READ_RESPONSE(CMD_RDDST, 5)`. -/
def beginStatus (cfg : Params) (whom : StatusFor) (s : State) : Out :=
  beginRead cfg.cmdRddst Config.statusLen (.status whom) s

/-- `READ_STATUS()` (R123). -/
def execReadStatus (s : State) : Out := whenIdle s (beginStatus Config.params .host s)

end Sys2Proof.Machine
end

