-- ==== Sys2Proof/Machine/Calibration.lean ====
section
/-! DEFINITION. The Calibration Controller (spec/45_calibration_controller.md): `LOAD_CAL`, `ATTACH`, `SET_FIELD`, `PUSH`,
`SELECT_CURVE`, `ENTER_CUSTOM` and `STARTUP`. -/

namespace Sys2Proof.Machine

/-! ### LOAD_CAL (R156) -/

/-- The end of a `LOAD_CAL`: the host's own, or a step of `STARTUP`, which goes on whatever it reports (R163). -/
def endLoad (whom : LoadFor) (r : Part) (s : State) : State :=
  match whom with
  | .host => finish r.result s
  | .startupPositive => { s with busy := some (.loadNegative r) }
  | .startupNegative positive => { s with busy := some (.attachNext positive r) }

/-- The first step of `LOAD_CAL(p)` (R156): the store access; a failed one leaves `GT[p]` as it was. -/
def startLoad (p : Polarity) (whom : LoadFor) (s : State) : State :=
  match nvsRead p s with
  | (none, t) => endLoad whom (.err .fileAccessError) t
  | (some file, t) => { t with busy := some (.fill p file whom) }

/-- The second step of `LOAD_CAL(p)` (R156): `GT[p]` zero for an absent file, the decoded table for a 14-byte file, as it was for
a file of another length; `Notify(p)` when a file was decoded. -/
def fillBank (p : Polarity) (file : Option Bytes) (whom : LoadFor) (s : State) : State :=
  match file with
  | none => endLoad whom .ok { s with gt := s.gt.set p GammaTable.zero }
  | some bs =>
    match gammaDecode bs with
    | none => endLoad whom (.err .malformedRegister) s
    | some t => endLoad whom .ok (notify p { s with gt := s.gt.set p t })

/-- `LOAD_CAL(p)` (R156). -/
def execLoadCal (p : Polarity) (s : State) : Out := whenIdle s (.next (startLoad p .host s))

/-! ### ATTACH (R157) -/

/-- The last step of `ATTACH` (R157): `MODE <- Fixed(gamma)`, or the refusal of D18. -/
def deriveMode (gamma : BitVec 3) (whom : AttachFor) (s : State) : Out :=
  accept (curveOfStatus gamma) fun i => .next (endAttach whom .ok { s with mode := .fixed i })

/-- `ATTACH()` (R157). -/
def execAttach (s : State) : Out := whenIdle s (beginStatus Config.params (.attach .host) s)

/-! ### PUSH (R159) -/

/-- The curve-select frame (R59, R65, `F.GAMSET`). -/
def curveFrame (cfg : Params) (i : Curve) (s : State) : Sent × State :=
  writeCommand .write cfg.cmdGamset [oneHot i] s

/-- The gamma-register frame of a polarity (R65, `F.PVGAM`, `F.NVGAM`). -/
def gammaFrame (cfg : Params) (p : Polarity) (image : Bytes) (s : State) : Sent × State :=
  writeCommand .write (gammaCmd cfg p) image s

/-- The device part of `PUSH`, which ends it with the pair of R159. -/
def endPush (file : FileStatus) (w : Sent × State) : State :=
  afterWrite w (finish (.push file .ok)) (fun kind => finish (.push file (.err kind)))

/-- The file part of `PUSH` in `Custom` mode (R159): the file first; its failure does not stop the device part. -/
def pushFile (p : Polarity) (s : State) : State :=
  let image := imageOf (s.gt.get p)
  let (file, t) := nvsWrite p image s
  { t with busy := some (.pushDevice p image file) }

/-- `PUSH(p)` in a build (R159): three-way on `MODE`. -/
def beginPush (cfg : Params) (p : Polarity) (s : State) : Out :=
  match s.mode with
  | .unattached => .refused .modeUnattached
  | .fixed i => onLink s (.next (endPush .notTouched (curveFrame cfg i s)))
  | .custom => onLink s (.next (pushFile p s))

/-- `PUSH(p)` (R159). -/
def execPush (p : Polarity) (s : State) : Out := whenIdle s (beginPush Config.params p s)

/-! ### SET_FIELD (R158) -/

/-- The store of `SET_FIELD` (R158): the clamped value into `GT[p][f]`, then `Notify(p)`. -/
def storeField (p : Polarity) (f : GammaField) (value : Int) (s : State) : State :=
  notify p { s with gt := s.gt.set p ((s.gt.get p).set f (clamp (gammaWidth f) value)) }

/-- `SET_FIELD(p, f, value)` once idle (R158): refused when unattached; in a fixed mode the store alone; in `Custom` mode the store,
then `PUSH(p)`. -/
def beginSetField (p : Polarity) (f : GammaField) (value : Int) (s : State) : Out :=
  match s.mode with
  | .unattached => .refused .modeUnattached
  | .fixed _ => .next (succeed (storeField p f value s))
  | .custom => onLink s (.next { storeField p f value s with busy := some (.pushFile p) })

/-- `SET_FIELD(p, f, value)` (R158). -/
def execSetField (p : Polarity) (f : GammaField) (value : Int) (s : State) : Out :=
  whenIdle s (beginSetField p f value s)

/-! ### SELECT_CURVE and ENTER_CUSTOM (R160, R161) -/

/-- `SELECT_CURVE(i)` (R160): the index check, then `MODE <- Fixed(i)`; the frame is the next step. -/
def execSelectCurve (i : Int) (s : State) : Out :=
  whenIdle s (accept (curveOperand i) fun c =>
    onLink s (.next { s with mode := .fixed c, busy := some (.curve c) }))

/-- `ENTER_CUSTOM()` (R161). -/
def execEnterCustom (s : State) : Out := whenIdle s (.next (succeed { s with mode := .custom }))

/-! ### STARTUP (R163) -/

/-- `STARTUP()` (R163): its first step is that of `LOAD_CAL(Positive)`. -/
def execStartup (s : State) : Out := whenIdle s (onLink s (.next (startLoad .positive .startupPositive s)))

end Sys2Proof.Machine
end

