-- ==== Sys2Proof/Machine/Pixel.lean ====
section
/-! DEFINITION. Pixel Addressing and Streaming (spec/42_pixel_streaming.md): `SET_WINDOW`, `STREAM_PIXELS` and `PACK_PIXEL`. -/

namespace Sys2Proof.Machine

/-- The column frame of `SET_WINDOW` (R100, `F.CASET`). -/
def columnFrame (cfg : Params) (start stop : U16) (s : State) : Sent × State :=
  writeCommand .write cfg.cmdCaset (winBytes start stop) s

/-- The row frame of `SET_WINDOW` (R100, `F.RASET`). -/
def rowFrame (cfg : Params) (start stop : U16) (s : State) : Sent × State :=
  writeCommand .write cfg.cmdRaset (winBytes start stop) s

/-- The first step of `SET_WINDOW` (R100): columns first; the row frame is the next step. -/
def startWindow (cfg : Params) (x0 y0 x1 y1 : U16) (s : State) : State :=
  afterWrite (columnFrame cfg x0 (endBound cfg x1) s) (fun t => { t with busy := some (.rows y0 (endBound cfg y1)) }) raise

/-- `SET_WINDOW(x0, y0, x1, y1)` in a build (R100). -/
def beginWindow (cfg : Params) (x0 y0 x1 y1 : U16) (s : State) : Out :=
  if windowUnderflows cfg x1 y1 then .refused .windowEndUnderflow
  else onLink s (.next (startWindow cfg x0 y0 x1 y1 s))

/-- `SET_WINDOW(x0, y0, x1, y1)` (R100). -/
def execSetWindow (x0 y0 x1 y1 : U16) (s : State) : Out :=
  whenIdle s (beginWindow Config.params x0 y0 x1 y1 s)

/-- The memory-write frame that opens a stream (R101, `F.RAMWR`). -/
def openFrame (cfg : Params) (s : State) : Sent × State := writeCommand .write cfg.cmdRamwr [] s

/-- A continuation frame (R101, `F.CONT`). -/
def continuationFrame (payload : Bytes) (s : State) : Sent × State := writeCommand .write Config.cmdCont payload s

/-- The first step of `STREAM_PIXELS` (R101): the memory-write frame; the loop follows unless the buffer is empty (D25). -/
def startStream (cfg : Params) (buffer : Bytes) (s : State) : State :=
  afterWrite (openFrame cfg s)
    (fun t => if buffer = [] then succeed t else { t with cur := some 0, busy := some (.chunks buffer) }) raise

/-- One pass of the loop of `STREAM_PIXELS` (R101): the slice at `cur`, then `cur` past it; the last slice ends the operation. -/
def streamStep (buffer : Bytes) (s : State) : State :=
  let cur := s.cur.getD 0
  let n := min Config.maxChunk (buffer.length - cur)
  if cur < buffer.length then
    afterWrite (continuationFrame (slice buffer cur n) s)
      (fun t => if cur + n < buffer.length then { t with cur := some (cur + n) } else succeed t) raise
  else succeed s

/-- `STREAM_PIXELS(buffer)` (R101). -/
def execStreamPixels (buffer : Bytes) (s : State) : Out :=
  whenIdle s (onLink s (.next (startStream Config.params buffer s)))

/-- `PACK_PIXEL(r, g, b)` (R103): pure. -/
def execPackPixel (r g b : Channel) (s : State) : Out :=
  whenIdle s (accept (packPixel r g b) fun bs => .next (finish (.ok (.bytes bs)) s))

end Sys2Proof.Machine
end

