-- ==== Sys2Proof/Machine/Frames.lean ====
section
/-! DEFINITION. The ten frame rows of spec/opcode_table.json (R65). The block emits a frame by one blocking write (R35); the meaning of
a frame row is that one link transfer, through the same operation that emits the frame inside the host operation R65 names. A
read row emits its header alone; its answer is the row `RESP` (notes/assumptions/4.md). -/

namespace Sys2Proof.Machine

/-- One write frame emitted as an operation of its own: `WRITE_COMMAND`'s size check, then the write. -/
def emitWrite (payload : Bytes) (frame : State → Sent × State) (s : State) : Out :=
  whenIdle s
    (if Config.maxChunk < payload.length then .next (raise .payloadTooLarge s) else onLink s (.next (lastFrame (frame s))))

/-- One read header emitted as an operation of its own. -/
def emitRead (command : Byte) (length : Nat) (s : State) : Out :=
  whenIdle s
    (if Config.maxChunk < length then .next (raise .payloadTooLarge s)
     else onLink s (.next (lastFrame (requestRead command length s))))

/-- `F.WRITE` (R80). -/
def execFWrite (command : Byte) (payload : Bytes) (s : State) : Out :=
  emitWrite payload (writeCommand .write command payload) s

/-- `F.READ` (R81). -/
def execFRead (command : Byte) (length : U16) (s : State) : Out := emitRead command length.toNat s

/-- `F.CONT` (R101). -/
def execFCont (payload : Bytes) (s : State) : Out := emitWrite payload (continuationFrame payload) s

/-- `F.CASET` (R100). -/
def execFCaset (start stop : U16) (s : State) : Out :=
  emitWrite (winBytes start stop) (columnFrame Config.params start stop) s

/-- `F.RASET` (R100). -/
def execFRaset (start stop : U16) (s : State) : Out :=
  emitWrite (winBytes start stop) (rowFrame Config.params start stop) s

/-- `F.RAMWR` (R101). -/
def execFRamwr (s : State) : Out := emitWrite [] (openFrame Config.params) s

/-- `F.GAMSET` (R160). -/
def execFGamset (i : Curve) (s : State) : Out := emitWrite [oneHot i] (curveFrame Config.params i) s

/-- `F.PVGAM` (R159). The image goes out as it is, its padding bits too: DESIGN CHOICE (log entry 28). -/
def execFPvgam (image : Bytes) (s : State) : Out := emitWrite image (gammaFrame Config.params .positive image) s

/-- `F.NVGAM` (R159). The image goes out as it is, its padding bits too: DESIGN CHOICE (log entry 28). -/
def execFNvgam (image : Bytes) (s : State) : Out := emitWrite image (gammaFrame Config.params .negative image) s

/-- `F.RDDST` (R123). -/
def execFRddst (s : State) : Out := emitRead Config.params.cmdRddst Config.statusLen s

end Sys2Proof.Machine
end

