-- ==== Sys2Proof/Machine/Gamma.lean ====
section
/-! DEFINITION. The Gamma Register Codec (spec/44_gamma_codec.md): `GAMMA_DECODE` and `GAMMA_ENCODE`, pure functions at the host port. -/

namespace Sys2Proof.Machine

/-- A 14-byte image as a table value, or `MalformedRegister` (R135). -/
def decodeTable (bs : Bytes) (s : State) : State :=
  match gammaDecode bs with
  | none => raise .malformedRegister s
  | some t => finish (.ok (.gamma t)) s

/-- `GAMMA_DECODE(bytes)` (R135). -/
def execGammaDecode (bs : Bytes) (s : State) : Out := whenIdle s (.next (decodeTable bs s))

/-- `GAMMA_ENCODE(table)` (R136). -/
def execGammaEncode (table : GammaRecord Int) (s : State) : Out :=
  whenIdle s (accept (tableValues table) fun values => .next (finish (.ok (.bytes (gammaEncode values))) s))

end Sys2Proof.Machine
end

