-- ==== Sys2Proof/Machine/Payloads.lean ====
section
/-! DEFINITION. The ten payload and image rows of spec/opcode_table.json (R50). A row the block produces has the meaning of forming its
bytes, which are its result; a row the block receives has the meaning of receiving it: an image is decoded, an answer is read
from the link (notes/assumptions/4.md). -/

namespace Sys2Proof.Machine

/-- The bytes of a payload, formed: the result, with no other effect. -/
def formed (bs : Bytes) (s : State) : Out := whenIdle s (.next (finish (.ok (.bytes bs)) s))

/-- `WIN` (R57): `be16(start) ++ be16(stop)`. -/
def execWin (start stop : U16) (s : State) : Out := formed (winBytes start stop) s

/-- `PIX16` (R58): the pixel, low byte first. -/
def execPix16 (r : BitVec Config.redBits) (g : BitVec Config.greenBits) (b : BitVec Config.blueBits) (s : State) : Out := formed (pix16Bytes r g b) s

/-- `ONEHOT8.0` (R59). -/
def execOnehot0 (s : State) : Out := formed [oneHot 0] s

/-- `ONEHOT8.1` (R59). -/
def execOnehot1 (s : State) : Out := formed [oneHot 1] s

/-- `ONEHOT8.2` (R59). -/
def execOnehot2 (s : State) : Out := formed [oneHot 2] s

/-- `ONEHOT8.3` (R59). -/
def execOnehot3 (s : State) : Out := formed [oneHot 3] s

/-- `IMG112` (R60): the image read as a table by `GAMMA_DECODE` (R135). -/
def execImg112 (image : Bytes) (s : State) : Out := whenIdle s (.next (decodeTable image s))

/-- `IMG40` (R61): the image read by `DECODE_STATUS` (R120). -/
def execImg40 (image : Bytes) (s : State) : Out := whenIdle s (.next (decodeStatus Config.params image .host s))

/-- `RESP` (R56): the device's answer comes into `RX`, and the block takes as many bytes as the answer has from the front of `RX`
(R37). A request above `MAX_CHUNK` is never made (R81). -/
def execResp (answer : Bytes) (s : State) : Out :=
  whenIdle s
    (if Config.maxChunk < answer.length then .next (raise .payloadTooLarge s)
     else onLink s (.next (takeAnswer answer.length .response { s with rx := s.rx ++ answer })))

/-- `CHUNK` (R64): the bytes of the slice, unchanged and in order. -/
def execChunk (slice : Bytes) (s : State) : Out := formed slice s

end Sys2Proof.Machine
end

