-- ==== Sys2Proof/Machine/Dispatch.lean ====
section
/-! DEFINITION. One arm for each constructor of `Instr`, each a direct call of its meaning. -/

namespace Sys2Proof.Machine

def exec (i : Instr) (s : State) : Host.Outcome State Fault Refusal :=
  match i with
  -- the frame rows (R65)
  | .fWrite command payload => Sys2Proof.Machine.execFWrite command payload s
  | .fRead command length => Sys2Proof.Machine.execFRead command length s
  | .fCont payload => Sys2Proof.Machine.execFCont payload s
  | .fCaset start stop => Sys2Proof.Machine.execFCaset start stop s
  | .fRaset start stop => Sys2Proof.Machine.execFRaset start stop s
  | .fRamwr => Sys2Proof.Machine.execFRamwr s
  | .fGamset curve => Sys2Proof.Machine.execFGamset curve s
  | .fPvgam image => Sys2Proof.Machine.execFPvgam image s
  | .fNvgam image => Sys2Proof.Machine.execFNvgam image s
  | .fRddst => Sys2Proof.Machine.execFRddst s
  -- the payload and image rows (R50)
  | .win start stop => Sys2Proof.Machine.execWin start stop s
  | .pix16 red green blue => Sys2Proof.Machine.execPix16 red green blue s
  | .onehot0 => Sys2Proof.Machine.execOnehot0 s
  | .onehot1 => Sys2Proof.Machine.execOnehot1 s
  | .onehot2 => Sys2Proof.Machine.execOnehot2 s
  | .onehot3 => Sys2Proof.Machine.execOnehot3 s
  | .img112 image => Sys2Proof.Machine.execImg112 image s
  | .img40 image => Sys2Proof.Machine.execImg40 image s
  | .resp answer => Sys2Proof.Machine.execResp answer s
  | .chunk slice => Sys2Proof.Machine.execChunk slice s
  -- the host operations (R66)
  | .writeCommand direction command payload => Sys2Proof.Machine.execWriteCommand direction command payload s
  | .readResponse command length => Sys2Proof.Machine.execReadResponse command length s
  | .setWindow x0 y0 x1 y1 => Sys2Proof.Machine.execSetWindow x0 y0 x1 y1 s
  | .streamPixels buffer => Sys2Proof.Machine.execStreamPixels buffer s
  | .packPixel r g b => Sys2Proof.Machine.execPackPixel r g b s
  | .decodeStatus bytes => Sys2Proof.Machine.execDecodeStatus bytes s
  | .readStatus => Sys2Proof.Machine.execReadStatus s
  | .gammaDecode bytes => Sys2Proof.Machine.execGammaDecode bytes s
  | .gammaEncode table => Sys2Proof.Machine.execGammaEncode table s
  | .loadCal p => Sys2Proof.Machine.execLoadCal p s
  | .attach => Sys2Proof.Machine.execAttach s
  | .setField p f value => Sys2Proof.Machine.execSetField p f value s
  | .push p => Sys2Proof.Machine.execPush p s
  | .selectCurve curve => Sys2Proof.Machine.execSelectCurve curve s
  | .enterCustom => Sys2Proof.Machine.execEnterCustom s
  | .startup => Sys2Proof.Machine.execStartup s

end Sys2Proof.Machine
end

