-- ==== Sys2Proof/Machine/Fetch.lean ====
section
/-! DEFINITION. What the next step is: an event from outside, the next step of the operation in progress, or a new operation
fetched from the host port. The block has no program counter and no instruction fetch of a processor's kind (spec/10_state.md R16);
it takes one operation at a time, handed to it whole, when it is idle (R41, R200, D32). -/

namespace Sys2Proof.Machine

/-- What the block or the world does next. -/
inductive Fetched where
  /-- Nothing: a blocked write (R193). -/
  | stuck
  /-- The state after an event from outside, or after an idle step. -/
  | event (s : State)
  /-- The next step of the operation in progress. -/
  | carryOn (p : Progress) (s : State)
  /-- The first step of an operation taken from the host port. -/
  | run (i : Instr) (s : State)
  /-- A request that is no operation. -/
  | refuse (r : Refusal)
deriving DecidableEq, Repr

/-- The refusal of a request that does not decode (R192). -/
def rejectionOf : Reject → Refusal
  | .unknownHostOp => .unknownHostOp
  | .operandType => .operandType
  | r => .malformedRequest r

/-- A request taken from the host port (R70). -/
def takeRequest (cfg : Params) (format : Format) (bs : Bytes) (s : State) : Fetched :=
  match Sys2Proof.decode cfg format bs with
  | .ok i => .run i s
  | .error r => .refuse (rejectionOf r)

/-- The next step, when what comes from outside does not change it: the operation in progress goes on, an idle block stays idle
(R205, R218). -/
def goOn (s : State) : Fetched :=
  match s.busy with
  | none => .event s
  | some .blocked => .stuck
  | some p => .carryOn p s

/-- The next step. The stuck block has none; an event at the head of `inbox` happens first; a request waits until the block is
idle. -/
def fetch (cfg : Params) (s : State) : Fetched :=
  if s.busy = some .blocked then .stuck
  else
    match s.inbox with
    | [] => goOn s
    | .deviceBytes bs :: rest => .event { s with inbox := rest, rx := s.rx ++ bs }
    | .restart :: rest => .event (restart { s with inbox := rest })
    | .handle isOpen :: rest => .event { s with inbox := rest, handleOpen := isOpen }
    | .quiet :: rest => goOn { s with inbox := rest }
    | .request format bs :: rest =>
      match s.busy with
      | none => takeRequest cfg format bs { s with inbox := rest }
      | some _ => goOn s

end Sys2Proof.Machine
end

