-- ==== Sys2Proof/Machine/Resume.lean ====
section
/-! DEFINITION. The steps of an operation after its first (spec/92_eei_decisions.md D2): what the block does next when an operation is
in progress, and the running of an operation to its end. -/

namespace Sys2Proof.Machine

/-- The next step of the operation in progress, in a build. -/
def resume (cfg : Params) (p : Progress) (s : State) : Out :=
  match p with
  | .blocked => .fault .linkWriteBlocked
  | .respond length whom => onLink s (.next (takeAnswer length whom s))
  | .decode image whom => .next (decodeStatus cfg image whom s)
  | .derive gamma whom => deriveMode gamma whom s
  | .rows start stop => onLink s (.next (lastFrame (rowFrame cfg start stop s)))
  | .chunks buffer => onLink s (.next (streamStep buffer s))
  | .curve i => onLink s (.next (lastFrame (curveFrame cfg i s)))
  | .fill p file whom => .next (fillBank p file whom s)
  | .pushFile p => .next (pushFile p s)
  | .pushDevice p image file => onLink s (.next (endPush file (gammaFrame cfg p image s)))
  | .loadNegative positive => .next (startLoad .negative (.startupNegative positive) s)
  | .attachNext positive negative => beginStatus cfg (.attach (.startup positive negative)) s

/-- A bound on the steps the operation in progress still takes: one for each continuation frame of a stream, at most seven
otherwise (`STARTUP` after its first). -/
def stepsLeft (s : State) : Nat :=
  match s.busy with
  | none => 0
  | some (.chunks buffer) => buffer.length / Config.maxChunk + 1
  | some _ => 7

/-- The operation in progress run for at most `fuel` steps with nothing coming from outside; an idle or stuck state is its own
end. -/
def settle (cfg : Params) : Nat → State → Out
  | 0, s => .next s
  | fuel + 1, s =>
    match s.busy with
    | none => .next s
    | some .blocked => .next s
    | some p =>
      match resume cfg p s with
      | .next t => settle cfg fuel t
      | .fault r => .fault r
      | .refused r => .refused r

end Sys2Proof.Machine
end

