-- ==== Sys2Proof/Machine/Step.lean ====
section
/-! DEFINITION. One step of the machine (spec/92_eei_decisions.md D2), and how a program word comes to be its next instruction. -/

namespace Sys2Proof.Machine

/-- One step: an event from outside, one step of the operation in progress, or the first step of the next operation. -/
def step (s : State) : Host.Outcome State Fault Refusal :=
  match fetch Config.params s with
  | .stuck => .fault .linkWriteBlocked
  | .event t => .next t
  | .carryOn p t => resume Config.params p t
  | .run i t => exec i t
  | .refuse r => .refused r

/-- The state with the instruction of a table word as the next request at the host port, and the block idle so that the very next
step takes it. A width the table does not have changes nothing. -/
def State.withFetchWord (s : State) (nbits w : Nat) : State :=
  match Sys2Proof.tableRequest nbits w with
  | some (format, bs) => { s with inbox := .request format bs :: s.inbox, busy := none, cur := none }
  | none => s

/-- An operation run to its end with nothing coming from outside: its first step, then the steps left. -/
def perform (i : Instr) (s : State) : Out :=
  match exec i s with
  | .next t => settle Config.params (stepsLeft t) t
  | .fault r => .fault r
  | .refused r => .refused r

end Sys2Proof.Machine
end

