-- ==== Sys2Proof/Safety.lean ====
section
/-! DEFINITION. The terms the claims use: what the record of results says went wrong, the bytes of a sequence of frames, and the two
invariants that every step keeps. None of it is state of the block. -/

namespace Sys2Proof.Machine

/-! ### The record of errors (R196) -/

/-- No result returned so far is an error: the premise R196 offers. -/
def noErrorSoFar (s : State) : Bool := s.results.all Result.isOk

/-- The result reports a failed link write, whole or in part. -/
def Result.linkFailed : Result → Bool
  | .ok _ => false
  | .err kind => kind == .transportError
  | .push _ device => device == .err .transportError
  | .startup _ _ attach => attach == .err .transportError

/-- A link write has failed or is blocked: from then on `TX` may end in a partial frame (R84, R226). -/
def linkLost (s : State) : Bool := s.busy == some .blocked || s.results.any Result.linkFailed

/-! ### The link as the receiver reads it (R55, R84) -/

/-- The bytes of frames one after another; "no padding between frames" (R55). -/
def framesBytes (fs : List Frame) : Bytes := fs.flatMap Frame.bytes

/-- While no link write has failed or blocked, `TX` is a sequence of whole frames that the block may emit (R35, R84). -/
def Framed (s : State) : Prop :=
  linkLost s = false → ∃ fs : List Frame, (∀ f ∈ fs, f.wf = true) ∧ s.tx = framesBytes fs

/-! ### The operation in progress -/

/-- What holds of the rest of the state when an operation is at this point: the size of a read is bounded (R37) and that of a
status read is 5 (R123); the cursor of a stream is live, between two frames, and before the end of the buffer (R16, R101); a curve
frame is sent in the state it selects (R160); a file just read is what the store holds (R40); a push is made in `Custom` mode only,
its image is the bank's, and when its file write succeeded the file already holds it (R41, R46, R159). -/
def Progress.holds (s : State) : Progress → Prop
  | .blocked => True
  | .respond length whom => length ≤ Config.maxChunk ∧ (whom ≠ .response → length = Config.statusLen)
  | .decode image _ => image.length = Config.statusLen
  | .derive _ _ => True
  | .rows _ _ => True
  | .chunks buffer => ∃ c, s.cur = some c ∧ c % Config.maxChunk = 0 ∧ c < buffer.length
  | .curve i => s.mode = .fixed i
  | .fill p file _ => file = s.nvs.get p
  | .pushFile _ => s.mode = .custom
  | .pushDevice p image file =>
    s.mode = .custom ∧ image = imageOf (s.gt.get p) ∧ file ≠ .notTouched ∧ (file = .ok → s.nvs.get p = some image)
  | .loadNegative _ => True
  | .attachNext _ _ => True

/-- The state agrees with its operation in progress, and `cur` is live only inside `STREAM_PIXELS` (R16). -/
def Consistent (s : State) : Prop :=
  (∀ p, s.busy = some p → p.holds s) ∧
    (s.cur ≠ none → s.busy = some .blocked ∨ ∃ buffer, s.busy = some (.chunks buffer))

/-! ### What comes from outside -/

/-- No event from outside comes before the next request: the block is left to itself until its operation ends. -/
def undisturbed (s : State) : Bool :=
  match s.inbox with
  | [] => true
  | .request _ _ :: _ => true
  | _ => false

end Sys2Proof.Machine
end

