-- ==== Sys2Proof/Certificates/Slice0/Obligations.lean ====
section
/-! DEFINITION. The statements for the provers. First the terms they share, each written from the rule it names and not from the
model's own helper; then one `def Obligations.<Name> : Prop` for each statement, in the order of OBLIGATIONS.json. -/

namespace Sys2Proof.Claims

open Machine

/-! ### Ends, transfers and store accesses -/

/-- The state once an operation has ended with `r`: idle, the cursor dead, the result with the host, all else as in `s` (R185, R196,
R197). -/
def answered (r : Result) (s : State) : State := { s with busy := none, cur := none, results := s.results ++ [r] }

/-- `LinkWrite(bs)` (R36) and what follows it: all of `bs` is sent; or some of it and the write fails; or some of it and the block is
stuck, with no next line. Which one is the environment's choice. -/
def sending (bs : Bytes) (s : State) (done failed : State → State) : State :=
  match drawWrite s with
  | (.done, t) => done { t with tx := s.tx ++ bs }
  | (.failed k, t) => failed { t with tx := s.tx ++ bs.take k }
  | (.blocked k, t) => { t with tx := s.tx ++ bs.take k, busy := some .blocked }

/-- `LinkRead(n)` (R37) and what follows it: bytes may come into `RX`; the block takes `k ≤ n` from its front; with `k = n` it goes on
with them, with `k < n` they are thrown away. `LinkRead(0)` gives `[]` at once. -/
def receiving (n : Nat) (s : State) (full : Bytes → State → State) (short : State → State) : State :=
  if n = 0 then full [] s
  else
    match drawRead s with
    | (d, t) =>
      let queue := s.rx ++ d.arrived
      let k := min (min d.count n) queue.length
      if k < n then short { t with rx := queue.drop k } else full (queue.take n) { t with rx := queue.drop n }

/-- `NvsWrite(p, bs)` (R40) and what follows it: file `p` replaced, or a failure that leaves of it what it leaves. -/
def storing (p : Polarity) (bs : Bytes) (s : State) (next : FileStatus → State → State) : State :=
  match drawNvsWrite s with
  | (.done, t) => next .ok { t with nvs := s.nvs.set p (some bs) }
  | (.failed left, t) => next .fileAccessError { t with nvs := s.nvs.set p (leftoverFile (s.nvs.get p) bs left) }

/-- An operation whose only step is to send `bs`. -/
def sendingOnly (bs : Bytes) (s : State) : State :=
  sending bs s (answered (.ok .none)) (answered (.err .transportError))

/-- What the outcome of an operation becomes when every next state is changed by `f`. -/
def mapNext (f : State → State) : Out → Out
  | .next t => .next (f t)
  | .fault r => .fault r
  | .refused r => .refused r

/-! ### Bytes on the wire -/

/-- A write frame (R51, R54, R55): direction 0, the command, the length low byte first, the payload. -/
def writeFrame (command : Byte) (payload : Bytes) : Bytes :=
  [0, command, BitVec.ofNat 8 payload.length, BitVec.ofNat 8 (payload.length / 256)] ++ payload

/-- A read frame (R51, R54, R55): direction 1, the command, the length asked for, no payload. -/
def readFrame (command : Byte) (n : Nat) : Bytes := [1, command, BitVec.ofNat 8 n, BitVec.ofNat 8 (n / 256)]

/-- A window bound (R57): high byte first. -/
def bound (x : U16) : Bytes := [BitVec.ofNat 8 (x.toNat / 256), BitVec.ofNat 8 x.toNat]

/-- The one-hot byte of a fixed curve (R59). -/
def oneHotByte (i : Curve) : Byte :=
  match i with
  | 0 => 0x01
  | 1 => 0x02
  | 2 => 0x04
  | 3 => 0x08

/-- A pixel from channels of 5, 6 and 5 bits (R58): low byte first. -/
def pixel (r g b : Nat) : Bytes :=
  [BitVec.ofNat 8 (r * 2048 + g * 32 + b), BitVec.ofNat 8 ((r * 2048 + g * 32 + b) / 256)]

/-- `ceil(n / MAX_CHUNK)`. -/
def chunkCount (n : Nat) : Nat := (n + (Config.maxChunk - 1)) / Config.maxChunk

/-- The bytes `j * MAX_CHUNK` to `min((j + 1) * MAX_CHUNK, len) - 1` of a buffer (R102). -/
def chunkOf (buffer : Bytes) (j : Nat) : Bytes := (buffer.drop (j * Config.maxChunk)).take Config.maxChunk

/-- The frames of a stream (R101, R102): the memory-write frame and one continuation frame for each chunk. -/
def streamFrames (cfg : Params) (buffer : Bytes) : List Frame :=
  ⟨.write, cfg.cmdRamwr, 0, []⟩ ::
    (List.range (chunkCount buffer.length)).map fun j => ⟨.write, 0, (chunkOf buffer j).length, chunkOf buffer j⟩

/-- The loop of `STREAM_PIXELS` (R101) with `n` passes left, the next one sending chunk `j`. -/
def streaming (buffer : Bytes) : Nat → Nat → State → State
  | 0, _, s => answered (.ok .none) s
  | n + 1, j, s =>
    sending (writeFrame 0 (chunkOf buffer j)) { s with cur := some (j * Config.maxChunk) } (streaming buffer n (j + 1))
      (answered (.err .transportError))

/-- What a channel operand is refused as, if it is (R103, R104). -/
def channelRefusal : Channel → Option Refusal
  | .int z => if z < 0 then some .negativeChannel else none
  | .float _ _ => some .floatChannel

/-! ### The read stream -/

/-- What `LinkRead(n)` leaves of a queue (R37): the bytes that come while it waits go to the end, and what it takes, never more than
`n`, goes from the front. -/
def readLeft (n : Nat) (queue : Bytes) (s : State) : Bytes :=
  if n = 0 then queue else (queue ++ (drawRead s).1.arrived).drop (min (drawRead s).1.count n)

/-- `RX` after a step of the operation in progress, if there is one: a `LinkRead` takes from its front, no other step touches it. -/
def rxAfterProgress (s : State) : Bytes :=
  match s.busy with
  | some (.respond n _) => readLeft n s.rx s
  | _ => s.rx

/-- `RX` after the first step of a requested operation: only the row `RESP` touches it. -/
def rxAfterRequest (format : Format) (bs : Bytes) (s : State) : Bytes :=
  match decode Config.params format bs with
  | .ok (.resp answer) => readLeft answer.length (s.rx ++ answer) s
  | _ => s.rx

/-- `RX` after a step (R20): longer by what the device sends, shorter by what a `LinkRead` takes, else as it was. -/
def rxAfter (s : State) : Bytes :=
  match s.inbox with
  | [] => rxAfterProgress s
  | .quiet :: _ => rxAfterProgress s
  | .deviceBytes bs :: _ => s.rx ++ bs
  | .restart :: _ => s.rx
  | .handle _ :: _ => s.rx
  | .request format bs :: _ => if s.busy = none then rxAfterRequest format bs s else rxAfterProgress s

/-- The steps of an operation in progress that are a link transfer. -/
def transferNext : Progress → Bool
  | .respond _ _ => true
  | .rows _ _ => true
  | .chunks _ => true
  | .curve _ => true
  | .pushDevice _ _ _ => true
  | .attachNext _ _ => true
  | _ => false

/-! ### Register images -/

/-- The bit of an image at a stream position (R62): `(bytes[pos div 8] >> (7 - pos mod 8)) & 1`. -/
def bitAt (bs : Bytes) (pos : Nat) : Bool := (bs.getD (pos / 8) 0).getLsbD (7 - pos % 8)

/-- The number of `w` bits from a stream position on, the first the most significant (R62). -/
def valueAt (bs : Bytes) (pos w : Nat) : Nat := (List.range w).foldl (fun v i => 2 * v + (bitAt bs (pos + i)).toNat) 0

/-- A field of a status view, by name. -/
def viewField (v : StatusView) : StatusField → Nat
  | .booster => v.booster.toNat | .my => v.my.toNat | .mx => v.mx.toNat | .mv => v.mv.toNat | .ml => v.ml.toNat
  | .rgb => v.rgb.toNat | .mh => v.mh.toNat | .idle => v.idle.toNat | .partialMode => v.partialMode.toNat
  | .slout => v.slout.toNat | .normal => v.normal.toNat | .vscroll => v.vscroll.toNat | .hscroll => v.hscroll.toNat
  | .inverted => v.inverted.toNat | .dison => v.dison.toNat | .teon => v.teon.toNat | .tem => v.tem.toNat
  | .pixfmt => v.pixfmt.toNat | .gamma => v.gamma.toNat

/-- The end of a status decode for the host (R120), through the decoder's view and pad bit. -/
def statusAnswer (cfg : Params) (bs : Bytes) (s : State) : State :=
  match statusDecode cfg bs with
  | some (view, pad) => answered (.ok (.status view)) { s with diagStatusPad := if pad then 1 else 0 }
  | none => answered (.err .malformedRegister) s

/-- The table of 14 bytes, byte by byte as R135 writes it; `none` for any other length. -/
def tableOfBytes : Bytes → Option GammaTable
  | [b0, b1, b2, b3, b4, b5, b6, b7, b8, b9, b10, b11, b12, b13] =>
    some
      { v63 := b0.extractLsb' 4 4, v0 := b0.extractLsb' 0 4, v1 := b1.extractLsb' 0 6, v2 := b2.extractLsb' 0 6
        v4 := b3.extractLsb' 0 5, v6 := b4.extractLsb' 0 5, j0 := b5.extractLsb' 4 2, v13 := b5.extractLsb' 0 4
        v20 := b6.extractLsb' 0 7, v36 := b7.extractLsb' 4 3, v27 := b7.extractLsb' 0 3, v43 := b8.extractLsb' 0 7
        j1 := b9.extractLsb' 4 2, v50 := b9.extractLsb' 0 4, v57 := b10.extractLsb' 0 5, v59 := b11.extractLsb' 0 5
        v61 := b12.extractLsb' 0 6, v62 := b13.extractLsb' 0 6 }
  | _ => none

/-- The 14 bytes of a record of naturals, byte by byte as R136 writes them. -/
def bytesOfTable (v : GammaField → Nat) : Bytes :=
  [BitVec.ofNat 8 (v .v63 % 16 * 16 + v .v0 % 16), BitVec.ofNat 8 (v .v1 % 64), BitVec.ofNat 8 (v .v2 % 64),
   BitVec.ofNat 8 (v .v4 % 32), BitVec.ofNat 8 (v .v6 % 32), BitVec.ofNat 8 (v .j0 % 4 * 16 + v .v13 % 16),
   BitVec.ofNat 8 (v .v20 % 128), BitVec.ofNat 8 (v .v36 % 8 * 16 + v .v27 % 8), BitVec.ofNat 8 (v .v43 % 128),
   BitVec.ofNat 8 (v .j1 % 4 * 16 + v .v50 % 16), BitVec.ofNat 8 (v .v57 % 32), BitVec.ofNat 8 (v .v59 % 32),
   BitVec.ofNat 8 (v .v61 % 64), BitVec.ofNat 8 (v .v62 % 64)]

/-- The end of a gamma decode (R135). -/
def tableAnswer (bs : Bytes) : Result :=
  match tableOfBytes bs with
  | some t => .ok (.gamma t)
  | none => .err .malformedRegister

/-- A value clamped into the width of a field (R158): `max(0, min(x, 2^w - 1))`. -/
def clamped (f : GammaField) (x : Int) : Nat := (max 0 (min x (2 ^ gammaWidth f - 1))).toNat

/-! ### Composite operations -/

/-- `LOAD_CAL(p)` (R156) up to its result: how it ends, and the state it leaves. -/
def loaded (p : Polarity) (s : State) : Part × State :=
  match drawNvsRead s with
  | (.failed, t) => (.err .fileAccessError, t)
  | (.answered, t) =>
    match s.nvs.get p with
    | none => (.ok, { t with gt := s.gt.set p GammaTable.zero })
    | some bs =>
      match tableOfBytes bs with
      | none => (.err .malformedRegister, t)
      | some table => (.ok, { t with gt := s.gt.set p table, notified := s.notified ++ [p] })

/-- The result of an operation whose only part ended as given. -/
def resultOf : Part → Result
  | .ok => .ok .none
  | .err kind => .err kind

/-- The store of `SET_FIELD(p, f, x)` (R158): the clamped value and the notification. -/
def fieldStored (p : Polarity) (f : GammaField) (x : Int) (s : State) : State :=
  { s with gt := s.gt.set p ((s.gt.get p).set f (clamped f x)), notified := s.notified ++ [p] }

/-- The device command of a polarity (R165). -/
def gammaCommand (cfg : Params) : Polarity → Byte
  | .positive => cfg.cmdPvgam
  | .negative => cfg.cmdNvgam

/-- The state with one bank of `GT` and its file replaced. -/
def withBank (q : Polarity) (table : GammaTable) (file : Option Bytes) (s : State) : State :=
  { s with gt := s.gt.set q table, nvs := s.nvs.set q file }

/-- The state with everything the Calibration Controller keeps replaced. -/
def withCalibration (gt : Banks GammaTable) (mode : Mode) (nvs : Banks (Option Bytes)) (s : State) : State :=
  { s with gt := gt, mode := mode, nvs := nvs }

/-- The rows of TF, PX, SRC and GRC: all but the operations of the Calibration Controller (R217 (4)). -/
def outsideCalibration : Instr → Bool
  | .loadCal _ => false
  | .attach => false
  | .setField _ _ _ => false
  | .push _ => false
  | .selectCurve _ => false
  | .enterCustom => false
  | .startup => false
  | _ => true

/-- The operations of the Calibration Controller that take a polarity: `LOAD_CAL`, `SET_FIELD`, `PUSH` (R164). -/
def actsOn (p : Polarity) : Instr → Bool
  | .loadCal q => q == p
  | .setField q _ _ => q == p
  | .push q => q == p
  | _ => false

/-- The example binding B1 of spec/95_test_vectors.md with `LAYOUT_LITERAL`: a build in which words are concrete; no claim about the
hardware. -/
def bindingB1 : Params :=
  { cmdCaset := 0x2A, cmdRaset := 0x2B, cmdRamwr := 0x2C, cmdGamset := 0x26, cmdPvgam := 0xE0, cmdNvgam := 0xE1
    cmdRddst := 0x09, statusLayout := { segments := layoutLiteral }, statusPadMbz := false, windowEndBias := 0
    opIndex := ordinalIndex, errCode := ordinalCode }

end Sys2Proof.Claims

section

open Sys2Proof Sys2Proof.Machine Sys2Proof.Claims

/-! ### Encoding -/

/-- R6: the parameters whose value the source fixes. -/
def Obligations.FixedParameters : Prop :=
  Config.maxChunk = 16384 ∧ Config.headerLen = 4 ∧ Config.dirWrite = 0 ∧ Config.dirRead = 1 ∧ Config.cmdCont = 0 ∧
    Config.statusLen = 5 ∧ Config.gammaLen = 14 ∧ Config.nGammaFields = 18 ∧ Config.nPolarity = 2 ∧
    Config.nFixedCurves = 4 ∧ Config.readTimeout = 1 ∧ Config.redBits = 5 ∧ Config.greenBits = 6 ∧ Config.blueBits = 5

/-- In every build whose command codes and selectors are told apart, the encoding of every well-formed instruction decodes to it, with
every operand. The bytes of host operands are the model's own (log entry 5); that a gamma-register frame is its row whatever its
padding bits are is the model's choice (log entry 28). -/
def Obligations.EncodedInstructionsDecode : Prop :=
  ∀ (cfg : Params) (i : Instr), cfg.cmdDistinct = true → cfg.opDistinct = true → WellFormed cfg i →
    decode cfg (encode cfg i).1 (encode cfg i).2 = .ok i

/-- In every build, whatever bytes the decoder accepts stand for a well-formed instruction. That a gamma-register frame is well formed
whatever its padding bits are is the model's choice (log entry 28). -/
def Obligations.DecodedInstructionsAreWellFormed : Prop :=
  ∀ (cfg : Params) (format : Format) (bs : Bytes) (i : Instr), decode cfg format bs = .ok i → WellFormed cfg i

/-- Words written out from R51, R57 to R61, R65 and R70, under the example binding B1. -/
def Obligations.WordsDecode : Prop :=
  decode bindingB1 .frame [0x00, 0x2A, 0x04, 0x00, 0x00, 0x00, 0x01, 0x3F] = .ok (.fCaset 0 319) ∧
    decode bindingB1 .frame [0x01, 0x09, 0x05, 0x00] = .ok .fRddst ∧
    decode bindingB1 .frame [0x00, 0x00, 0x02, 0x00, 0x11, 0x22] = .ok (.fCont [0x11, 0x22]) ∧
    decode bindingB1 .frame [0x00, 0x26, 0x01, 0x00, 0x04] = .ok (.fGamset 2) ∧
    decode bindingB1 .frame [0x01, 0x5A, 0x2C, 0x01] = .ok (.fRead 0x5A 300) ∧
    decode bindingB1 .pix16 [0x21, 0x08] = .ok (.pix16 1 1 1) ∧
    decode bindingB1 .win [0xAB, 0xCD, 0x00, 0xFF] = .ok (.win 0xABCD 0x00FF) ∧
    decode bindingB1 .onehot8 [0x08] = .ok .onehot3 ∧
    decode bindingB1 .hostop [0x0F] = .ok .enterCustom ∧
    decode bindingB1 .hostop [0x00] = .error .unknownHostOp

/-- R55, R84: any sequence of frames the block may emit is cut back into the same sequence, whatever follows it, and in one way
only. R84 is the spec's own inference from R55, R80 and R81. -/
def Obligations.FramesAreCutBack : Prop :=
  (∀ (fs : List Frame) (rest : Bytes), (∀ f ∈ fs, f.wf = true) →
    cutFrames fs.length (framesBytes fs ++ rest) = .ok (fs, rest)) ∧
  (∀ fs gs : List Frame, (∀ f ∈ fs, f.wf = true) → (∀ g ∈ gs, g.wf = true) → framesBytes fs = framesBytes gs → fs = gs)

/-- R172: byte assembly, exact and invertible. -/
def Obligations.ByteAssembly : Prop :=
  ∀ n : Nat, n ≤ 65535 →
    le16 n = [BitVec.ofNat 8 (n &&& 0xFF), BitVec.ofNat 8 (n >>> 8)] ∧
    be16 n = [BitVec.ofNat 8 (n >>> 8), BitVec.ofNat 8 (n &&& 0xFF)] ∧
    fromLe16 (BitVec.ofNat 8 (n &&& 0xFF)) (BitVec.ofNat 8 (n >>> 8)) = n ∧
    fromBe16 (BitVec.ofNat 8 (n >>> 8)) (BitVec.ofNat 8 (n &&& 0xFF)) = n

/-- R171: the mask and the clamp of a field, where they agree and where they differ; and no bank value is ever changed by the mask
of the encoder. That no bank value is out of range is the spec's own inference in R171. -/
def Obligations.MaskAndClamp : Prop :=
  (∀ w x : Nat, x < 2 ^ w → lo w x = x ∧ clamp w x = x) ∧
  (∀ w x : Nat, 2 ^ w ≤ x → clamp w x = 2 ^ w - 1 ∧ lo w x = x % 2 ^ w) ∧
  ([15, 16, 20, 31, 32].map (fun x : Nat => (clamp 4 x, lo 4 x)) = [(15, 15), (15, 0), (15, 4), (15, 15), (15, 0)]) ∧
  (∀ (s : State) (p : Polarity) (f : GammaField), (s.gt.get p).get f < 2 ^ gammaWidth f) ∧
  (∀ (s : State) (p : Polarity), gammaDecode (imageOf (s.gt.get p)) = some (s.gt.get p))

/-! ### Steps -/

/-- An idle block takes the request at the head of its inbox: the step is the decoded instruction, run with that request gone. -/
def Obligations.StepRunsTheRequest : Prop :=
  ∀ (s : State) (format : Format) (bs : Bytes) (rest : List Stimulus) (i : Instr),
    s.busy = none → s.inbox = .request format bs :: rest → decode Config.params format bs = .ok i →
    step s = exec i { s with inbox := rest }

/-- A request that decodes to no instruction has no step: an unknown selector and an operand outside its type under the names of
R192, any other fault of the request under the model's own name (log entry 5). -/
def Obligations.StepRefusesBadRequests : Prop :=
  ∀ (s : State) (format : Format) (bs : Bytes) (rest : List Stimulus) (e : Reject),
    s.busy = none → s.inbox = .request format bs :: rest → decode Config.params format bs = .error e →
    step s = .refused (match e with
      | .unknownHostOp => .unknownHostOp
      | .operandType => .operandType
      | e => .malformedRequest e)

/-- With no event from outside, a step carries the operation in progress on. That requests stand in an inbox is the model's choice
(log entry 3), and so is that a further one waits there in `step`, where `exec` would refuse it (log entry 19). -/
def Obligations.StepCarriesTheOperationOn : Prop :=
  ∀ (s : State) (p : Progress), s.busy = some p → p ≠ .blocked → undisturbed s = true →
    step s = resume Config.params p s

/-- What comes from outside, to a block that is not stuck, and the idle step: bytes for `RX`, the handle, a step in which nothing
comes, nothing at all (R20, R205, R217 (1); the events are the model's, log entry 3). -/
def Obligations.OutsideEvents : Prop :=
  ∀ (s : State), s.busy ≠ some .blocked →
    (∀ bs rest, s.inbox = .deviceBytes bs :: rest → step s = .next { s with inbox := rest, rx := s.rx ++ bs }) ∧
    (∀ b rest, s.inbox = .handle b :: rest → step s = .next { s with inbox := rest, handleOpen := b }) ∧
    (∀ rest, s.busy = none → s.inbox = .quiet :: rest → step s = .next { s with inbox := rest }) ∧
    (∀ rest p, s.busy = some p → s.inbox = .quiet :: rest → step s = resume Config.params p { s with inbox := rest }) ∧
    (s.busy = none → s.inbox = [] → step s = .next s)

/-- An operation run to its end is a run of the machine: the first step, then at most `stepsLeft` more. -/
def Obligations.PerformIsARun : Prop :=
  ∀ (i : Instr) (s u : State), undisturbed s = true → exec i s = .next u →
    (∀ t, perform i s = .next t → ∃ k, k ≤ stepsLeft u ∧ Host.Core.run Sys2Proof.core k u = .next t) ∧
    (∀ r, perform i s = .refused r → ∃ k, k ≤ stepsLeft u ∧ Host.Core.run Sys2Proof.core k u = .refused r)

/-- R175, R185: every operation ends with one result and an idle block, or is stuck in a write with none. -/
def Obligations.OperationsEnd : Prop :=
  ∀ (i : Instr) (s t : State), perform i s = .next t →
    (t.busy = none ∧ t.cur = none ∧ ∃ r, t.results = s.results ++ [r]) ∨
    (t.busy = some .blocked ∧ t.results = s.results)

/-- The reset state agrees with its operation in progress: there is none. -/
def Obligations.ConsistentAtReset : Prop := Consistent State.reset

/-- Every step keeps the agreement of the state with the operation in progress (R16, R37, R40, R46, R101, R123, R159, R160). -/
def Obligations.ConsistentIsKept : Prop :=
  ∀ s t : State, Consistent s → step s = .next t → Consistent t

/-- At reset `TX` is a sequence of whole frames: the empty one. -/
def Obligations.FramedAtReset : Prop := Framed State.reset

/-- Every step keeps `TX` a sequence of whole frames of at most `MAX_CHUNK` bytes, while no link write has failed or blocked (R35, R54,
R55, R84). -/
def Obligations.FramedIsKept : Prop :=
  ∀ s t : State, Framed s → step s = .next t → Framed t

/-- `TX` is append-only; `RX` is first-in first-out: what the device sends goes to its end, what a read takes goes from its front, and
nothing else changes it; no step takes back a result or a notification, and no step gives two results (R20, R37, R41, R196). The
bytes and the count of a read are the environment's; that an answer of the row `RESP` comes through `RX` is the model's choice (log
entries 3 and 4). -/
def Obligations.HistoriesOnlyGrow : Prop :=
  ∀ s t : State, step s = .next t →
    (∃ sent, t.tx = s.tx ++ sent) ∧
    t.rx = rxAfter s ∧
    (∃ rs, rs.length ≤ 1 ∧ t.results = s.results ++ rs) ∧
    (∃ ps, ps.length ≤ 1 ∧ t.notified = s.notified ++ ps)

/-! ### Reset, refusals, the stuck state, draws -/

/-- R24, R216: what the spec gives the state after reset. All but the zero tables are the spec's own decision D26. -/
def Obligations.ResetValues : Prop :=
  (∀ p f, (State.reset.gt.get p).get f = 0) ∧ State.reset.mode = .unattached ∧ State.reset.diagStatusPad = 0 ∧
    State.reset.busy = none ∧ State.reset.cur = none ∧ State.reset.tx = []

/-- R215: a reset of a running block that is not stuck. The results and notifications already given are history (log entry 13).
That a second reset is the same event is the spec's own decision D26. -/
def Obligations.RestartValues : Prop :=
  ∀ (s : State) (rest : List Stimulus), s.busy ≠ some .blocked → s.inbox = .restart :: rest →
    ∃ t, step s = .next t ∧ (∀ p f, (t.gt.get p).get f = 0) ∧ t.mode = .unattached ∧ t.diagStatusPad = 0 ∧ t.cur = none ∧
      t.busy = none ∧ t.tx = s.tx ∧ t.rx = s.rx ∧ t.nvs = s.nvs ∧ t.handleOpen = s.handleOpen ∧ t.results = s.results ∧
      t.notified = s.notified ∧ t.inbox = rest ∧ t.draws = s.draws

/-- R193: the stuck block has no step, takes no operation, and never comes out. That nothing from outside reaches it either, neither
bytes of the device nor a reset at the head of the inbox, is the model's choice (log entries 12 and 13): R215 exempts no block. -/
def Obligations.StuckForEver : Prop :=
  ∀ s : State, s.busy = some .blocked →
    step s = .fault .linkWriteBlocked ∧ (∀ i, exec i s = .fault .linkWriteBlocked) ∧
    ∀ k, Host.Core.run Sys2Proof.core (k + 1) s = .fault .linkWriteBlocked

/-- R200, D32: a second operation has no move while one is in progress (the name of the refusal is the model's, log entry 19). -/
def Obligations.OneOperationAtATime : Prop :=
  ∀ (i : Instr) (s : State) (p : Progress), s.busy = some p → p ≠ .blocked → exec i s = .refused .operationInProgress

/-- R192 `ClosedHandle`: an operation, a frame row or `RESP` that would use the link is refused while the handle is not open, and an
operation in progress at its next link transfer. When the check comes is the model's choice (log entry 10), and so is that a row of
the table is an operation of its own (log entry 4). -/
def Obligations.ClosedHandleIsRefused : Prop :=
  (∀ s : State, s.busy = none → s.handleOpen = false →
    (∀ d c payload, payload.length ≤ Config.maxChunk → (d = .write ∨ payload = []) →
      exec (.writeCommand d c payload) s = .refused .closedHandle) ∧
    (∀ c n, n ≤ Config.maxChunk → exec (.readResponse c n) s = .refused .closedHandle) ∧
    (∀ x0 y0 x1 y1, exec (.setWindow x0 y0 x1 y1) s = .refused .closedHandle) ∧
    (∀ buffer, exec (.streamPixels buffer) s = .refused .closedHandle) ∧
    exec .readStatus s = .refused .closedHandle ∧
    exec .attach s = .refused .closedHandle ∧
    exec .startup s = .refused .closedHandle ∧
    (∀ p, s.mode ≠ .unattached → exec (.push p) s = .refused .closedHandle) ∧
    (∀ p f x, s.mode = .custom → exec (.setField p f x) s = .refused .closedHandle) ∧
    (∀ i : Int, 0 ≤ i → i ≤ 3 → exec (.selectCurve i) s = .refused .closedHandle) ∧
    (∀ c payload, payload.length ≤ Config.maxChunk → exec (.fWrite c payload) s = .refused .closedHandle) ∧
    (∀ c (n : U16), n.toNat ≤ Config.maxChunk → exec (.fRead c n) s = .refused .closedHandle) ∧
    (∀ payload, payload.length ≤ Config.maxChunk → exec (.fCont payload) s = .refused .closedHandle) ∧
    (∀ a b, exec (.fCaset a b) s = .refused .closedHandle) ∧
    (∀ a b, exec (.fRaset a b) s = .refused .closedHandle) ∧
    exec .fRamwr s = .refused .closedHandle ∧
    (∀ i, exec (.fGamset i) s = .refused .closedHandle) ∧
    (∀ image, image.length ≤ Config.maxChunk → exec (.fPvgam image) s = .refused .closedHandle) ∧
    (∀ image, image.length ≤ Config.maxChunk → exec (.fNvgam image) s = .refused .closedHandle) ∧
    exec .fRddst s = .refused .closedHandle ∧
    (∀ answer, answer.length ≤ Config.maxChunk → exec (.resp answer) s = .refused .closedHandle)) ∧
  (∀ (s : State) (p : Progress), s.busy = some p → transferNext p = true → s.handleOpen = false → undisturbed s = true →
    step s = .refused .closedHandle)

/-- A step leaves `TX` as it is, or the handle is open and the step sends one frame that the block may emit: the whole of it, or its
first bytes, and then this very step leaves the block stuck or gives a result that reports the failed write (R20, R34, R36, R82). That a closed handle is refused is the spec's own decision D37; that it is
checked at each later transfer is the model's choice (log entry 10). -/
def Obligations.SendingNeedsTheHandle : Prop :=
  ∀ s t : State, step s = .next t →
    t.tx = s.tx ∨
    (s.handleOpen = true ∧ ∃ (f : Frame) (k : Nat), f.wf = true ∧ t.tx = s.tx ++ f.bytes.take k ∧
      (f.bytes.length ≤ k ∨ t.busy = some .blocked ∨ ∃ r, t.results = s.results ++ [r] ∧ r.linkFailed = true))

/-- R7, R191: the numeric codes of the error kinds in the build the machine runs; 0, "no error", is none of them and is the code of
a part that ended well in every build. The numbers are the spec's own (D4). -/
def Obligations.ErrorCodes : Prop :=
  Config.params.errCode .payloadTooLarge = 1 ∧ Config.params.errCode .shortRead = 2 ∧
    Config.params.errCode .malformedRegister = 3 ∧ Config.params.errCode .fileAccessError = 4 ∧
    Config.params.errCode .transportError = 5 ∧ (∀ kind, Config.params.errCode kind ≠ 0) ∧
    (∀ cfg : Params, Part.code cfg .ok = 0 ∧ ∀ kind, Part.code cfg (.err kind) = cfg.errCode kind)

/-- R194: no choice of the environment is under any law: every outcome may come next, and making the choice changes nothing else. When
none is listed the choice is the free value at the counter. -/
def Obligations.ChoicesAreFree : Prop :=
  ∀ s : State,
    (∀ d, drawWrite { s with draws := { s.draws with writes := d :: s.draws.writes } } = (d, s)) ∧
    (∀ d, drawRead { s with draws := { s.draws with reads := d :: s.draws.reads } } = (d, s)) ∧
    (∀ d, drawNvsRead { s with draws := { s.draws with nvsReads := d :: s.draws.nvsReads } } = (d, s)) ∧
    (∀ d, drawNvsWrite { s with draws := { s.draws with nvsWrites := d :: s.draws.nvsWrites } } = (d, s)) ∧
    (s.draws.writes = [] →
      drawWrite s = (Config.freeWrite s.draws.taken, { s with draws := { s.draws with taken := s.draws.taken + 1 } })) ∧
    (s.draws.reads = [] →
      drawRead s = (Config.freeRead s.draws.taken, { s with draws := { s.draws with taken := s.draws.taken + 1 } })) ∧
    (s.draws.nvsReads = [] →
      drawNvsRead s = (Config.freeNvsRead s.draws.taken, { s with draws := { s.draws with taken := s.draws.taken + 1 } })) ∧
    (s.draws.nvsWrites = [] →
      drawNvsWrite s = (Config.freeNvsWrite s.draws.taken, { s with draws := { s.draws with taken := s.draws.taken + 1 } }))

/-! ### Transport framing -/

/-- R80: `WRITE_COMMAND`, whole: the size check before the refusal before the one blocking write. The refusal is the spec's own
decision D16, the error of a failed write D12. -/
def Obligations.WriteCommand : Prop :=
  ∀ (d : Direction) (c : Byte) (payload : Bytes) (s : State), s.busy = none →
    (Config.maxChunk < payload.length →
      exec (.writeCommand d c payload) s = .next (answered (.err .payloadTooLarge) s)) ∧
    (payload.length ≤ Config.maxChunk → d = .read → payload ≠ [] →
      exec (.writeCommand d c payload) s = .refused .readFrameWithPayload) ∧
    (payload.length ≤ Config.maxChunk → d = .write → s.handleOpen = true →
      exec (.writeCommand d c payload) s = .next (sendingOnly (writeFrame c payload) s)) ∧
    (payload = [] → d = .read → s.handleOpen = true →
      exec (.writeCommand d c payload) s = .next (sendingOnly (readFrame c 0) s))

/-- R81: `READ_RESPONSE`, whole: its first step, and the operation to its end. That the steps are separate is the spec's decision
D2, the error of a failed write D12. -/
def Obligations.ReadResponse : Prop :=
  ∀ (c : Byte) (n : Nat) (s : State), s.busy = none →
    (Config.maxChunk < n →
      exec (.readResponse c n) s = .next (answered (.err .payloadTooLarge) s) ∧
      perform (.readResponse c n) s = .next (answered (.err .payloadTooLarge) s)) ∧
    (n ≤ Config.maxChunk → s.handleOpen = true →
      exec (.readResponse c n) s =
        .next (sending (readFrame c n) s (fun t => { t with busy := some (.respond n .response) })
          (answered (.err .transportError))) ∧
      perform (.readResponse c n) s =
        .next (sending (readFrame c n) s
          (fun t => receiving n t (fun bs => answered (.ok (.bytes bs))) (answered (.err .shortRead)))
          (answered (.err .transportError))))

/-- R83: the size law. R83 is the spec's own inference from R80 and R81. -/
def Obligations.SizeLaw : Prop :=
  (∀ d c payload (s t : State), perform (.writeCommand d c payload) s = .next t → t.results = s.results ++ [Result.ok .none] →
    ∃ bs, t.tx = s.tx ++ bs ∧ bs.length = 4 + payload.length ∧
      ∃ low high, bs[2]? = some low ∧ bs[3]? = some high ∧ low.toNat + 256 * high.toNat = payload.length) ∧
  (∀ c n (s t : State), perform (.readResponse c n) s = .next t →
    (∃ bs, t.results = s.results ++ [Result.ok (.bytes bs)]) ∨ t.results = s.results ++ [Result.err .shortRead] →
    ∃ bs, t.tx = s.tx ++ bs ∧ bs.length = 4) ∧
  (∀ d c payload (s t : State), perform (.writeCommand d c payload) s = .next t →
    t.results = s.results ++ [Result.err .payloadTooLarge] → t.tx = s.tx) ∧
  (∀ c n (s t : State), perform (.readResponse c n) s = .next t →
    t.results = s.results ++ [Result.err .payloadTooLarge] → t.tx = s.tx)

/-! ### Pixels -/

/-- R100: `SET_WINDOW`, whole: columns, then rows; in the build the machine runs the bounds go out as they are, and the other
variant takes 1 off each end bound and refuses an end bound of 0. The bias 0 and the refusal are the spec's own decision D7. -/
def Obligations.SetWindow : Prop :=
  (∀ (x0 y0 x1 y1 : U16) (s : State), s.busy = none → s.handleOpen = true →
    exec (.setWindow x0 y0 x1 y1) s =
      .next (sending (writeFrame Config.cmdCaset (bound x0 ++ bound x1)) s (fun t => { t with busy := some (.rows y0 y1) })
        (answered (.err .transportError))) ∧
    perform (.setWindow x0 y0 x1 y1) s =
      .next (sending (writeFrame Config.cmdCaset (bound x0 ++ bound x1)) s
        (sendingOnly (writeFrame Config.cmdRaset (bound y0 ++ bound y1))) (answered (.err .transportError)))) ∧
  (∀ (cfg : Params) (x0 y0 x1 y1 : U16) (s : State),
    (cfg.windowEndBias = 1 → x1 = 0 ∨ y1 = 0 → beginWindow cfg x0 y0 x1 y1 s = .refused .windowEndUnderflow) ∧
    (cfg.windowEndBias = 0 ∨ x1 ≠ 0 ∧ y1 ≠ 0 → s.handleOpen = true →
      beginWindow cfg x0 y0 x1 y1 s =
        .next (sending
          (writeFrame cfg.cmdCaset (bound x0 ++ bound (BitVec.ofNat 16 (x1.toNat - cfg.windowEndBias.val)))) s
          (fun t => { t with busy := some (.rows y0 (BitVec.ofNat 16 (y1.toNat - cfg.windowEndBias.val))) })
          (answered (.err .transportError)))) ∧
    (∀ ey, s.handleOpen = true →
      resume cfg (.rows y0 ey) s = .next (sendingOnly (writeFrame cfg.cmdRaset (bound y0 ++ bound ey)) s)))

/-- R101: `STREAM_PIXELS`, whole: the memory-write frame, then one continuation frame for each chunk, the cursor before each; the
first write that fails or blocks is the last. The steps, the empty buffer and the end at an error are the spec's own decisions D2,
D25 and D27. -/
def Obligations.StreamPixels : Prop :=
  ∀ (buffer : Bytes) (s : State), s.busy = none → s.handleOpen = true →
    exec (.streamPixels buffer) s =
      .next (sending (writeFrame Config.cmdRamwr []) s
        (fun t =>
          if buffer = [] then answered (.ok .none) t else { t with cur := some 0, busy := some (.chunks buffer) })
        (answered (.err .transportError))) ∧
    perform (.streamPixels buffer) s =
      .next (sending (writeFrame Config.cmdRamwr []) s (streaming buffer (chunkCount buffer.length) 0)
        (answered (.err .transportError)))

/-- R102: the chunk law, for every successful stream, with the source's instance. R102 is the spec's own inference from R101. -/
def Obligations.ChunkLaw : Prop :=
  (∀ (buffer : Bytes) (s t : State), perform (.streamPixels buffer) s = .next t → t.results = s.results ++ [Result.ok .none] →
    t.tx = s.tx ++ framesBytes (streamFrames Config.params buffer)) ∧
  (∀ (cfg : Params) (buffer : Bytes),
    (streamFrames cfg buffer).length = 1 + chunkCount buffer.length ∧
    (framesBytes (streamFrames cfg buffer)).length = 4 + 4 * chunkCount buffer.length + buffer.length ∧
    ((List.range (chunkCount buffer.length)).flatMap (chunkOf buffer)) = buffer ∧
    (∀ j, j + 1 < chunkCount buffer.length → (chunkOf buffer j).length = Config.maxChunk) ∧
    (buffer ≠ [] → (chunkOf buffer (chunkCount buffer.length - 1)).length =
      buffer.length - (chunkCount buffer.length - 1) * Config.maxChunk)) ∧
  chunkCount 115200 = 8 ∧ 115200 - 7 * Config.maxChunk = 512

/-- R103, R104: `PACK_PIXEL`: integers masked to 5, 6 and 5 bits and sent low byte first; a negative channel and the float form
refused, wherever they stand. Nothing else changes. The two refusals are the spec's own decisions D24 and D10; that the first channel
refused, from left to right, names the refusal is the model's choice (log entry 16). -/
def Obligations.PackPixel : Prop :=
  (∀ (r g b : Nat) (s : State), s.busy = none →
    exec (.packPixel (.int r) (.int g) (.int b)) s =
      .next (answered (.ok (.bytes (pixel (r % 32) (g % 64) (b % 32)))) s)) ∧
  (∀ (r g b : Int) (s : State), s.busy = none → r < 0 ∨ g < 0 ∨ b < 0 →
    exec (.packPixel (.int r) (.int g) (.int b)) s = .refused .negativeChannel) ∧
  (∀ (m e : Int) (x y : Nat) (s : State), s.busy = none →
    exec (.packPixel (.float m e) (.int x) (.int y)) s = .refused .floatChannel ∧
    exec (.packPixel (.int x) (.float m e) (.int y)) s = .refused .floatChannel ∧
    exec (.packPixel (.int x) (.int y) (.float m e)) s = .refused .floatChannel) ∧
  (∀ (r g b : Channel) (refusal : Refusal) (s : State), s.busy = none →
    (channelRefusal r).or ((channelRefusal g).or (channelRefusal b)) = some refusal →
    exec (.packPixel r g b) s = .refused refusal)

/-! ### The status codec -/

/-- R125: the length law. -/
def Obligations.StatusLengthLaw : Prop :=
  ∀ (bs : Bytes) (s : State), s.busy = none →
    (bs.length ≠ 5 → exec (.decodeStatus bs) s = .next (answered (.err .malformedRegister) s)) ∧
    (bs.length = 5 → ∃ view flag,
      exec (.decodeStatus bs) s = .next (answered (.ok (.status view)) { s with diagStatusPad := flag }))

/-- R120: `DECODE_STATUS`, whole, in the machine's build and in every other; a build has an admissible layout: each field is the number at
its place in the layout, the pad bit tells whether a reserved bit was 1, and only a length other than 5, or a reserved bit in a
must-be-zero build, is an error. The layout is open (D5), the policy for reserved bits the spec's own decision D6. -/
def Obligations.DecodeStatus : Prop :=
  (∀ (bs : Bytes) (s : State), s.busy = none →
    exec (.decodeStatus bs) s = .next (statusAnswer Config.params bs s)) ∧
  (∀ cfg : Params, admissibleLayout cfg.statusLayout.segments = true) ∧ Config.params.statusPadMbz = false ∧
  (∀ (cfg : Params) (bs : Bytes) (s : State), decodeStatus cfg bs .host s = statusAnswer cfg bs s) ∧
  (∀ (cfg : Params) (bs : Bytes),
    (bs.length ≠ 5 → statusDecode cfg bs = none) ∧
    (bs.length = 5 → ∃ view pad,
      statusDecode cfg bs = (if cfg.statusPadMbz = true ∧ pad = true then none else some (view, pad)) ∧
      (∀ before f w after, cfg.statusLayout.segments = before ++ (some f, w) :: after →
        viewField view f = valueAt bs (layoutWidth before) w) ∧
      (pad = true ↔ ∃ before w after j, cfg.statusLayout.segments = before ++ (none, w) :: after ∧ j < w ∧
        bitAt bs (layoutWidth before + j) = true))) ∧
  (∀ cfg : Params,
    (∃ view, statusDecode cfg [0, 0, 0, 0, 0] = some (view, false) ∧ ∀ f, viewField view f = 0) ∧
    (cfg.statusPadMbz = false → ∃ view, statusDecode cfg [0xFF, 0xFF, 0xFF, 0xFF, 0xFF] = some (view, true) ∧
      viewField view .pixfmt = 7 ∧ viewField view .gamma = 7 ∧ ∀ f ∈ statusFlags, viewField view f = 1))

/-- R121: the reserved bits: never a reason to reject and never in the view, unless the build says must-be-zero; the flag says
what the last successful decode saw and keeps nothing. The policy is the spec's own decision D6. -/
def Obligations.ReservedBits : Prop :=
  (∀ (cfg : Params) (a b : Bytes), cfg.statusPadMbz = false →
    a.length = 5 → b.length = 5 →
    (∀ before f w after, cfg.statusLayout.segments = before ++ (some f, w) :: after →
      ∀ j < w, bitAt a (layoutWidth before + j) = bitAt b (layoutWidth before + j)) →
    ∃ view padA padB, statusDecode cfg a = some (view, padA) ∧ statusDecode cfg b = some (view, padB)) ∧
  (∀ (cfg : Params) (bs : Bytes) (view : StatusView) (pad : Bool) (s : State), statusDecode cfg bs = some (view, pad) →
    (decodeStatus cfg bs .host s).diagStatusPad = (if pad then 1 else 0)) ∧
  (∀ (cfg : Params) (bs : Bytes) (before after : Layout StatusField) (w j : Nat) (s : State),
    cfg.statusPadMbz = true → bs.length = 5 →
    cfg.statusLayout.segments = before ++ (none, w) :: after → j < w → bitAt bs (layoutWidth before + j) = true →
    decodeStatus cfg bs .host s = answered (.err .malformedRegister) s)

/-- R123: `READ_STATUS`, whole: its first step, and the operation to its end. The composite and the length 5 are the spec's own
decision D35. -/
def Obligations.ReadStatus : Prop :=
  ∀ s : State, s.busy = none → s.handleOpen = true →
    exec .readStatus s =
      .next (sending (readFrame Config.cmdRddst 5) s (fun t => { t with busy := some (.respond 5 (.status .host)) })
        (answered (.err .transportError))) ∧
    perform .readStatus s =
      .next (sending (readFrame Config.cmdRddst 5) s
        (fun t => receiving 5 t (statusAnswer Config.params) (answered (.err .shortRead)))
        (answered (.err .transportError)))

/-! ### The gamma codec -/

/-- R135: `GAMMA_DECODE`, byte by byte; any other length is `MalformedRegister`; padding is ignored. -/
def Obligations.GammaDecode : Prop :=
  (∀ (bs : Bytes) (s : State), s.busy = none → exec (.gammaDecode bs) s = .next (answered (tableAnswer bs) s)) ∧
  (∀ bs : Bytes, gammaDecode bs = tableOfBytes bs) ∧
  (∀ bs : Bytes, (tableOfBytes bs).isSome = true ↔ bs.length = 14)

/-- R136: `GAMMA_ENCODE`, byte by byte, each value masked; a negative value is refused. The refusal is the spec's own decision
D24. -/
def Obligations.GammaEncode : Prop :=
  (∀ (table : GammaRecord Int) (s : State), s.busy = none → (∀ f, 0 ≤ recordGet table f) →
    exec (.gammaEncode table) s =
      .next (answered (.ok (.bytes (bytesOfTable fun f => (recordGet table f).toNat))) s)) ∧
  (∀ (table : GammaRecord Int) (f : GammaField) (s : State), s.busy = none → recordGet table f < 0 →
    exec (.gammaEncode table) s = .refused .negativeField) ∧
  (∀ v : GammaField → Nat, gammaEncode v = bytesOfTable v)

/-- R137: the round trip of tables; a value wider than its field comes back reduced. The second clause is the spec's own inference
from R135 and R136. -/
def Obligations.GammaTableRoundTrip : Prop :=
  (∀ t : GammaTable, gammaDecode (gammaEncode t.get) = some t) ∧
  (∀ v : GammaField → Nat, ∃ t, gammaDecode (gammaEncode v) = some t ∧ ∀ f, t.get f = v f % 2 ^ gammaWidth f)

/-- R138: the round trip of images: the padding bits come back 0, the others as they were, so that an image comes back exactly
when its padding is 0; and a load followed by a push writes that image. R138 is the spec's own inference from R135 and R136. -/
def Obligations.GammaImageRoundTrip : Prop :=
  ∀ bs : Bytes, bs.length = 14 → ∃ t, gammaDecode bs = some t ∧
    gammaEncode t.get = List.zipWith (· &&& ·) bs gammaFieldMask ∧
    (gammaEncode t.get = bs ↔ ∀ j < 14, bs.getD j 0 &&& ~~~(gammaFieldMask.getD j 0) = 0) ∧
    ∀ (p : Polarity) (s u : State), s.busy = none → s.nvs.get p = some bs →
      perform (.loadCal p) s = .next u → u.results = s.results ++ [Result.ok .none] →
      ∀ v, perform (.push p) { u with mode := .custom } = .next v → (∃ d, v.results = u.results ++ [Result.push .ok d]) →
        v.nvs.get p = some (List.zipWith (· &&& ·) bs gammaFieldMask)

/-! ### The calibration controller -/

/-- R156: `LOAD_CAL`, whole: its first step, and the operation to its end. That an error leaves the bank as it was is the spec's
own decision D22. -/
def Obligations.LoadCal : Prop :=
  ∀ (p : Polarity) (s : State), s.busy = none →
    (∃ t, exec (.loadCal p) s = .next t ∧ t.gt = s.gt) ∧
    perform (.loadCal p) s = .next (answered (resultOf (loaded p s).1) (loaded p s).2)

/-- R157: `ATTACH`: `READ_STATUS` and, when it gives a view, `MODE` from its `gamma` field, or the refusal of 4 to 7; an error of
the read is the result and leaves `MODE`. The map of `gamma` to a mode and the refusal are the spec's own decision D18. -/
def Obligations.Attach : Prop :=
  ∀ s : State, s.busy = none → s.handleOpen = true →
    exec .attach s =
      .next (sending (readFrame Config.cmdRddst 5) s
        (fun t => { t with busy := some (.respond 5 (.status (.attach .host))) }) (answered (.err .transportError))) ∧
    ∃ u, perform .readStatus s = .next u ∧ u.mode = s.mode ∧
      (u.busy = some .blocked → perform .attach s = .next u) ∧
      (∀ kind, u.results = s.results ++ [Result.err kind] → perform .attach s = .next u) ∧
      (∀ (view : StatusView) (i : Curve), u.results = s.results ++ [Result.ok (.status view)] → view.gamma.toNat = i.val →
        perform .attach s = .next { u with mode := .fixed i, results := s.results ++ [Result.ok .none] }) ∧
      (∀ view : StatusView, u.results = s.results ++ [Result.ok (.status view)] → 3 < view.gamma.toNat →
        perform .attach s = .refused .attachGammaOutOfRange)

/-- R158: `SET_FIELD`, whole: refused before attach; else the clamped value is stored and notified, every other register stays,
and in `Custom` mode the push follows. The refusal, and a fixed mode's silence, are the spec's own decisions D17 and D20. -/
def Obligations.SetField : Prop :=
  (∀ (p : Polarity) (f : GammaField) (x : Int) (s : State), s.busy = none →
    (s.mode = .unattached → exec (.setField p f x) s = .refused .modeUnattached) ∧
    (∀ i, s.mode = .fixed i → exec (.setField p f x) s = .next (answered (.ok .none) (fieldStored p f x s))) ∧
    (s.mode = .custom → s.handleOpen = true →
      exec (.setField p f x) s = .next { fieldStored p f x s with busy := some (.pushFile p) } ∧
      perform (.setField p f x) s = perform (.push p) (fieldStored p f x s))) ∧
  (∀ (p q : Polarity) (f g : GammaField) (x : Int) (s : State),
    ((fieldStored p f x s).gt.get q).get g = if q = p ∧ g = f then clamped f x else (s.gt.get q).get g)

/-- R159, R165: `PUSH`, whole: refused before attach; in a fixed mode the curve frame alone; in `Custom` mode the file, then the
device, both statuses reported. The refusal and the pair are the spec's own decisions D17 and D21. -/
def Obligations.Push : Prop :=
  ∀ (p : Polarity) (s : State), s.busy = none →
    (s.mode = .unattached → exec (.push p) s = .refused .modeUnattached) ∧
    (∀ i, s.mode = .fixed i → s.handleOpen = true →
      exec (.push p) s =
        .next (sending (writeFrame Config.cmdGamset [oneHotByte i]) s (answered (.push .notTouched .ok))
          (answered (.push .notTouched (.err .transportError))))) ∧
    (s.mode = .custom → s.handleOpen = true →
      exec (.push p) s =
        .next (storing p (bytesOfTable (s.gt.get p).get) s fun file t =>
          { t with busy := some (.pushDevice p (bytesOfTable (s.gt.get p).get) file) }) ∧
      perform (.push p) s =
        .next (storing p (bytesOfTable (s.gt.get p).get) s fun file t =>
          sending (writeFrame (gammaCommand Config.params p) (bytesOfTable (s.gt.get p).get)) t
            (answered (.push file .ok)) (answered (.push file (.err .transportError)))))

/-- R160: `SELECT_CURVE`, whole: an index outside 0 to 3 is refused with nothing written; else `MODE` first, then the frame, whose
failure does not undo it. The refusal and the order are the spec's own decision D31. -/
def Obligations.SelectCurve : Prop :=
  (∀ (z : Int) (s : State), s.busy = none → z < 0 ∨ 3 < z →
    exec (.selectCurve z) s = .refused .curveIndexOutOfRange) ∧
  (∀ (i : Curve) (s : State), s.busy = none → s.handleOpen = true →
    exec (.selectCurve i.val) s = .next { s with mode := .fixed i, busy := some (.curve i) } ∧
    perform (.selectCurve i.val) s =
      .next (sendingOnly (writeFrame Config.cmdGamset [oneHotByte i]) { s with mode := .fixed i }))

/-- R161: `ENTER_CUSTOM`, whole: `MODE`, in every mode, and no I/O. That entry does no I/O is the spec's own decision D19. -/
def Obligations.EnterCustom : Prop :=
  ∀ s : State, s.busy = none → exec .enterCustom s = .next (answered (.ok .none) { s with mode := .custom })

/-- R163: `STARTUP`: both loads and the attach run, whatever the earlier ones reported, and the result is the triple; a refusal of
the attach is one of the whole. The order is the spec's own decision D23. -/
def Obligations.Startup : Prop :=
  ∀ s : State, s.busy = none → s.handleOpen = true →
    (∃ t, exec .startup s = .next t ∧ t.tx = s.tx ∧ t.mode = s.mode) ∧
    (∀ u, perform .attach (loaded .negative (loaded .positive s).2).2 = .next u → u.busy = some .blocked →
      perform .startup s = .next u) ∧
    (∀ u part, perform .attach (loaded .negative (loaded .positive s).2).2 = .next u →
      u.results = s.results ++ [resultOf part] →
      perform .startup s =
        .next { u with
          results := s.results ++ [Result.startup (loaded .positive s).1 (loaded .negative (loaded .positive s).2).1 part] }) ∧
    (∀ r, perform .attach (loaded .negative (loaded .positive s).2).2 = .refused r → perform .startup s = .refused r)

/-- R14, R164: an operation on one polarity does to the rest of the state the same whatever the other bank and the other file hold,
and leaves both as they are. -/
def Obligations.PolaritiesAreIndependent : Prop :=
  ∀ (i : Instr) (p q : Polarity) (table : GammaTable) (file : Option Bytes) (s : State), q ≠ p → actsOn p i = true →
    perform i (withBank q table file s) = mapNext (withBank q table file) (perform i s)

/-- R3, R217 (4): the rows of TF, PX, SRC and GRC read nothing the Calibration Controller keeps, and write none of it. -/
def Obligations.CoreReadsNoCalibration : Prop :=
  ∀ (i : Instr) (gt : Banks GammaTable) (mode : Mode) (nvs : Banks (Option Bytes)) (s : State),
    outsideCalibration i = true →
    perform i (withCalibration gt mode nvs s) = mapNext (withCalibration gt mode nvs) (perform i s)

/-- R15, R162: what a step does to `MODE`: nothing, or what `ATTACH`, `SELECT_CURVE`, `ENTER_CUSTOM` or a reset say. -/
def Obligations.WritersOfMode : Prop :=
  ∀ s t : State, step s = .next t →
    t.mode = s.mode ∨
    (t.mode = .unattached ∧ ∃ rest, s.inbox = .restart :: rest) ∨
    (∃ gamma whom, ∃ i : Curve, s.busy = some (.derive gamma whom) ∧ gamma.toNat = i.val ∧ t.mode = .fixed i) ∨
    (∃ format bs rest, s.busy = none ∧ s.inbox = .request format bs :: rest ∧
      ((∃ i : Curve, decode Config.params format bs = .ok (.selectCurve i.val) ∧ t.mode = .fixed i) ∨
       (decode Config.params format bs = .ok .enterCustom ∧ t.mode = .custom)))

/-- R13: what a step does to a register of `GT`: nothing, or what `LOAD_CAL`, `SET_FIELD` or a reset say. -/
def Obligations.WritersOfGamma : Prop :=
  ∀ (s t : State) (p : Polarity) (f : GammaField), step s = .next t →
    (t.gt.get p).get f = (s.gt.get p).get f ∨
    ((t.gt.get p).get f = 0 ∧ ∃ rest, s.inbox = .restart :: rest) ∨
    ((t.gt.get p).get f = 0 ∧ ∃ whom, s.busy = some (.fill p none whom)) ∨
    (∃ bs whom table, s.busy = some (.fill p (some bs) whom) ∧ tableOfBytes bs = some table ∧
      (t.gt.get p).get f = table.get f) ∨
    (∃ format bs rest x, s.busy = none ∧ s.inbox = .request format bs :: rest ∧
      decode Config.params format bs = .ok (.setField p f x) ∧ s.mode ≠ .unattached ∧
      (t.gt.get p).get f = clamped f x)

/-- R17: what a step does to `DIAG_STATUS_PAD`: nothing, or what a successful status decode or a reset say. -/
def Obligations.WritersOfStatusPad : Prop :=
  ∀ s t : State, step s = .next t →
    t.diagStatusPad = s.diagStatusPad ∨
    (t.diagStatusPad = 0 ∧ ∃ rest, s.inbox = .restart :: rest) ∨
    (∃ image view pad, statusDecode Config.params image = some (view, pad) ∧ t.diagStatusPad = (if pad then 1 else 0) ∧
      ((∃ whom, s.busy = some (.decode image whom)) ∨
       (∃ format bs rest, s.busy = none ∧ s.inbox = .request format bs :: rest ∧
         (decode Config.params format bs = .ok (.decodeStatus image) ∨
          decode Config.params format bs = .ok (.img40 image)))))

/-- R41, R155, R159: a step changes a file in `Custom` mode only, and only as the file part of a push of its polarity. -/
def Obligations.WritersOfTheStore : Prop :=
  ∀ (s t : State) (p : Polarity), Consistent s → step s = .next t →
    t.nvs.get p = s.nvs.get p ∨
    (s.mode = .custom ∧ ∃ file, t.busy = some (.pushDevice p (bytesOfTable (s.gt.get p).get) file) ∧
      (file = .ok → t.nvs.get p = some (bytesOfTable (s.gt.get p).get)))

/-! ### The frame rows and the payload rows -/

/-- R65: what each frame row puts on the link, in one blocking write; an over-long one is `PayloadTooLarge` with no I/O. That a frame
row is an operation of its own is the model's choice (log entry 4), and so is that a gamma-register row sends any 14 bytes as they
are, with nonzero padding bits too (log entry 28). -/
def Obligations.FrameRows : Prop :=
  ∀ s : State, s.busy = none →
    (s.handleOpen = true →
      (∀ c payload, payload.length ≤ Config.maxChunk →
        exec (.fWrite c payload) s = .next (sendingOnly (writeFrame c payload) s)) ∧
      (∀ c (n : U16), n.toNat ≤ Config.maxChunk → exec (.fRead c n) s = .next (sendingOnly (readFrame c n.toNat) s)) ∧
      (∀ payload, payload.length ≤ Config.maxChunk →
        exec (.fCont payload) s = .next (sendingOnly (writeFrame 0 payload) s)) ∧
      (∀ a b, exec (.fCaset a b) s = .next (sendingOnly ([0, Config.cmdCaset, 4, 0] ++ bound a ++ bound b) s)) ∧
      (∀ a b, exec (.fRaset a b) s = .next (sendingOnly ([0, Config.cmdRaset, 4, 0] ++ bound a ++ bound b) s)) ∧
      exec .fRamwr s = .next (sendingOnly [0, Config.cmdRamwr, 0, 0] s) ∧
      (∀ i, exec (.fGamset i) s = .next (sendingOnly [0, Config.cmdGamset, 1, 0, oneHotByte i] s)) ∧
      (∀ image, image.length = 14 →
        exec (.fPvgam image) s = .next (sendingOnly ([0, Config.cmdPvgam, 14, 0] ++ image) s)) ∧
      (∀ image, image.length = 14 →
        exec (.fNvgam image) s = .next (sendingOnly ([0, Config.cmdNvgam, 14, 0] ++ image) s)) ∧
      exec .fRddst s = .next (sendingOnly [1, Config.cmdRddst, 5, 0] s)) ∧
    (∀ c payload, Config.maxChunk < payload.length →
      exec (.fWrite c payload) s = .next (answered (.err .payloadTooLarge) s)) ∧
    (∀ c (n : U16), Config.maxChunk < n.toNat →
      exec (.fRead c n) s = .next (answered (.err .payloadTooLarge) s)) ∧
    (∀ payload, Config.maxChunk < payload.length →
      exec (.fCont payload) s = .next (answered (.err .payloadTooLarge) s))

/-- R50, R56 to R61, R64: what each payload row forms, or how it is received. That such a row is an operation of its own is the
model's choice (log entry 4). -/
def Obligations.PayloadRows : Prop :=
  ∀ s : State, s.busy = none →
    (∀ a b, exec (.win a b) s = .next (answered (.ok (.bytes (bound a ++ bound b))) s)) ∧
    (∀ (r : BitVec Config.redBits) (g : BitVec Config.greenBits) (b : BitVec Config.blueBits),
      exec (.pix16 r g b) s = .next (answered (.ok (.bytes (pixel r.toNat g.toNat b.toNat))) s)) ∧
    exec .onehot0 s = .next (answered (.ok (.bytes [0x01])) s) ∧
    exec .onehot1 s = .next (answered (.ok (.bytes [0x02])) s) ∧
    exec .onehot2 s = .next (answered (.ok (.bytes [0x04])) s) ∧
    exec .onehot3 s = .next (answered (.ok (.bytes [0x08])) s) ∧
    (∀ bs, exec (.chunk bs) s = .next (answered (.ok (.bytes bs)) s)) ∧
    (∀ image, exec (.img112 image) s = .next (answered (tableAnswer image) s)) ∧
    (∀ image, exec (.img40 image) s = .next (statusAnswer Config.params image s)) ∧
    (∀ answer, answer.length ≤ Config.maxChunk → s.handleOpen = true →
      exec (.resp answer) s =
        .next (receiving answer.length { s with rx := s.rx ++ answer } (fun bs => answered (.ok (.bytes bs)))
          (answered (.err .shortRead)))) ∧
    (∀ answer, Config.maxChunk < answer.length →
      exec (.resp answer) s = .next (answered (.err .payloadTooLarge) s))

/-! ### Host-operation selectors -/

/-- R7, R70: the selectors of the build the machine runs are those of D3, which a build may bind otherwise: distinct selectors each
select their operation, and a byte bound to none selects nothing. The numbers are the spec's own decision D3. -/
def Obligations.Selectors : Prop :=
  (hostOps.map Config.params.opIndex = (List.range 16).map fun k => BitVec.ofNat 8 (k + 1)) ∧
  (∀ op : HostOp, op ∈ hostOps) ∧
  (∀ (cfg : Params) (op : HostOp) (bs : Bytes), cfg.opDistinct = true →
    decode cfg .hostop (cfg.opIndex op :: bs) = (getOperands op bs).map Prod.fst) ∧
  (∀ (cfg : Params) (b : Byte) (bs : Bytes), (∀ op, cfg.opIndex op ≠ b) →
    decode cfg .hostop (b :: bs) = .error .unknownHostOp) ∧
  (∀ (b : Byte) (bs : Bytes), b = 0 ∨ 0x10 < b.toNat → decode Config.params .hostop (b :: bs) = .error .unknownHostOp)

end
end

