-- ==== Sys2Proof/Laws/Bits.lean ====
section
/-! SUPPORT. Lemmas of Sys2Proof/Machine/Bits.lean: a number and its bits, bytes and their bits, the 16-bit byte orders, mask and clamp,
and what `Unpack` gives of what `Pack` made. -/

namespace Sys2Proof.Machine

/-! ### Mask and clamp -/

theorem lo_lt (w x : Nat) : lo w x < 2 ^ w := Nat.mod_lt _ (Nat.two_pow_pos w)

theorem lo_of_lt {w x : Nat} (h : x < 2 ^ w) : lo w x = x := Nat.mod_eq_of_lt h

theorem clamp_lt (w : Nat) (x : Int) : clamp w x < 2 ^ w := by
  have := Nat.two_pow_pos w
  unfold clamp
  split
  · exact this
  · split
    · omega
    · have : ((2 ^ w : Nat) : Int) = 2 ^ w := by push_cast; rfl
      omega

/-! ### A number and its bits -/

@[simp] theorem natOfBits_nil : natOfBits [] = 0 := rfl

theorem foldl_bits (bits : List Bool) (v : Nat) :
    bits.foldl (fun v b => 2 * v + b.toNat) v = v * 2 ^ bits.length + natOfBits bits := by
  induction bits generalizing v with
  | nil => simp
  | cons b bits ih =>
    simp only [List.foldl_cons, List.length_cons, natOfBits]
    rw [ih, ih (2 * 0 + b.toNat)]
    ring

theorem natOfBits_cons (b : Bool) (bits : List Bool) :
    natOfBits (b :: bits) = b.toNat * 2 ^ bits.length + natOfBits bits := by
  have := foldl_bits bits (2 * 0 + b.toNat)
  simpa [natOfBits] using this

theorem natOfBits_lt (bits : List Bool) : natOfBits bits < 2 ^ bits.length := by
  induction bits with
  | nil => simp
  | cons b bits ih =>
    rw [natOfBits_cons, List.length_cons, pow_succ]
    cases b <;> simp <;> omega

@[simp] theorem bitsOfNat_length (w v : Nat) : (bitsOfNat w v).length = w := by
  induction w with
  | zero => rfl
  | succ w ih => simp [bitsOfNat, ih]

theorem natOfBits_bitsOfNat (w v : Nat) : natOfBits (bitsOfNat w v) = v % 2 ^ w := by
  induction w with
  | zero => simp [bitsOfNat, Nat.mod_one]
  | succ w ih =>
    rw [bitsOfNat, natOfBits_cons, ih, bitsOfNat_length, Nat.testBit_eq_decide_div_mod_eq, pow_succ, Nat.mod_mul]
    rcases Nat.mod_two_eq_zero_or_one (v / 2 ^ w) with h | h
    · simp [h]
    · simp [h]; omega

theorem bitsOfNat_zero (w : Nat) : bitsOfNat w 0 = List.replicate w false := by
  induction w with
  | zero => rfl
  | succ w ih => simp [bitsOfNat, ih, List.replicate_succ]

theorem testBit_natOfBits_cons_length (b : Bool) (bits : List Bool) :
    (natOfBits (b :: bits)).testBit bits.length = b := by
  rw [natOfBits_cons, Nat.testBit_eq_decide_div_mod_eq]
  have h := natOfBits_lt bits
  rw [Nat.add_comm, Nat.add_mul_div_right _ _ (Nat.two_pow_pos _), Nat.div_eq_of_lt h]
  cases b <;> simp

theorem bitsOfNat_add_mul (w v k : Nat) : bitsOfNat w (k * 2 ^ w + v) = bitsOfNat w v := by
  induction w generalizing k with
  | zero => rfl
  | succ w ih =>
    have e : k * 2 ^ (w + 1) = (2 * k) * 2 ^ w := by rw [pow_succ]; ring
    rw [bitsOfNat, bitsOfNat, e, ih]
    congr 1
    rw [Nat.testBit_eq_decide_div_mod_eq, Nat.testBit_eq_decide_div_mod_eq, Nat.add_comm,
      Nat.add_mul_div_right _ _ (Nat.two_pow_pos _)]
    congr 2
    omega

theorem bitsOfNat_natOfBits (bits : List Bool) : bitsOfNat bits.length (natOfBits bits) = bits := by
  induction bits with
  | nil => rfl
  | cons b bits ih =>
    rw [List.length_cons, bitsOfNat, testBit_natOfBits_cons_length, natOfBits_cons, bitsOfNat_add_mul, ih]

/-! ### Bytes and their bits -/

@[simp] theorem bitsOfByte_length (b : Byte) : (bitsOfByte b).length = 8 := rfl

theorem bitsOfByte_eq (b : Byte) : bitsOfByte b = bitsOfNat 8 b.toNat := rfl

theorem bitsOfBytes_cons (b : Byte) (bs : Bytes) : bitsOfBytes (b :: bs) = bitsOfByte b ++ bitsOfBytes bs := rfl

@[simp] theorem bitsOfBytes_length (bs : Bytes) : (bitsOfBytes bs).length = 8 * bs.length := by
  induction bs with
  | nil => rfl
  | cons b bs ih => rw [bitsOfBytes_cons, List.length_append, ih, bitsOfByte_length, List.length_cons]; omega

theorem natOfBits_bitsOfByte (b : Byte) : natOfBits (bitsOfByte b) = b.toNat := by
  rw [bitsOfByte_eq, natOfBits_bitsOfNat]
  exact Nat.mod_eq_of_lt b.isLt

theorem bytesOfBits_append (b : Byte) (bits : List Bool) :
    bytesOfBits (bitsOfByte b ++ bits) = b :: bytesOfBits bits := by
  have h := natOfBits_bitsOfByte b
  simp only [bitsOfByte] at h
  simp only [bitsOfByte, List.cons_append, List.nil_append, bytesOfBits, h]
  congr 1
  exact BitVec.ofNat_toNat 8 b |>.trans (BitVec.setWidth_eq b)

theorem bytesOfBits_bitsOfBytes (bs : Bytes) : bytesOfBits (bitsOfBytes bs) = bs := by
  induction bs with
  | nil => rfl
  | cons b bs ih => rw [bitsOfBytes_cons, bytesOfBits_append, ih]

theorem bitsOfByte_ofBits (b7 b6 b5 b4 b3 b2 b1 b0 : Bool) :
    bitsOfByte (BitVec.ofNat 8 (natOfBits [b7, b6, b5, b4, b3, b2, b1, b0])) = [b7, b6, b5, b4, b3, b2, b1, b0] := by
  revert b7 b6 b5 b4 b3 b2 b1 b0
  decide

theorem bitsOfBytes_bytesOfBits (n : Nat) (bits : List Bool) (h : bits.length = 8 * n) :
    bitsOfBytes (bytesOfBits bits) = bits := by
  induction n generalizing bits with
  | zero => rw [List.eq_nil_of_length_eq_zero (by omega : bits.length = 0)]; rfl
  | succ n ih =>
    match bits, h with
    | b7 :: b6 :: b5 :: b4 :: b3 :: b2 :: b1 :: b0 :: rest, h =>
      have hr : rest.length = 8 * n := by simp only [List.length_cons] at h; omega
      rw [bytesOfBits, bitsOfBytes_cons, bitsOfByte_ofBits, ih rest hr]
      rfl

theorem bytesOfBits_length (n : Nat) (bits : List Bool) (h : bits.length = 8 * n) : (bytesOfBits bits).length = n := by
  have := congrArg List.length (bitsOfBytes_bytesOfBits n bits h)
  rw [bitsOfBytes_length] at this
  omega

/-! ### Byte orders -/

theorem fromLe16_le16 {n : Nat} (h : n < 65536) : ∃ l g, le16 n = [l, g] ∧ fromLe16 l g = n :=
  ⟨_, _, rfl, by simp only [fromLe16, BitVec.toNat_ofNat]; omega⟩

theorem fromBe16_be16 {n : Nat} (h : n < 65536) : ∃ g l, be16 n = [g, l] ∧ fromBe16 g l = n :=
  ⟨_, _, rfl, by simp only [fromBe16, BitVec.toNat_ofNat]; omega⟩

@[simp] theorem le16_length (n : Nat) : (le16 n).length = 2 := rfl

@[simp] theorem be16_length (n : Nat) : (be16 n).length = 2 := rfl

/-- A pixel as a sum (R58): red counts 2048, green 32. -/
theorem pixelValue_eq (r g b : Nat) : pixelValue r g b = r * 2048 + g * 32 + b := by
  simp only [pixelValue, Nat.shiftLeft_eq]
  norm_num [Config.greenBits, Config.blueBits]

theorem oneHot_injective {i j : Curve} (h : oneHot i = oneHot j) : i = j := by
  revert i j; decide

/-! ### Unpack and Pack -/

@[simp] theorem layoutWidth_nil {ν : Type} : layoutWidth ([] : Layout ν) = 0 := rfl

@[simp] theorem layoutWidth_cons {ν : Type} (x : Option ν × Nat) (l : Layout ν) :
    layoutWidth (x :: l) = x.2 + layoutWidth l := rfl

/-- The bits `Pack` lays out before it puts them into bytes (R63). -/
def packedBits {ν : Type} (layout : Layout ν) (values : ν → Nat) : List Bool :=
  layout.flatMap fun (name, w) =>
    match name with
    | none => bitsOfNat w 0
    | some f => bitsOfNat w (lo w (values f))

theorem pack_eq {ν : Type} (layout : Layout ν) (values : ν → Nat) :
    pack layout values = bytesOfBits (packedBits layout values) := rfl

theorem packedBits_length {ν : Type} (layout : Layout ν) (values : ν → Nat) :
    (packedBits layout values).length = layoutWidth layout := by
  induction layout with
  | nil => rfl
  | cons x l ih =>
    obtain ⟨name, w⟩ := x
    have : packedBits ((name, w) :: l) values =
      (match name with | none => bitsOfNat w 0 | some f => bitsOfNat w (lo w (values f))) ++ packedBits l values := rfl
    rw [this, List.length_append, ih]
    cases name <;> simp

/-- What `Unpack`'s loop gives of what `Pack` laid out: every named field masked to its width, and no pad bit 1. -/
theorem unpackBits_packedBits {ν : Type} (layout : Layout ν) (values : ν → Nat) :
    unpackBits layout (packedBits layout values) =
      ((namedSegments layout).map fun s => (s.1, values s.1 % 2 ^ s.2), false) := by
  induction layout with
  | nil => rfl
  | cons x l ih =>
    obtain ⟨name, w⟩ := x
    cases name with
    | none =>
      have e : packedBits ((none, w) :: l) values = bitsOfNat w 0 ++ packedBits l values := rfl
      have hd : (bitsOfNat w 0 ++ packedBits l values).drop w = packedBits l values :=
        List.drop_left' (bitsOfNat_length w 0)
      have ht : (bitsOfNat w 0 ++ packedBits l values).take w = bitsOfNat w 0 :=
        List.take_left' (bitsOfNat_length w 0)
      have hn : namedSegments ((none, w) :: l) = namedSegments l := rfl
      rw [e, hn, unpackBits]
      simp only [hd, ht, ih, natOfBits_bitsOfNat, Nat.zero_mod]
      rfl
    | some f =>
      have e : packedBits ((some f, w) :: l) values = bitsOfNat w (lo w (values f)) ++ packedBits l values := rfl
      have hd : (bitsOfNat w (lo w (values f)) ++ packedBits l values).drop w = packedBits l values :=
        List.drop_left' (bitsOfNat_length w _)
      have ht : (bitsOfNat w (lo w (values f)) ++ packedBits l values).take w = bitsOfNat w (lo w (values f)) :=
        List.take_left' (bitsOfNat_length w _)
      have hn : namedSegments ((some f, w) :: l) = (f, w) :: namedSegments l := rfl
      rw [e, hn, unpackBits]
      simp only [hd, ht, ih, natOfBits_bitsOfNat, List.map_cons]
      simp only [lo, Nat.mod_mod]

end Sys2Proof.Machine
end

