-- ==== Sys2Proof/Laws/State.lean ====
section
/-! SUPPORT. What each field of the state is after each named update of it, true by unfolding the update once; the registers of a
gamma table and of a pair of banks read after written. No later proof unfolds an update. -/

namespace Sys2Proof.Machine

/-! ### Banks -/

@[simp] theorem Banks.get_set_self {α : Type} (b : Banks α) (p : Polarity) (x : α) : (b.set p x).get p = x := by
  simp [Banks.get, Banks.set]

theorem Banks.get_set_of_ne {α : Type} (b : Banks α) {p q : Polarity} (x : α) (h : q ≠ p) : (b.set p x).get q = b.get q := by
  cases p <;> cases q <;> first | exact absurd rfl h | simp [Banks.get, Banks.set, Polarity.index]

theorem Banks.ext_get {α : Type} {a b : Banks α} (h : ∀ p, a.get p = b.get p) : a = b := by
  obtain ⟨a⟩ := a
  obtain ⟨b⟩ := b
  congr 1
  ext i hi
  match i, hi with
  | 0, _ => exact h .positive
  | 1, _ => exact h .negative

@[simp] theorem Banks.set_get {α : Type} (b : Banks α) (p : Polarity) : b.set p (b.get p) = b := by
  refine Banks.ext_get fun q => ?_
  by_cases h : q = p
  · subst h; exact Banks.get_set_self b q _
  · exact Banks.get_set_of_ne b _ h

@[simp] theorem Banks.get_of_positive {α : Type} (x y : α) : (Banks.of x y).get .positive = x := rfl

@[simp] theorem Banks.get_of_negative {α : Type} (x y : α) : (Banks.of x y).get .negative = y := rfl

@[simp] theorem Banks.get_all {α : Type} (x : α) (p : Polarity) : (Banks.all x).get p = x := by
  simp [Banks.get, Banks.all]

/-! ### The registers of a gamma table -/

theorem GammaTable.get_lt (t : GammaTable) (f : GammaField) : t.get f < 2 ^ gammaWidth f := by
  cases f <;> exact BitVec.isLt _

theorem GammaTable.get_set_self (t : GammaTable) (f : GammaField) (n : Nat) : (t.set f n).get f = n % 2 ^ gammaWidth f := by
  cases f <;> exact BitVec.toNat_ofNat _ _

theorem GammaTable.get_set_of_ne (t : GammaTable) {f g : GammaField} (n : Nat) (h : g ≠ f) : (t.set f n).get g = t.get g := by
  cases f <;> cases g <;> first | rfl | exact absurd rfl h

theorem GammaTable.ext_get {t u : GammaTable} (h : ∀ f, t.get f = u.get f) : t = u := by
  cases t; cases u
  simp only [GammaTable.mk.injEq]
  exact ⟨BitVec.eq_of_toNat_eq (h .v63), BitVec.eq_of_toNat_eq (h .v0), BitVec.eq_of_toNat_eq (h .v1),
    BitVec.eq_of_toNat_eq (h .v2), BitVec.eq_of_toNat_eq (h .v4), BitVec.eq_of_toNat_eq (h .v6),
    BitVec.eq_of_toNat_eq (h .j0), BitVec.eq_of_toNat_eq (h .v13), BitVec.eq_of_toNat_eq (h .v20),
    BitVec.eq_of_toNat_eq (h .v36), BitVec.eq_of_toNat_eq (h .v27), BitVec.eq_of_toNat_eq (h .v43),
    BitVec.eq_of_toNat_eq (h .j1), BitVec.eq_of_toNat_eq (h .v50), BitVec.eq_of_toNat_eq (h .v57),
    BitVec.eq_of_toNat_eq (h .v59), BitVec.eq_of_toNat_eq (h .v61), BitVec.eq_of_toNat_eq (h .v62)⟩

theorem GammaTable.get_ofValues (v : GammaField → Nat) (f : GammaField) :
    (GammaTable.ofValues v).get f = v f % 2 ^ gammaWidth f := by
  cases f <;> exact BitVec.toNat_ofNat _ _

@[simp] theorem GammaTable.get_zero (f : GammaField) : GammaTable.zero.get f = 0 := by
  cases f <;> rfl

/-! ### The fields of the state after each update -/

@[simp] theorem finish_gt (r : Result) (s : State) : (finish r s).gt = s.gt := rfl

@[simp] theorem finish_mode (r : Result) (s : State) : (finish r s).mode = s.mode := rfl

@[simp] theorem finish_diagStatusPad (r : Result) (s : State) : (finish r s).diagStatusPad = s.diagStatusPad := rfl

@[simp] theorem finish_cur (r : Result) (s : State) : (finish r s).cur = none := rfl

@[simp] theorem finish_tx (r : Result) (s : State) : (finish r s).tx = s.tx := rfl

@[simp] theorem finish_rx (r : Result) (s : State) : (finish r s).rx = s.rx := rfl

@[simp] theorem finish_nvs (r : Result) (s : State) : (finish r s).nvs = s.nvs := rfl

@[simp] theorem finish_handleOpen (r : Result) (s : State) : (finish r s).handleOpen = s.handleOpen := rfl

@[simp] theorem finish_busy (r : Result) (s : State) : (finish r s).busy = none := rfl

@[simp] theorem finish_results (r : Result) (s : State) : (finish r s).results = s.results ++ [r] := rfl

@[simp] theorem finish_notified (r : Result) (s : State) : (finish r s).notified = s.notified := rfl

@[simp] theorem finish_inbox (r : Result) (s : State) : (finish r s).inbox = s.inbox := rfl

@[simp] theorem finish_draws (r : Result) (s : State) : (finish r s).draws = s.draws := rfl


@[simp] theorem raise_gt (kind : ErrKind) (s : State) : (raise kind s).gt = s.gt := rfl

@[simp] theorem raise_mode (kind : ErrKind) (s : State) : (raise kind s).mode = s.mode := rfl

@[simp] theorem raise_diagStatusPad (kind : ErrKind) (s : State) : (raise kind s).diagStatusPad = s.diagStatusPad := rfl

@[simp] theorem raise_cur (kind : ErrKind) (s : State) : (raise kind s).cur = none := rfl

@[simp] theorem raise_tx (kind : ErrKind) (s : State) : (raise kind s).tx = s.tx := rfl

@[simp] theorem raise_rx (kind : ErrKind) (s : State) : (raise kind s).rx = s.rx := rfl

@[simp] theorem raise_nvs (kind : ErrKind) (s : State) : (raise kind s).nvs = s.nvs := rfl

@[simp] theorem raise_handleOpen (kind : ErrKind) (s : State) : (raise kind s).handleOpen = s.handleOpen := rfl

@[simp] theorem raise_busy (kind : ErrKind) (s : State) : (raise kind s).busy = none := rfl

@[simp] theorem raise_results (kind : ErrKind) (s : State) : (raise kind s).results = s.results ++ [.err kind] := rfl

@[simp] theorem raise_notified (kind : ErrKind) (s : State) : (raise kind s).notified = s.notified := rfl

@[simp] theorem raise_inbox (kind : ErrKind) (s : State) : (raise kind s).inbox = s.inbox := rfl

@[simp] theorem raise_draws (kind : ErrKind) (s : State) : (raise kind s).draws = s.draws := rfl


@[simp] theorem succeed_gt (s : State) : (succeed s).gt = s.gt := rfl

@[simp] theorem succeed_mode (s : State) : (succeed s).mode = s.mode := rfl

@[simp] theorem succeed_diagStatusPad (s : State) : (succeed s).diagStatusPad = s.diagStatusPad := rfl

@[simp] theorem succeed_cur (s : State) : (succeed s).cur = none := rfl

@[simp] theorem succeed_tx (s : State) : (succeed s).tx = s.tx := rfl

@[simp] theorem succeed_rx (s : State) : (succeed s).rx = s.rx := rfl

@[simp] theorem succeed_nvs (s : State) : (succeed s).nvs = s.nvs := rfl

@[simp] theorem succeed_handleOpen (s : State) : (succeed s).handleOpen = s.handleOpen := rfl

@[simp] theorem succeed_busy (s : State) : (succeed s).busy = none := rfl

@[simp] theorem succeed_results (s : State) : (succeed s).results = s.results ++ [.ok .none] := rfl

@[simp] theorem succeed_notified (s : State) : (succeed s).notified = s.notified := rfl

@[simp] theorem succeed_inbox (s : State) : (succeed s).inbox = s.inbox := rfl

@[simp] theorem succeed_draws (s : State) : (succeed s).draws = s.draws := rfl


@[simp] theorem notify_gt (p : Polarity) (s : State) : (notify p s).gt = s.gt := rfl

@[simp] theorem notify_mode (p : Polarity) (s : State) : (notify p s).mode = s.mode := rfl

@[simp] theorem notify_diagStatusPad (p : Polarity) (s : State) : (notify p s).diagStatusPad = s.diagStatusPad := rfl

@[simp] theorem notify_cur (p : Polarity) (s : State) : (notify p s).cur = s.cur := rfl

@[simp] theorem notify_tx (p : Polarity) (s : State) : (notify p s).tx = s.tx := rfl

@[simp] theorem notify_rx (p : Polarity) (s : State) : (notify p s).rx = s.rx := rfl

@[simp] theorem notify_nvs (p : Polarity) (s : State) : (notify p s).nvs = s.nvs := rfl

@[simp] theorem notify_handleOpen (p : Polarity) (s : State) : (notify p s).handleOpen = s.handleOpen := rfl

@[simp] theorem notify_busy (p : Polarity) (s : State) : (notify p s).busy = s.busy := rfl

@[simp] theorem notify_results (p : Polarity) (s : State) : (notify p s).results = s.results := rfl

@[simp] theorem notify_notified (p : Polarity) (s : State) : (notify p s).notified = s.notified ++ [p] := rfl

@[simp] theorem notify_inbox (p : Polarity) (s : State) : (notify p s).inbox = s.inbox := rfl

@[simp] theorem notify_draws (p : Polarity) (s : State) : (notify p s).draws = s.draws := rfl


@[simp] theorem restart_gt (s : State) : (restart s).gt = Banks.all GammaTable.zero := rfl

@[simp] theorem restart_mode (s : State) : (restart s).mode = .unattached := rfl

@[simp] theorem restart_diagStatusPad (s : State) : (restart s).diagStatusPad = 0 := rfl

@[simp] theorem restart_cur (s : State) : (restart s).cur = none := rfl

@[simp] theorem restart_tx (s : State) : (restart s).tx = s.tx := rfl

@[simp] theorem restart_rx (s : State) : (restart s).rx = s.rx := rfl

@[simp] theorem restart_nvs (s : State) : (restart s).nvs = s.nvs := rfl

@[simp] theorem restart_handleOpen (s : State) : (restart s).handleOpen = s.handleOpen := rfl

@[simp] theorem restart_busy (s : State) : (restart s).busy = none := rfl

@[simp] theorem restart_results (s : State) : (restart s).results = s.results := rfl

@[simp] theorem restart_notified (s : State) : (restart s).notified = s.notified := rfl

@[simp] theorem restart_inbox (s : State) : (restart s).inbox = s.inbox := rfl

@[simp] theorem restart_draws (s : State) : (restart s).draws = s.draws := rfl


end Sys2Proof.Machine
end

