-- ==== Sys2Proof/Laws/Ops.lean ====
section
/-! SUPPORT. One lemma for each shared operation of Sys2Proof/Machine/Ops.lean that says once everything it can do; later proofs cite
these and unfold the operation no more. -/

namespace Sys2Proof.Machine

/-! ### The environment's choices -/

/-- Making a choice changes nothing but the list it is taken from. -/
theorem drawWrite_cases (s : State) : ∃ d draws, drawWrite s = (d, { s with draws := draws }) := by
  unfold drawWrite; split <;> exact ⟨_, _, rfl⟩

theorem drawRead_cases (s : State) : ∃ d draws, drawRead s = (d, { s with draws := draws }) := by
  unfold drawRead; split <;> exact ⟨_, _, rfl⟩

theorem drawNvsRead_cases (s : State) : ∃ d draws, drawNvsRead s = (d, { s with draws := draws }) := by
  unfold drawNvsRead; split <;> exact ⟨_, _, rfl⟩

theorem drawNvsWrite_cases (s : State) : ∃ d draws, drawNvsWrite s = (d, { s with draws := draws }) := by
  unfold drawNvsWrite; split <;> exact ⟨_, _, rfl⟩

theorem drawWrite_listed {s : State} {d : WriteDraw} {ds : List WriteDraw} (h : s.draws.writes = d :: ds) :
    drawWrite s = (d, { s with draws := { s.draws with writes := ds } }) := by
  simp only [drawWrite, h]

theorem drawRead_listed {s : State} {d : ReadDraw} {ds : List ReadDraw} (h : s.draws.reads = d :: ds) :
    drawRead s = (d, { s with draws := { s.draws with reads := ds } }) := by
  simp only [drawRead, h]

theorem drawNvsRead_listed {s : State} {d : NvsReadDraw} {ds : List NvsReadDraw} (h : s.draws.nvsReads = d :: ds) :
    drawNvsRead s = (d, { s with draws := { s.draws with nvsReads := ds } }) := by
  simp only [drawNvsRead, h]

theorem drawNvsWrite_listed {s : State} {d : NvsWriteDraw} {ds : List NvsWriteDraw} (h : s.draws.nvsWrites = d :: ds) :
    drawNvsWrite s = (d, { s with draws := { s.draws with nvsWrites := ds } }) := by
  simp only [drawNvsWrite, h]

/-! ### The link -/

/-- `LinkWrite` appends all of the bytes, or some of them with an error, or some of them and is stuck (R36). -/
theorem linkWrite_cases (bs : Bytes) (s : State) :
    (∃ draws, linkWrite bs s = (.ok, { s with tx := s.tx ++ bs, draws := draws })) ∨
    (∃ draws k, linkWrite bs s = (.err .transportError, { s with tx := s.tx ++ bs.take k, draws := draws })) ∨
    (∃ draws k, linkWrite bs s = (.stuck, { s with tx := s.tx ++ bs.take k, draws := draws, busy := some .blocked })) := by
  obtain ⟨d, draws, h⟩ := drawWrite_cases s
  cases d with
  | done => exact .inl ⟨draws, by simp only [linkWrite, h]⟩
  | failed k => exact .inr (.inl ⟨draws, k, by simp only [linkWrite, h]⟩)
  | blocked k => exact .inr (.inr ⟨draws, k, by simp only [linkWrite, h]⟩)

theorem linkWrite_done {s : State} {ds : List WriteDraw} (bs : Bytes) (h : s.draws.writes = .done :: ds) :
    linkWrite bs s = (.ok, { s with tx := s.tx ++ bs, draws := { s.draws with writes := ds } }) := by
  simp only [linkWrite, drawWrite_listed h]

theorem linkWrite_failed {s : State} {k : Nat} {ds : List WriteDraw} (bs : Bytes) (h : s.draws.writes = .failed k :: ds) :
    linkWrite bs s =
      (.err .transportError, { s with tx := s.tx ++ bs.take k, draws := { s.draws with writes := ds } }) := by
  simp only [linkWrite, drawWrite_listed h]

theorem linkWrite_blocked {s : State} {k : Nat} {ds : List WriteDraw} (bs : Bytes) (h : s.draws.writes = .blocked k :: ds) :
    linkWrite bs s =
      (.stuck, { s with tx := s.tx ++ bs.take k, draws := { s.draws with writes := ds }, busy := some .blocked }) := by
  simp only [linkWrite, drawWrite_listed h]

/-- `LinkRead` takes at most `n` bytes from the front of `RX`, behind which bytes may have come in (R37). -/
theorem linkRead_cases (n : Nat) (s : State) :
    ∃ bs rx draws arrived, linkRead n s = (bs, { s with rx := rx, draws := draws }) ∧ bs.length ≤ n ∧
      s.rx ++ arrived = bs ++ rx := by
  by_cases h0 : n = 0
  · exact ⟨[], s.rx, s.draws, [], by simp [linkRead, h0], by simp, by simp⟩
  · obtain ⟨d, draws, h⟩ := drawRead_cases s
    refine ⟨(s.rx ++ d.arrived).take (min d.count n), (s.rx ++ d.arrived).drop (min d.count n), draws, d.arrived,
      by simp only [linkRead, h0, if_false, h], ?_, ?_⟩
    · simp only [List.length_take]; omega
    · simp only [List.take_append_drop]

/-- `LinkRead` with its choice listed: `k` bytes of what is then in `RX`. -/
theorem linkRead_listed {s : State} {d : ReadDraw} {ds : List ReadDraw} {n : Nat} (hn : n ≠ 0)
    (h : s.draws.reads = d :: ds) :
    linkRead n s = ((s.rx ++ d.arrived).take (min d.count n),
      { s with rx := (s.rx ++ d.arrived).drop (min d.count n), draws := { s.draws with reads := ds } }) := by
  simp only [linkRead, hn, if_false, drawRead_listed h]

@[simp] theorem linkRead_zero (s : State) : linkRead 0 s = ([], s) := rfl

/-- `WRITE_COMMAND` is refused its size before any I/O, or is one link write of the whole frame (R80). -/
theorem writeCommand_cases (d : Direction) (command : Byte) (payload : Bytes) (s : State) :
    (Config.maxChunk < payload.length ∧ writeCommand d command payload s = (.err .payloadTooLarge, s)) ∨
    (payload.length ≤ Config.maxChunk ∧
      writeCommand d command payload s = linkWrite (headerBytes d command payload.length ++ payload) s) := by
  by_cases h : Config.maxChunk < payload.length
  · exact .inl ⟨h, by simp only [writeCommand, h, if_true]⟩
  · exact .inr ⟨by omega, by simp only [writeCommand, h, if_false]⟩

theorem writeCommand_fits {payload : Bytes} (d : Direction) (command : Byte) (s : State)
    (h : payload.length ≤ Config.maxChunk) :
    writeCommand d command payload s = linkWrite (headerBytes d command payload.length ++ payload) s := by
  simp only [writeCommand, Nat.not_lt.mpr h, if_false]

/-- The header of a read is refused its size before any I/O, or is one link write of four bytes (R81). -/
theorem requestRead_cases (command : Byte) (n : Nat) (s : State) :
    (Config.maxChunk < n ∧ requestRead command n s = (.err .payloadTooLarge, s)) ∨
    (n ≤ Config.maxChunk ∧ requestRead command n s = linkWrite (headerBytes .read command n) s) := by
  by_cases h : Config.maxChunk < n
  · exact .inl ⟨h, by simp only [requestRead, h, if_true]⟩
  · exact .inr ⟨by omega, by simp only [requestRead, h, if_false]⟩

theorem requestRead_fits {n : Nat} (command : Byte) (s : State) (h : n ≤ Config.maxChunk) :
    requestRead command n s = linkWrite (headerBytes .read command n) s := by
  simp only [requestRead, Nat.not_lt.mpr h, if_false]

@[simp] theorem afterWrite_ok (t : State) (f : State → State) (g : ErrKind → State → State) :
    afterWrite (.ok, t) f g = f t := rfl

@[simp] theorem afterWrite_err (kind : ErrKind) (t : State) (f : State → State) (g : ErrKind → State → State) :
    afterWrite (.err kind, t) f g = g kind t := rfl

@[simp] theorem afterWrite_stuck (t : State) (f : State → State) (g : ErrKind → State → State) :
    afterWrite (.stuck, t) f g = t := rfl

/-- Everything that can happen at a frame whose payload fits: one of the three outcomes of its link write, and what follows it. -/
theorem afterFrame_cases {payload : Bytes} (d : Direction) (command : Byte) (s : State) (f : State → State)
    (g : ErrKind → State → State) (h : payload.length ≤ Config.maxChunk) :
    (∃ draws, afterWrite (writeCommand d command payload s) f g =
      f { s with tx := s.tx ++ (headerBytes d command payload.length ++ payload), draws := draws }) ∨
    (∃ draws k, afterWrite (writeCommand d command payload s) f g =
      g .transportError { s with tx := s.tx ++ (headerBytes d command payload.length ++ payload).take k, draws := draws }) ∨
    (∃ draws k, afterWrite (writeCommand d command payload s) f g =
      { s with tx := s.tx ++ (headerBytes d command payload.length ++ payload).take k, draws := draws,
               busy := some .blocked }) := by
  rw [writeCommand_fits d command s h]
  rcases linkWrite_cases (headerBytes d command payload.length ++ payload) s with ⟨ds, e⟩ | ⟨ds, k, e⟩ | ⟨ds, k, e⟩
  · exact .inl ⟨ds, by rw [e, afterWrite_ok]⟩
  · exact .inr (.inl ⟨ds, k, by rw [e, afterWrite_err]⟩)
  · exact .inr (.inr ⟨ds, k, by rw [e, afterWrite_stuck]⟩)

/-- Everything that can happen at a read header that fits. -/
theorem afterRequest_cases {n : Nat} (command : Byte) (s : State) (f : State → State) (g : ErrKind → State → State)
    (h : n ≤ Config.maxChunk) :
    (∃ draws, afterWrite (requestRead command n s) f g =
      f { s with tx := s.tx ++ headerBytes .read command n, draws := draws }) ∨
    (∃ draws k, afterWrite (requestRead command n s) f g =
      g .transportError { s with tx := s.tx ++ (headerBytes .read command n).take k, draws := draws }) ∨
    (∃ draws k, afterWrite (requestRead command n s) f g =
      { s with tx := s.tx ++ (headerBytes .read command n).take k, draws := draws, busy := some .blocked }) := by
  rw [requestRead_fits command s h]
  rcases linkWrite_cases (headerBytes .read command n) s with ⟨ds, e⟩ | ⟨ds, k, e⟩ | ⟨ds, k, e⟩
  · exact .inl ⟨ds, by rw [e, afterWrite_ok]⟩
  · exact .inr (.inl ⟨ds, k, by rw [e, afterWrite_err]⟩)
  · exact .inr (.inr ⟨ds, k, by rw [e, afterWrite_stuck]⟩)

/-! ### The store -/

/-- `NvsRead` fails, or gives what the store holds; it changes nothing (R38, R40). -/
theorem nvsRead_cases (p : Polarity) (s : State) :
    (∃ draws, nvsRead p s = (none, { s with draws := draws })) ∨
    (∃ draws, nvsRead p s = (some (s.nvs.get p), { s with draws := draws })) := by
  obtain ⟨d, draws, h⟩ := drawNvsRead_cases s
  cases d with
  | failed => exact .inl ⟨draws, by simp only [nvsRead, h]⟩
  | answered => exact .inr ⟨draws, by simp only [nvsRead, h]⟩

/-- `NvsWrite` replaces the whole file, or fails and leaves of it what it leaves; the other file is untouched (R40). -/
theorem nvsWrite_cases (p : Polarity) (bs : Bytes) (s : State) :
    (∃ draws, nvsWrite p bs s = (.ok, { s with nvs := s.nvs.set p (some bs), draws := draws })) ∨
    (∃ draws left, nvsWrite p bs s =
      (.fileAccessError, { s with nvs := s.nvs.set p (leftoverFile (s.nvs.get p) bs left), draws := draws })) := by
  obtain ⟨d, draws, h⟩ := drawNvsWrite_cases s
  cases d with
  | done => exact .inl ⟨draws, by simp only [nvsWrite, h]⟩
  | failed left => exact .inr ⟨draws, left, by simp only [nvsWrite, h]⟩

theorem nvsWrite_done {s : State} {ds : List NvsWriteDraw} (p : Polarity) (bs : Bytes)
    (h : s.draws.nvsWrites = .done :: ds) :
    nvsWrite p bs s =
      (.ok, { s with nvs := s.nvs.set p (some bs), draws := { s.draws with nvsWrites := ds } }) := by
  simp only [nvsWrite, drawNvsWrite_listed h]

/-! ### Starting an operation -/

theorem whenIdle_idle {s : State} (h : s.busy = none) (o : Out) : whenIdle s o = o := by
  simp only [whenIdle, h]

/-- An operation that goes on started from an idle block. -/
theorem whenIdle_next {s t : State} {o : Out} (h : whenIdle s o = .next t) : s.busy = none ∧ o = .next t := by
  unfold whenIdle at h
  split at h
  · exact ⟨by assumption, h⟩
  · cases h
  · cases h

theorem onLink_open {s : State} (h : s.handleOpen = true) (o : Out) : onLink s o = o := by
  simp only [onLink, h, if_true]

/-- An operation that uses the link and goes on has an open handle. -/
theorem onLink_next {s t : State} {o : Out} (h : onLink s o = .next t) : s.handleOpen = true ∧ o = .next t := by
  unfold onLink at h
  split at h
  · exact ⟨by assumption, h⟩
  · cases h

/-- An operation that goes on has accepted its operand. -/
theorem accept_next {α : Type} {operand : Except Refusal α} {f : α → Out} {t : State}
    (h : accept operand f = .next t) : ∃ a, operand = .ok a ∧ f a = .next t := by
  cases operand with
  | ok a => exact ⟨a, rfl, h⟩
  | error r => cases h

end Sys2Proof.Machine
end

