-- ==== Sys2Proof/Laws/Step.lean ====
section
/-! SUPPORT. Everything a step can do, said once: an event from outside, an idle step, the next step of the operation in progress, or
the first step of a requested operation. -/

namespace Sys2Proof.Machine

theorem goOn_idle {s : State} (h : s.busy = none) : goOn s = .event s := by
  simp only [goOn, h]

theorem goOn_busy {s : State} {p : Progress} (h : s.busy = some p) (hp : p ≠ .blocked) : goOn s = .carryOn p s := by
  cases p <;> first | exact absurd rfl hp | simp only [goOn, h]

/-- The stuck block has no step (R193). -/
theorem step_stuck {s : State} (h : s.busy = some .blocked) : step s = .fault .linkWriteBlocked := by
  simp only [step, fetch, h, if_true]

/-- With nothing coming from outside, a step carries the operation in progress on. -/
theorem step_carries_on {s : State} {p : Progress} (h : s.busy = some p) (hp : p ≠ .blocked)
    (hq : undisturbed s = true) : step s = resume Config.params p s := by
  have hb : ¬ s.busy = some .blocked := by rw [h]; intro e; exact hp (Option.some.inj e)
  unfold undisturbed at hq
  unfold step fetch
  rw [if_neg hb]
  split at hq
  · next e => simp only [e, goOn_busy h hp]
  · next e => simp only [e, h, goOn_busy h hp]
  · cases hq

/-- Every way a step answers a next state. -/
theorem step_next_cases {s t : State} (h : step s = .next t) :
    (∃ bs rest, s.inbox = .deviceBytes bs :: rest ∧ t = { s with inbox := rest, rx := s.rx ++ bs }) ∨
    (∃ rest, s.inbox = .restart :: rest ∧ t = restart { s with inbox := rest }) ∨
    (∃ b rest, s.inbox = .handle b :: rest ∧ t = { s with inbox := rest, handleOpen := b }) ∨
    (s.busy = none ∧ ∃ inbox, t = { s with inbox := inbox }) ∨
    (∃ p inbox, s.busy = some p ∧ p ≠ .blocked ∧ resume Config.params p { s with inbox := inbox } = .next t) ∨
    (∃ format bs rest i, s.busy = none ∧ s.inbox = .request format bs :: rest ∧
      Sys2Proof.decode Config.params format bs = .ok i ∧ exec i { s with inbox := rest } = .next t) := by
  by_cases hb : s.busy = some .blocked
  · rw [step_stuck hb] at h; cases h
  have going : ∀ u : State, u = { s with inbox := u.inbox } →
      (match goOn u with
        | .stuck => (.fault .linkWriteBlocked : Out)
        | .event t => .next t
        | .carryOn p t => resume Config.params p t
        | .run i t => exec i t
        | .refuse r => .refused r) = .next t →
      (s.busy = none ∧ ∃ inbox, t = { s with inbox := inbox }) ∨
      (∃ p inbox, s.busy = some p ∧ p ≠ .blocked ∧ resume Config.params p { s with inbox := inbox } = .next t) := by
    intro u hu hg
    rcases Option.eq_none_or_eq_some s.busy with hs | ⟨p, hs⟩
    · have : u.busy = none := by rw [hu]; exact hs
      rw [goOn_idle this] at hg
      cases hg
      exact .inl ⟨hs, _, hu⟩
    · have hp : p ≠ .blocked := fun e => hb (by rw [hs, e])
      have : u.busy = some p := by rw [hu]; exact hs
      rw [goOn_busy this hp] at hg
      exact .inr ⟨p, u.inbox, hs, hp, by rw [← hu]; exact hg⟩
  unfold step fetch at h
  rw [if_neg hb] at h
  cases hi : s.inbox with
  | nil =>
    simp only [hi] at h
    rcases going s rfl h with g | g
    · exact .inr (.inr (.inr (.inl g)))
    · exact .inr (.inr (.inr (.inr (.inl g))))
  | cons e rest =>
    cases e with
    | deviceBytes bs => simp only [hi] at h; cases h; exact .inl ⟨bs, rest, rfl, rfl⟩
    | restart => simp only [hi] at h; cases h; exact .inr (.inl ⟨rest, rfl, rfl⟩)
    | handle b => simp only [hi] at h; cases h; exact .inr (.inr (.inl ⟨b, rest, rfl, rfl⟩))
    | quiet =>
      simp only [hi] at h
      rcases going { s with inbox := rest } rfl h with g | g
      · exact .inr (.inr (.inr (.inl g)))
      · exact .inr (.inr (.inr (.inr (.inl g))))
    | request format bs =>
      simp only [hi] at h
      rcases Option.eq_none_or_eq_some s.busy with hs | ⟨p, hs⟩
      · cases hd : Sys2Proof.decode Config.params format bs with
        | ok i =>
          simp only [hs, takeRequest, hd] at h
          exact .inr (.inr (.inr (.inr (.inr ⟨format, bs, rest, i, hs, rfl, hd, by rw [hs]; exact h⟩))))
        | error r => simp only [hs, takeRequest, hd] at h; cases h
      · simp only [hs] at h
        rcases going s rfl h with g | g
        · rw [g.1] at hs; cases hs
        · exact .inr (.inr (.inr (.inr (.inl g))))

/-- Every operation starts from an idle block (R200, D32). -/
theorem exec_next_idle {i : Instr} {s t : State} (h : exec i s = .next t) : s.busy = none := by
  cases i <;> exact (whenIdle_next h).1

/-- A frame row that goes on: its payload was too large, or it was one link write. -/
theorem emitWrite_next {payload : Bytes} {frame : State → Sent × State} {s t : State}
    (h : emitWrite payload frame s = .next t) :
    (Config.maxChunk < payload.length ∧ t = raise .payloadTooLarge s) ∨
    (payload.length ≤ Config.maxChunk ∧ s.handleOpen = true ∧ t = lastFrame (frame s)) := by
  have h := (whenIdle_next h).2
  split at h
  · cases h; exact .inl ⟨by assumption, rfl⟩
  · have := onLink_next h
    cases this.2; exact .inr ⟨by omega, this.1, rfl⟩

/-- A read header row that goes on. -/
theorem emitRead_next {command : Byte} {n : Nat} {s t : State} (h : emitRead command n s = .next t) :
    (Config.maxChunk < n ∧ t = raise .payloadTooLarge s) ∨
    (n ≤ Config.maxChunk ∧ s.handleOpen = true ∧ t = lastFrame (requestRead command n s)) := by
  have h := (whenIdle_next h).2
  split at h
  · cases h; exact .inl ⟨by assumption, rfl⟩
  · have := onLink_next h
    cases this.2; exact .inr ⟨by omega, this.1, rfl⟩

/-- A read that goes on (R81). -/
theorem beginRead_next {command : Byte} {n : Nat} {whom : ReadFor} {s t : State}
    (h : beginRead command n whom s = .next t) :
    (Config.maxChunk < n ∧ t = failRead whom .payloadTooLarge s) ∨
    (n ≤ Config.maxChunk ∧ s.handleOpen = true ∧ t = startRead command n whom s) := by
  unfold beginRead at h
  split at h
  · cases h; exact .inl ⟨by assumption, rfl⟩
  · have := onLink_next h
    cases this.2; exact .inr ⟨by omega, this.1, rfl⟩

/-- An error of a read ends the operation with a result that reports it; nothing else changes. -/
theorem failRead_eq (whom : ReadFor) (kind : ErrKind) (s : State) :
    ∃ r, failRead whom kind s = finish r s ∧ (r.linkFailed = (kind == .transportError)) := by
  rcases whom with _ | (_ | (_ | ⟨p, n⟩))
  · exact ⟨.err kind, rfl, rfl⟩
  · exact ⟨.err kind, rfl, rfl⟩
  · exact ⟨.err kind, rfl, rfl⟩
  · exact ⟨.startup p n (.err kind), rfl, by cases kind <;> rfl⟩

/-- The end of an `ATTACH` is a result; nothing else changes. -/
theorem endAttach_eq (whom : AttachFor) (r : Part) (s : State) : ∃ x, endAttach whom r s = finish x s := by
  cases whom <;> exact ⟨_, rfl⟩

end Sys2Proof.Machine
end

