-- ==== Sys2Proof/Laws/Families.lean ====
section
/-! SUPPORT. One lemma for each operation the families share (Transport, Pixel, Status, Calibration) that says once everything it can
do, and the lengths of what they send. -/

namespace Sys2Proof.Machine

/-! ### Lengths -/

/-- The header as a list (R51). -/
theorem headerBytes_eq (d : Direction) (command : Byte) (n : Nat) :
    headerBytes d command n = [directionByte d, command] ++ le16 n := rfl

/-- The receiver's rule on a stream that begins with a header (R55). -/
theorem cutFrame_header (d command low high : Byte) (rest : Bytes) :
    cutFrame (d :: command :: low :: high :: rest) =
      if Config.maxChunk < fromLe16 low high then .error .lengthAboveMax
      else if d = Config.dirRead then .ok (⟨.read, command, fromLe16 low high, []⟩, rest)
      else if d = Config.dirWrite then
        if rest.length < fromLe16 low high then .error .truncated
        else .ok (⟨.write, command, fromLe16 low high, rest.take (fromLe16 low high)⟩, rest.drop (fromLe16 low high))
      else .error .reservedDirection := rfl

@[simp] theorem headerBytes_length (d : Direction) (command : Byte) (n : Nat) : (headerBytes d command n).length = 4 := rfl

@[simp] theorem winBytes_length (a b : U16) : (winBytes a b).length = 4 := rfl

theorem pack_length {ν : Type} {n : Nat} (layout : Layout ν) (values : ν → Nat) (h : layoutWidth layout = 8 * n) :
    (pack layout values).length = n := by
  rw [pack_eq]
  exact bytesOfBits_length n _ (by rw [packedBits_length, h])

@[simp] theorem gammaEncode_length (values : GammaField → Nat) : (gammaEncode values).length = 14 :=
  pack_length gammaLayout values (by decide)

@[simp] theorem imageOf_length (t : GammaTable) : (imageOf t).length = 14 := gammaEncode_length t.get

/-! ### Curves and layouts -/

/-- `SELECT_CURVE`'s operand (R160): the four indices are their curves. -/
@[simp] theorem curveOperand_val (i : Curve) : curveOperand i.val = .ok i := by
  revert i
  decide

/-- Every other integer is refused (D31). -/
theorem curveOperand_out {z : Int} (h : z < 0 ∨ 3 < z) : curveOperand z = .error .curveIndexOutOfRange :=
  if_pos (by simp only [Config.nFixedCurves]; omega)

/-- A status `gamma` of 0 to 3 is its curve (R157). -/
theorem curveOfStatus_of_eq {gamma : BitVec 3} {i : Curve} (h : gamma.toNat = i.val) : curveOfStatus gamma = .ok i := by
  revert gamma i
  decide

/-- A status `gamma` of 4 to 7 is refused (D18). -/
theorem curveOfStatus_out {gamma : BitVec 3} (h : 3 < gamma.toNat) : curveOfStatus gamma = .error .attachGammaOutOfRange :=
  if_pos (by simp only [Config.nFixedCurves]; omega)

/-- The byte of a curve selects it (R59). -/
@[simp] theorem curveOf_oneHot (i : Curve) : curveOf (oneHot i) = some i := by
  revert i
  decide

/-- Every other byte selects no curve. -/
theorem curveOf_eq_none {mask : Byte} : curveOf mask = none ↔ ∀ i, mask ≠ oneHot i := by
  simp only [curveOf, List.find?_eq_none, List.mem_finRange, forall_const, beq_iff_eq, ne_eq]
  exact ⟨fun h i e => h i e.symm, fun h i e => h i e.symm⟩

/-- The byte of a curve is its only one. -/
theorem curveOf_eq_some {mask : Byte} {i : Curve} : curveOf mask = some i ↔ mask = oneHot i := by
  refine ⟨fun h => ?_, fun h => h ▸ curveOf_oneHot i⟩
  unfold curveOf at h
  have := List.find?_some h
  exact (beq_iff_eq.mp this).symm

/-! ### Selectors -/

theorem mem_hostOps (op : HostOp) : op ∈ hostOps := by
  cases op <;> decide

/-- A byte bound to no operation selects none (R70). -/
theorem hostOpOf_eq_none {cfg : Params} {b : Byte} : hostOpOf cfg b = none ↔ ∀ op, cfg.opIndex op ≠ b := by
  simp only [hostOpOf, List.find?_eq_none, beq_iff_eq, ne_eq]
  exact ⟨fun h op => h op (mem_hostOps op), fun h op _ => h op⟩

/-- Distinct selectors each select their operation. -/
theorem hostOpOf_opIndex {cfg : Params} (h : cfg.opDistinct = true) (op : HostOp) :
    hostOpOf cfg (cfg.opIndex op) = some op := by
  simp only [Params.opDistinct, decide_eq_true_eq] at h
  rcases Option.eq_none_or_eq_some (hostOpOf cfg (cfg.opIndex op)) with e | ⟨o, e⟩
  · exact absurd rfl (hostOpOf_eq_none.mp e op)
  · rw [e, List.inj_on_of_nodup_map h (mem_hostOps o) (mem_hostOps op) (by simpa using List.find?_some e)]

/-! ### Reads -/

/-- The first step of a read: the answer is awaited, or the header failed, or the block is stuck. -/
theorem startRead_cases {n : Nat} (command : Byte) (whom : ReadFor) (s : State) (h : n ≤ Config.maxChunk) :
    (∃ draws, startRead command n whom s =
      { s with tx := s.tx ++ headerBytes .read command n, draws := draws, busy := some (.respond n whom) }) ∨
    (∃ draws k, startRead command n whom s =
      failRead whom .transportError
        { s with tx := s.tx ++ (headerBytes .read command n).take k, draws := draws }) ∨
    (∃ draws k, startRead command n whom s =
      { s with tx := s.tx ++ (headerBytes .read command n).take k, draws := draws, busy := some .blocked }) :=
  afterRequest_cases command s _ _ h

/-- The second step of a read: a short answer is an error, a full one goes to whom it is for. -/
theorem takeAnswer_cases (n : Nat) (whom : ReadFor) (s : State) :
    ∃ bs rx draws arrived, s.rx ++ arrived = bs ++ rx ∧ bs.length ≤ n ∧
      ((bs.length < n ∧ takeAnswer n whom s = failRead whom .shortRead { s with rx := rx, draws := draws }) ∨
       (bs.length = n ∧ whom = .response ∧
         takeAnswer n whom s = finish (.ok (.bytes bs)) { s with rx := rx, draws := draws }) ∨
       (bs.length = n ∧ ∃ w, whom = .status w ∧
         takeAnswer n whom s = { s with rx := rx, draws := draws, busy := some (.decode bs w) })) := by
  obtain ⟨bs, rx, draws, arrived, e, hl, hr⟩ := linkRead_cases n s
  refine ⟨bs, rx, draws, arrived, hr, hl, ?_⟩
  unfold takeAnswer
  rw [e]
  by_cases hs : bs.length < n
  · exact .inl ⟨hs, by simp only [hs, if_true]⟩
  · have hn : bs.length = n := by omega
    cases whom with
    | response => exact .inr (.inl ⟨hn, rfl, by simp only [hs, if_false]⟩)
    | status w => exact .inr (.inr ⟨hn, w, rfl, by simp only [hs, if_false]⟩)

/-! ### Decoding the status -/

/-- `DECODE_STATUS`: an error that writes nothing, or a view and `DIAG_STATUS_PAD`. -/
theorem decodeStatus_cases (cfg : Params) (bs : Bytes) (whom : StatusFor) (s : State) :
    (statusDecode cfg bs = none ∧ decodeStatus cfg bs whom s = failRead (.status whom) .malformedRegister s) ∨
    (∃ view pad, statusDecode cfg bs = some (view, pad) ∧
      decodeStatus cfg bs whom s = deliverStatus whom view { s with diagStatusPad := padFlag pad }) := by
  rcases Option.eq_none_or_eq_some (statusDecode cfg bs) with h | ⟨⟨view, pad⟩, h⟩
  · exact .inl ⟨h, by simp only [decodeStatus, h]⟩
  · exact .inr ⟨view, pad, h, by simp only [decodeStatus, h]⟩

theorem deliverStatus_cases (whom : StatusFor) (view : StatusView) (s : State) :
    (whom = .host ∧ deliverStatus whom view s = finish (.ok (.status view)) s) ∨
    (∃ w, whom = .attach w ∧ deliverStatus whom view s = { s with busy := some (.derive view.gamma w) }) := by
  cases whom with
  | host => exact .inl ⟨rfl, rfl⟩
  | attach w => exact .inr ⟨w, rfl, rfl⟩

/-- `GAMMA_DECODE` at the host port: an error, or the table. -/
theorem decodeTable_cases (bs : Bytes) (s : State) :
    (gammaDecode bs = none ∧ decodeTable bs s = raise .malformedRegister s) ∨
    (∃ t, gammaDecode bs = some t ∧ decodeTable bs s = finish (.ok (.gamma t)) s) := by
  rcases Option.eq_none_or_eq_some (gammaDecode bs) with h | ⟨t, h⟩
  · exact .inl ⟨h, by simp only [decodeTable, h]⟩
  · exact .inr ⟨t, h, by simp only [decodeTable, h]⟩

/-! ### Loading -/

/-- The end of a load: a result, or the next step of `STARTUP`. -/
theorem endLoad_cases (whom : LoadFor) (r : Part) (s : State) :
    endLoad whom r s = finish r.result s ∨ ∃ p, endLoad whom r s = { s with busy := some p } := by
  cases whom with
  | host => exact .inl rfl
  | startupPositive => exact .inr ⟨_, rfl⟩
  | startupNegative positive => exact .inr ⟨_, rfl⟩

/-- The first step of a load: the store failed, or its answer is to be put into the bank. -/
theorem startLoad_cases (p : Polarity) (whom : LoadFor) (s : State) :
    (∃ draws, startLoad p whom s = endLoad whom (.err .fileAccessError) { s with draws := draws }) ∨
    (∃ draws, startLoad p whom s = { s with draws := draws, busy := some (.fill p (s.nvs.get p) whom) }) := by
  rcases nvsRead_cases p s with ⟨draws, e⟩ | ⟨draws, e⟩
  · exact .inl ⟨draws, by simp only [startLoad, e]⟩
  · exact .inr ⟨draws, by simp only [startLoad, e]⟩

/-- The second step of a load: the zero table, no change and an error, or the decoded table and a notification. -/
theorem fillBank_cases (p : Polarity) (file : Option Bytes) (whom : LoadFor) (s : State) :
    (file = none ∧ fillBank p file whom s = endLoad whom .ok { s with gt := s.gt.set p GammaTable.zero }) ∨
    (∃ bs, file = some bs ∧ gammaDecode bs = none ∧
      fillBank p file whom s = endLoad whom (.err .malformedRegister) s) ∨
    (∃ bs t, file = some bs ∧ gammaDecode bs = some t ∧
      fillBank p file whom s = endLoad whom .ok (notify p { s with gt := s.gt.set p t })) := by
  cases file with
  | none => exact .inl ⟨rfl, rfl⟩
  | some bs =>
    rcases Option.eq_none_or_eq_some (gammaDecode bs) with h | ⟨t, h⟩
    · exact .inr (.inl ⟨bs, rfl, h, by simp only [fillBank, h]⟩)
    · exact .inr (.inr ⟨bs, t, rfl, h, by simp only [fillBank, h]⟩)

/-! ### Pushing -/

/-- The file part of a push: the image is the bank's, and the device part is next whatever the store reported. -/
theorem pushFile_cases (p : Polarity) (s : State) :
    (∃ draws, pushFile p s =
      { s with nvs := s.nvs.set p (some (imageOf (s.gt.get p))), draws := draws,
               busy := some (.pushDevice p (imageOf (s.gt.get p)) .ok) }) ∨
    (∃ draws left, pushFile p s =
      { s with nvs := s.nvs.set p (leftoverFile (s.nvs.get p) (imageOf (s.gt.get p)) left), draws := draws,
               busy := some (.pushDevice p (imageOf (s.gt.get p)) .fileAccessError) }) := by
  rcases nvsWrite_cases p (imageOf (s.gt.get p)) s with ⟨draws, e⟩ | ⟨draws, left, e⟩
  · exact .inl ⟨draws, by simp only [pushFile, e]⟩
  · exact .inr ⟨draws, left, by simp only [pushFile, e]⟩

/-! ### Streaming -/

/-- One pass of the loop, before the end of the buffer: the frame at the cursor and what follows it. -/
theorem streamStep_frame {buffer : Bytes} {c : Nat} {s : State} (hc : s.cur = some c) (h : c < buffer.length) :
    streamStep buffer s =
      afterWrite (continuationFrame (slice buffer c (min Config.maxChunk (buffer.length - c))) s)
        (fun t =>
          if c + min Config.maxChunk (buffer.length - c) < buffer.length then
            { t with cur := some (c + min Config.maxChunk (buffer.length - c)) }
          else succeed t) raise := by
  simp only [streamStep, hc, Option.getD_some, h, if_true]

theorem slice_length (bs : Bytes) (i n : Nat) : (slice bs i n).length = min n (bs.length - i) := by
  simp [slice]

end Sys2Proof.Machine
end

