-- ==== Sys2Proof/Laws/Layout.lean ====
section
/-! SUPPORT. What `Unpack` (spec/30_encoding.md R62) reads from an image all of whose bits are the same, under any layout; from it,
the `gamma` field of the all-zero and the all-ones status image in every admissible layout, which the witnesses of the tests
need (the machine's layout is an open parameter, so that no image but these two can be decoded by evaluation). -/

namespace Sys2Proof.Machine

theorem natOfBits_replicate (b : Bool) (w : Nat) : natOfBits (List.replicate w b) = if b then 2 ^ w - 1 else 0 := by
  induction w with
  | zero => cases b <;> rfl
  | succ w ih =>
    rw [List.replicate_succ, natOfBits_cons, ih, List.length_replicate, pow_succ]
    have := Nat.two_pow_pos w
    cases b
    · simp
    · simp only [Bool.toNat_true, if_true]; omega

/-- Every named field of a uniform bit string is all ones, or zero. -/
theorem unpackBits_replicate {ν : Type} (b : Bool) (layout : Layout ν) (n : Nat) (h : layoutWidth layout ≤ n) :
    (unpackBits layout (List.replicate n b)).1 =
      (namedSegments layout).map fun s => (s.1, if b then 2 ^ s.2 - 1 else 0) := by
  induction layout generalizing n with
  | nil => rfl
  | cons x l ih =>
    obtain ⟨name, w⟩ := x
    rw [layoutWidth_cons] at h
    have ht : (List.replicate n b).take w = List.replicate w b := by
      rw [List.take_replicate, Nat.min_eq_left (by omega)]
    have hd : (List.replicate n b).drop w = List.replicate (n - w) b := List.drop_replicate ..
    cases name with
    | none =>
      have hn : namedSegments ((none, w) :: l) = namedSegments l := rfl
      simp only [unpackBits, hd, hn]
      exact ih (n - w) (by simp only at h; omega)
    | some f =>
      have hn : namedSegments ((some f, w) :: l) = (f, w) :: namedSegments l := rfl
      simp only [unpackBits, hd, ht, hn, List.map_cons, natOfBits_replicate]
      rw [ih (n - w) (by simp only at h; omega)]

theorem lookup_filter_of {ν : Type} [DecidableEq ν] (keep : ν → Bool) (l : List (ν × Nat)) {f : ν} (h : keep f = true) :
    l.lookup f = (l.filter fun s => keep s.1).lookup f := by
  induction l with
  | nil => rfl
  | cons x l ih =>
    obtain ⟨g, v⟩ := x
    by_cases hg : f = g
    · subst hg; simp [List.lookup, h]
    · by_cases hk : keep g = true
      · simp [List.lookup, hk, beq_eq_false_iff_ne.mpr hg, ih]
      · simp [List.lookup, hk, beq_eq_false_iff_ne.mpr hg, ih]

/-- The layout of a build fits the 5 bytes of an image (R61 (a)). -/
theorem StatusLayout.width (l : StatusLayout) : layoutWidth l.segments = 8 * Config.statusLen := by
  have h := l.admissible
  simp only [admissibleLayout, Bool.and_eq_true, beq_iff_eq] at h
  exact h.1.1.1

/-- Beside the flags, the layout of a build names `pixfmt` and `gamma`, in this order, each of 3 bits (R61 (b), (e)). -/
theorem StatusLayout.codes (l : StatusLayout) :
    (namedSegments l.segments).filter (fun s => s.1 ∉ statusFlags) = [(.pixfmt, 3), (.gamma, 3)] := by
  have h := l.admissible
  simp only [admissibleLayout, Bool.and_eq_true, beq_iff_eq] at h
  exact h.1.2

/-- All that `DECODE_STATUS` can do with an image (R120): no layout a build may have makes one of 5 bytes malformed. -/
theorem statusDecode_eq (cfg : Params) (bs : Bytes) :
    statusDecode cfg bs =
      if bs.length = Config.statusLen then
        let out := unpackBits cfg.statusLayout.segments (bitsOfBytes bs)
        if cfg.statusPadMbz && out.2 then none else some (StatusView.ofValues (fieldOf out.1), out.2)
      else none := by
  unfold statusDecode
  split
  · next h => simp only [unpack, StatusLayout.width, h, if_true]
  · rfl

/-- A status image all of whose bits are the same decodes, in every build that ignores reserved bits, to a view whose `gamma` field
is 7 or 0. -/
theorem statusDecode_uniform (cfg : Params) (bs : Bytes) (b : Bool) (hb : bitsOfBytes bs = List.replicate 40 b)
    (hl : bs.length = 5) (hm : cfg.statusPadMbz = false) :
    ∃ view pad, statusDecode cfg bs = some (view, pad) ∧ view.gamma = if b then 7 else 0 := by
  have hg : fieldOf (unpackBits cfg.statusLayout.segments (List.replicate 40 b)).1 .gamma = if b then 7 else 0 := by
    rw [unpackBits_replicate b _ 40 (by rw [StatusLayout.width]; decide), fieldOf,
      lookup_filter_of (fun f => decide (f ∉ statusFlags)) _ (by decide), List.filter_map]
    have : ((fun s : StatusField × Nat => decide (s.1 ∉ statusFlags)) ∘
        fun s : StatusField × Nat => (s.1, if b then 2 ^ s.2 - 1 else 0)) = fun s => decide (s.1 ∉ statusFlags) := rfl
    rw [this, StatusLayout.codes]
    cases b <;> rfl
  refine ⟨_, _, by rw [statusDecode_eq, if_pos (show bs.length = Config.statusLen from hl), hm, hb]; rfl, ?_⟩
  simp only [StatusView.ofValues, hg]
  cases b <;> rfl

/-- The machine's build decodes the all-zero image to `gamma = 0`. -/
theorem statusDecode_zeros :
    ∃ view pad, statusDecode Config.params [0, 0, 0, 0, 0] = some (view, pad) ∧ view.gamma = 0 :=
  statusDecode_uniform _ _ false (by decide) rfl rfl

/-- The machine's build decodes the all-ones image to `gamma = 7`. -/
theorem statusDecode_ones :
    ∃ view pad, statusDecode Config.params [0xFF, 0xFF, 0xFF, 0xFF, 0xFF] = some (view, pad) ∧ view.gamma = 7 :=
  statusDecode_uniform _ _ true (by decide) rfl rfl

end Sys2Proof.Machine
end

