-- ==== Sys2Proof/Laws/PerInstr.lean ====
section
/-! SUPPORT. The family `RowShape`: for each row of spec/opcode_table.json, the format its encoding has (the column `format`) and the
shape of its bytes: the widths of spec/30_encoding.md R50, the first header byte of a frame (R52), and the selector of a host
operation (R70). One lemma for each constructor of `Instr`. -/

namespace Sys2Proof.Laws.RowShape

open Machine

/-- The `format` column of the row. -/
def format : Instr → Format
  | .fWrite _ _ => .frame
  | .fRead _ _ => .frame
  | .fCont _ => .frame
  | .fCaset _ _ => .frame
  | .fRaset _ _ => .frame
  | .fRamwr => .frame
  | .fGamset _ => .frame
  | .fPvgam _ => .frame
  | .fNvgam _ => .frame
  | .fRddst => .frame
  | .win _ _ => .win
  | .pix16 _ _ _ => .pix16
  | .onehot0 => .onehot8
  | .onehot1 => .onehot8
  | .onehot2 => .onehot8
  | .onehot3 => .onehot8
  | .img112 _ => .img112
  | .img40 _ => .img40
  | .resp _ => .resp
  | .chunk _ => .chunk
  | .writeCommand _ _ _ => .hostop
  | .readResponse _ _ => .hostop
  | .setWindow _ _ _ _ => .hostop
  | .streamPixels _ => .hostop
  | .packPixel _ _ _ => .hostop
  | .decodeStatus _ => .hostop
  | .readStatus => .hostop
  | .gammaDecode _ => .hostop
  | .gammaEncode _ => .hostop
  | .loadCal _ => .hostop
  | .attach => .hostop
  | .setField _ _ _ => .hostop
  | .push _ => .hostop
  | .selectCurve _ => .hostop
  | .enterCustom => .hostop
  | .startup => .hostop

/-- The host operation of a row, whose selector R70 gives; none for a frame, a payload or an image. -/
def operation : Instr → Option HostOp
  | .fWrite _ _ => none
  | .fRead _ _ => none
  | .fCont _ => none
  | .fCaset _ _ => none
  | .fRaset _ _ => none
  | .fRamwr => none
  | .fGamset _ => none
  | .fPvgam _ => none
  | .fNvgam _ => none
  | .fRddst => none
  | .win _ _ => none
  | .pix16 _ _ _ => none
  | .onehot0 => none
  | .onehot1 => none
  | .onehot2 => none
  | .onehot3 => none
  | .img112 _ => none
  | .img40 _ => none
  | .resp _ => none
  | .chunk _ => none
  | .writeCommand _ _ _ => some .writeCommand
  | .readResponse _ _ => some .readResponse
  | .setWindow _ _ _ _ => some .setWindow
  | .streamPixels _ => some .streamPixels
  | .packPixel _ _ _ => some .packPixel
  | .decodeStatus _ => some .decodeStatus
  | .readStatus => some .readStatus
  | .gammaDecode _ => some .gammaDecode
  | .gammaEncode _ => some .gammaEncode
  | .loadCal _ => some .loadCal
  | .attach => some .attach
  | .setField _ _ _ => some .setField
  | .push _ => some .push
  | .selectCurve _ => some .selectCurve
  | .enterCustom => some .enterCustom
  | .startup => some .startup

/-- The shape the bytes of a row have in its format, in a build. -/
def Shape (cfg : Params) (i : Instr) (bs : Bytes) : Format → Prop
  | .hostop => bs.head? = (operation i).map cfg.opIndex
  | .frame => (bs.head? = some Config.dirWrite ∨ bs.head? = some Config.dirRead) ∧
      Config.headerLen ≤ bs.length ∧ bs.length ≤ Config.headerLen + Config.maxChunk
  | .win => bs.length = 4
  | .pix16 => bs.length = 2
  | .onehot8 => bs.length = 1
  | .img112 => bs.length = Config.gammaLen
  | .img40 => bs.length = Config.statusLen
  | .resp => bs.length ≤ Config.maxChunk
  | .chunk => 1 ≤ bs.length ∧ bs.length ≤ Config.maxChunk

/-- A well-formed instruction is encoded in its row's format and in that format's shape. -/
def Statement (i : Instr) : Prop :=
  ∀ cfg : Params, WellFormed cfg i → (encode cfg i).1 = format i ∧ Shape cfg i (encode cfg i).2 (format i)

theorem readShape (cfg : Params) (i : Instr) (command : Byte) (n : Nat) : Shape cfg i (headerBytes .read command n) .frame := by
  refine ⟨.inr rfl, ?_, ?_⟩ <;> simp [Config.headerLen, Config.maxChunk]

theorem writeShape (cfg : Params) (i : Instr) (command : Byte) {payload : Bytes} (h : payload.length ≤ Config.maxChunk) :
    Shape cfg i (writeBytes command payload) .frame := by
  refine ⟨.inl rfl, ?_, ?_⟩ <;> simp only [writeBytes, List.length_append, headerBytes_length, Config.headerLen] <;> omega

theorem fWrite (command : Byte) (payload : Bytes) : Statement (.fWrite command payload) :=
  fun _ h => ⟨rfl, writeShape _ _ _ (by simp [WellFormed, Instr.isWellFormed] at h; exact h.1)⟩

theorem fRead (command : Byte) (length : U16) : Statement (.fRead command length) := fun _ _ => ⟨rfl, readShape _ _ _ _⟩

theorem fCont (payload : Bytes) : Statement (.fCont payload) :=
  fun _ h => ⟨rfl, writeShape _ _ _ (by simp [WellFormed, Instr.isWellFormed] at h; exact h.2)⟩

theorem fCaset (start : U16) (stop : U16) : Statement (.fCaset start stop) :=
  fun _ _ => ⟨rfl, writeShape _ _ _ (by simp [Config.maxChunk])⟩

theorem fRaset (start : U16) (stop : U16) : Statement (.fRaset start stop) :=
  fun _ _ => ⟨rfl, writeShape _ _ _ (by simp [Config.maxChunk])⟩

theorem fRamwr : Statement .fRamwr := fun _ _ => ⟨rfl, writeShape _ _ _ (by simp [Config.maxChunk])⟩

theorem fGamset (curve : Curve) : Statement (.fGamset curve) := fun _ _ => ⟨rfl, writeShape _ _ _ (by simp [Config.maxChunk])⟩

theorem fPvgam (image : Bytes) : Statement (.fPvgam image) :=
  fun _ h => ⟨rfl, writeShape _ _ _ (by simp [WellFormed, Instr.isWellFormed] at h; rw [h]; decide)⟩

theorem fNvgam (image : Bytes) : Statement (.fNvgam image) :=
  fun _ h => ⟨rfl, writeShape _ _ _ (by simp [WellFormed, Instr.isWellFormed] at h; rw [h]; decide)⟩

theorem fRddst : Statement .fRddst := fun _ _ => ⟨rfl, readShape _ _ _ _⟩

theorem win (start : U16) (stop : U16) : Statement (.win start stop) := fun _ _ => ⟨rfl, rfl⟩

theorem pix16 (red : BitVec Config.redBits) (green : BitVec Config.greenBits)
    (blue : BitVec Config.blueBits) : Statement (.pix16 red green blue) := fun _ _ => ⟨rfl, rfl⟩

theorem onehot0 : Statement .onehot0 := fun _ _ => ⟨rfl, rfl⟩

theorem onehot1 : Statement .onehot1 := fun _ _ => ⟨rfl, rfl⟩

theorem onehot2 : Statement .onehot2 := fun _ _ => ⟨rfl, rfl⟩

theorem onehot3 : Statement .onehot3 := fun _ _ => ⟨rfl, rfl⟩

theorem img112 (image : Bytes) : Statement (.img112 image) :=
  fun _ h => ⟨rfl, by simp [WellFormed, Instr.isWellFormed] at h; exact h⟩

theorem img40 (image : Bytes) : Statement (.img40 image) :=
  fun _ h => ⟨rfl, by simp [WellFormed, Instr.isWellFormed] at h; exact h⟩

theorem resp (answer : Bytes) : Statement (.resp answer) :=
  fun _ h => ⟨rfl, by simp [WellFormed, Instr.isWellFormed] at h; exact h⟩

theorem chunk (slice : Bytes) : Statement (.chunk slice) :=
  fun _ h => ⟨rfl, by simp [WellFormed, Instr.isWellFormed] at h; exact h⟩

theorem writeCommand (direction : Direction) (command : Byte) (payload : Bytes) : Statement (.writeCommand direction command payload) :=
  fun _ _ => ⟨rfl, rfl⟩

theorem readResponse (command : Byte) (length : Nat) : Statement (.readResponse command length) := fun _ _ => ⟨rfl, rfl⟩

theorem setWindow (x0 : U16) (y0 : U16) (x1 : U16) (y1 : U16) : Statement (.setWindow x0 y0 x1 y1) := fun _ _ => ⟨rfl, rfl⟩

theorem streamPixels (buffer : Bytes) : Statement (.streamPixels buffer) := fun _ _ => ⟨rfl, rfl⟩

theorem packPixel (r : Channel) (g : Channel) (b : Channel) : Statement (.packPixel r g b) := fun _ _ => ⟨rfl, rfl⟩

theorem decodeStatus (bytes : Bytes) : Statement (.decodeStatus bytes) := fun _ _ => ⟨rfl, rfl⟩

theorem readStatus : Statement .readStatus := fun _ _ => ⟨rfl, rfl⟩

theorem gammaDecode (bytes : Bytes) : Statement (.gammaDecode bytes) := fun _ _ => ⟨rfl, rfl⟩

theorem gammaEncode (table : GammaRecord Int) : Statement (.gammaEncode table) := fun _ _ => ⟨rfl, rfl⟩

theorem loadCal (p : Polarity) : Statement (.loadCal p) := fun _ _ => ⟨rfl, rfl⟩

theorem attach : Statement .attach := fun _ _ => ⟨rfl, rfl⟩

theorem setField (p : Polarity) (f : GammaField) (value : Int) : Statement (.setField p f value) := fun _ _ => ⟨rfl, rfl⟩

theorem push (p : Polarity) : Statement (.push p) := fun _ _ => ⟨rfl, rfl⟩

theorem selectCurve (curve : Int) : Statement (.selectCurve curve) := fun _ _ => ⟨rfl, rfl⟩

theorem enterCustom : Statement .enterCustom := fun _ _ => ⟨rfl, rfl⟩

theorem startup : Statement .startup := fun _ _ => ⟨rfl, rfl⟩

end Sys2Proof.Laws.RowShape
end

