-- ==== Sys2Proof/Tests/Slice0.lean ====
section
/-! SUPPORT. The model's own tests. Expected values are those of spec/95_test_vectors.md (the vector is named), of the rule named, or
computed by hand from it. Then, for every statement with hypotheses, states and operands that meet them, each clause at a
boundary value of its range. -/

namespace Sys2Proof.Tests

open Machine Claims

/-! ### Small states -/

/-- An idle block with nothing queued and no file, with the write outcomes to come. -/
def idle (ws : List WriteDraw) : State :=
  { State.reset with rx := [], nvs := Banks.all none, draws := ⟨ws, [], [], [], 0⟩ }

/-- The state an outcome gives, if it gives one. -/
def after (o : Out) : Option State :=
  match o with
  | .next t => some t
  | .fault _ => none
  | .refused _ => none

/-- The refusal an outcome is, if it is one. -/
def refusal (o : Out) : Option Refusal :=
  match o with
  | .next _ => none
  | .fault _ => none
  | .refused r => some r

/-- What an outcome leaves in `TX`. -/
def sent (o : Out) : Option Bytes := (after o).map State.tx

/-- What an outcome reports. -/
def told (o : Out) : Option (List Result) := (after o).map State.results

/-- The table of V-G4. -/
def tableG4 : GammaTable := ⟨13, 0, 4, 13, 17, 19, 0, 11, 63, 5, 4, 81, 2, 15, 19, 12, 44, 51⟩

/-- The image of V-G4. -/
def imageG4 : Bytes := [0xD0, 0x04, 0x0D, 0x11, 0x13, 0x0B, 0x3F, 0x54, 0x51, 0x2F, 0x13, 0x0C, 0x2C, 0x33]

/-- So many zero bytes. -/
def zeros (n : Nat) : Bytes := List.replicate n 0

@[simp] theorem zeros_length (n : Nat) : (zeros n).length = n := List.length_replicate

/-! ### WellFormed refuses an ill-formed term at each check -/

theorem test_wf_fWrite_too_long : ¬ WellFormed bindingB1 (.fWrite 0x5A (zeros 16385)) := by
  simp [WellFormed, Instr.isWellFormed, Config.maxChunk]

theorem test_wf_fWrite_is_continuation : ¬ WellFormed bindingB1 (.fWrite 0x00 [0x11]) := by decide

theorem test_wf_fWrite_is_caset : ¬ WellFormed bindingB1 (.fWrite 0x2A [0, 0, 0, 0]) := by decide

theorem test_wf_fWrite_is_ramwr : ¬ WellFormed bindingB1 (.fWrite 0x2C []) := by decide

theorem test_wf_fWrite_is_gamset : ¬ WellFormed bindingB1 (.fWrite 0x26 [0x08]) := by decide

theorem test_wf_fWrite_is_pvgam : ¬ WellFormed bindingB1 (.fWrite 0xE0 imageG4) := by decide

theorem test_wf_fWrite_gamset_not_one_hot : WellFormed bindingB1 (.fWrite 0x26 [0x10]) := by decide

theorem test_wf_fRead_too_long : ¬ WellFormed bindingB1 (.fRead 0x5A 16385) := by decide

theorem test_wf_fRead_is_rddst : ¬ WellFormed bindingB1 (.fRead 0x09 5) := by decide

theorem test_wf_fCont_empty : ¬ WellFormed bindingB1 (.fCont []) := by decide

theorem test_wf_fCont_too_long : ¬ WellFormed bindingB1 (.fCont (zeros 16385)) := by
  simp [WellFormed, Instr.isWellFormed, Config.maxChunk]

theorem test_wf_fPvgam_short : ¬ WellFormed bindingB1 (.fPvgam [0]) := by decide

theorem test_wf_fNvgam_long : ¬ WellFormed bindingB1 (.fNvgam (0 :: imageG4)) := by decide

theorem test_wf_img112_short : ¬ WellFormed bindingB1 (.img112 []) := by decide

theorem test_wf_img40_long : ¬ WellFormed bindingB1 (.img40 [0, 0, 0, 0, 0, 0]) := by decide

theorem test_wf_resp_too_long : ¬ WellFormed bindingB1 (.resp (zeros 16385)) := by
  simp [WellFormed, Instr.isWellFormed, Config.maxChunk]

theorem test_wf_chunk_empty : ¬ WellFormed bindingB1 (.chunk []) := by decide

theorem test_wf_chunk_too_long : ¬ WellFormed bindingB1 (.chunk (zeros 16385)) := by
  simp [WellFormed, Instr.isWellFormed, Config.maxChunk]

/-! ### Words decode: every constructor, from the bytes of R51 to R66 under binding B1 -/

theorem test_decode_fWrite :
    decode bindingB1 .frame [0x00, 0x5A, 0x02, 0x00, 0x11, 0x22] = .ok (.fWrite 0x5A [0x11, 0x22]) := by decide

theorem test_decode_fRead : decode bindingB1 .frame [0x01, 0x5A, 0x2C, 0x01] = .ok (.fRead 0x5A 300) := by decide

theorem test_decode_fCont : decode bindingB1 .frame [0x00, 0x00, 0x02, 0x00, 0x11, 0x22] = .ok (.fCont [0x11, 0x22]) := by
  decide

theorem test_decode_fCaset :
    decode bindingB1 .frame [0x00, 0x2A, 0x04, 0x00, 0x12, 0x34, 0xFF, 0xFF] = .ok (.fCaset 0x1234 0xFFFF) := by decide

theorem test_decode_fRaset :
    decode bindingB1 .frame [0x00, 0x2B, 0x04, 0x00, 0xAB, 0xCD, 0x00, 0xFF] = .ok (.fRaset 0xABCD 0x00FF) := by decide

theorem test_decode_fRamwr : decode bindingB1 .frame [0x00, 0x2C, 0x00, 0x00] = .ok .fRamwr := by decide

theorem test_decode_fGamset : decode bindingB1 .frame [0x00, 0x26, 0x01, 0x00, 0x04] = .ok (.fGamset 2) := by decide

theorem test_decode_fPvgam : decode bindingB1 .frame ([0x00, 0xE0, 0x0E, 0x00] ++ imageG4) = .ok (.fPvgam imageG4) := by
  decide

theorem test_decode_fNvgam : decode bindingB1 .frame ([0x00, 0xE1, 0x0E, 0x00] ++ imageG4) = .ok (.fNvgam imageG4) := by
  decide

theorem test_decode_fRddst : decode bindingB1 .frame [0x01, 0x09, 0x05, 0x00] = .ok .fRddst := by decide

theorem test_decode_win : decode bindingB1 .win [0xAB, 0xCD, 0x00, 0xFF] = .ok (.win 0xABCD 0x00FF) := by decide

theorem test_decode_pix16 : decode bindingB1 .pix16 [0x00, 0xFC] = .ok (.pix16 31 32 0) := by decide

theorem test_decode_onehot0 : decode bindingB1 .onehot8 [0x01] = .ok .onehot0 := by decide

theorem test_decode_onehot1 : decode bindingB1 .onehot8 [0x02] = .ok .onehot1 := by decide

theorem test_decode_onehot2 : decode bindingB1 .onehot8 [0x04] = .ok .onehot2 := by decide

theorem test_decode_onehot3 : decode bindingB1 .onehot8 [0x08] = .ok .onehot3 := by decide

theorem test_decode_img112 : decode bindingB1 .img112 imageG4 = .ok (.img112 imageG4) := by decide

theorem test_decode_img40 :
    decode bindingB1 .img40 [0xA4, 0x53, 0x04, 0x00, 0x00] = .ok (.img40 [0xA4, 0x53, 0x04, 0x00, 0x00]) := by decide

theorem test_decode_resp : decode bindingB1 .resp [0xA4, 0x53] = .ok (.resp [0xA4, 0x53]) := by decide

theorem test_decode_chunk : decode bindingB1 .chunk [0x1F] = .ok (.chunk [0x1F]) := by decide

theorem test_decode_writeCommand :
    decode bindingB1 .hostop [0x01, 0x00, 0x5A, 0x02, 0x11, 0x22] = .ok (.writeCommand .write 0x5A [0x11, 0x22]) := by
  decide

theorem test_decode_readResponse : decode bindingB1 .hostop [0x02, 0x5A, 0xAC, 0x02] = .ok (.readResponse 0x5A 300) := by
  decide

theorem test_decode_setWindow :
    decode bindingB1 .hostop [0x03, 0x34, 0x12, 0xCD, 0xAB, 0xFF, 0xFF, 0xFF, 0x00] =
      .ok (.setWindow 0x1234 0xABCD 0xFFFF 0x00FF) := by decide

theorem test_decode_streamPixels : decode bindingB1 .hostop [0x04, 0x02, 0x00, 0xF8] = .ok (.streamPixels [0x00, 0xF8]) := by
  decide

theorem test_decode_packPixel :
    decode bindingB1 .hostop [0x05, 0x00, 0xFE, 0x03, 0x00, 0x01, 0x01, 0x02, 0x01] =
      .ok (.packPixel (.int 255) (.int (-1)) (.float 1 (-1))) := by decide

theorem test_decode_decodeStatus : decode bindingB1 .hostop [0x06, 0x01, 0xA4] = .ok (.decodeStatus [0xA4]) := by decide

theorem test_decode_readStatus : decode bindingB1 .hostop [0x07] = .ok .readStatus := by decide

theorem test_decode_gammaDecode : decode bindingB1 .hostop [0x08, 0x00] = .ok (.gammaDecode []) := by decide

theorem test_decode_gammaEncode :
    decode bindingB1 .hostop [0x09, 0x1E, 0x01, 0, 0, 0, 0, 0, 0, 0, 0, 0, 0, 0, 0, 0, 0, 0, 0x80, 0x01] =
      .ok (.gammaEncode ⟨15, -1, 0, 0, 0, 0, 0, 0, 0, 0, 0, 0, 0, 0, 0, 0, 0, 64⟩) := by decide

theorem test_decode_loadCal : decode bindingB1 .hostop [0x0A, 0x01] = .ok (.loadCal .negative) := by decide

theorem test_decode_attach : decode bindingB1 .hostop [0x0B] = .ok .attach := by decide

theorem test_decode_setField :
    decode bindingB1 .hostop [0x0C, 0x00, 0x0C, 0x09] = .ok (.setField .positive .j1 (-5)) := by decide

theorem test_decode_push : decode bindingB1 .hostop [0x0D, 0x00] = .ok (.push .positive) := by decide

theorem test_decode_selectCurve : decode bindingB1 .hostop [0x0E, 0x04] = .ok (.selectCurve 2) := by decide

theorem test_decode_enterCustom : decode bindingB1 .hostop [0x0F] = .ok .enterCustom := by decide

theorem test_decode_startup : decode bindingB1 .hostop [0x10] = .ok .startup := by decide

theorem test_decode_rejects :
    decode bindingB1 .hostop [0x11] = .error .unknownHostOp ∧
    decode bindingB1 .hostop [0x0A, 0x02] = .error .operandType ∧
    decode bindingB1 .hostop [0x0C, 0x00, 0x12, 0x00] = .error .operandType ∧
    decode bindingB1 .hostop [] = .error .truncated ∧
    decode bindingB1 .frame [0x02, 0x00, 0x00, 0x00] = .error .reservedDirection ∧
    decode bindingB1 .frame [0x00, 0x5A, 0x01, 0x40] = .error .lengthAboveMax ∧
    decode bindingB1 .frame [0x00, 0x5A, 0x01, 0x00] = .error .truncated ∧
    decode bindingB1 .onehot8 [0x03] = .error .notOneHot ∧
    decode bindingB1 .win [0x00] = .error .wrongLength := by decide

/-- The words of four rows of spec/opcode_table.json, numbered as the table numbers them. -/
theorem test_table_words :
    decodeTableWord 8 0x0F = some .enterCustom ∧ decodeTableWord 8 0x03 = some (.setWindow 0 0 0 0) ∧
    decodeTableWord 32 0x00000000 = some (.fWrite 0x00 []) ∧ decodeTableWord 8 0x11 = none := ⟨rfl, rfl, rfl, rfl⟩

/-- The word of a row, placed where the machine fetches, is what the next step runs. -/
theorem test_fetch_word : (after (step (State.withFetchWord (idle []) 8 0x0F))).map State.mode = some .custom := rfl

/-! ### One operation at a time: the frame rows -/

theorem test_fWrite_sends :
    sent (exec (.fWrite 0x5A [0x11, 0x22]) (idle [.done])) = some [0x00, 0x5A, 0x02, 0x00, 0x11, 0x22] := rfl

theorem test_fRead_sends : sent (exec (.fRead 0x5A 300) (idle [.done])) = some [0x01, 0x5A, 0x2C, 0x01] := rfl

/-- V-P19, the second frame. -/
theorem test_fCont_sends :
    sent (exec (.fCont [0x00, 0xF8, 0xE0, 0x07, 0x1F, 0x00]) (idle [.done])) =
      some [0x00, 0x00, 0x06, 0x00, 0x00, 0xF8, 0xE0, 0x07, 0x1F, 0x00] := rfl

/-- V-P4, the first frame. -/
theorem test_fCaset_sends :
    sent (exec (.fCaset 0x1234 0xFFFF) (idle [.done])) =
      some [0x00, Config.cmdCaset, 0x04, 0x00, 0x12, 0x34, 0xFF, 0xFF] := rfl

/-- V-P4, the second frame. -/
theorem test_fRaset_sends :
    sent (exec (.fRaset 0xABCD 0x00FF) (idle [.done])) =
      some [0x00, Config.cmdRaset, 0x04, 0x00, 0xAB, 0xCD, 0x00, 0xFF] := rfl

theorem test_fRamwr_sends : sent (exec .fRamwr (idle [.done])) = some [0x00, Config.cmdRamwr, 0x00, 0x00] := rfl

/-- V-C8's frame. -/
theorem test_fGamset_sends : sent (exec (.fGamset 2) (idle [.done])) = some [0x00, Config.cmdGamset, 0x01, 0x00, 0x04] := rfl

theorem test_fPvgam_sends :
    sent (exec (.fPvgam imageG4) (idle [.done])) = some ([0x00, Config.cmdPvgam, 0x0E, 0x00] ++ imageG4) := rfl

/-- V-C9's frame. -/
theorem test_fNvgam_sends :
    sent (exec (.fNvgam imageG4) (idle [.done])) = some ([0x00, Config.cmdNvgam, 0x0E, 0x00] ++ imageG4) := rfl

theorem test_fRddst_sends : sent (exec .fRddst (idle [.done])) = some [0x01, Config.cmdRddst, 0x05, 0x00] := rfl

/-! ### The payload rows -/

theorem test_win_forms :
    told (exec (.win 0x1234 0xFFFF) (idle [])) = some [.ok (.bytes [0x12, 0x34, 0xFF, 0xFF])] := rfl

/-- V-X6. -/
theorem test_pix16_forms : told (exec (.pix16 1 1 1) (idle [])) = some [.ok (.bytes [0x21, 0x08])] := rfl

theorem test_onehot0_forms : told (exec .onehot0 (idle [])) = some [.ok (.bytes [0x01])] := rfl

theorem test_onehot1_forms : told (exec .onehot1 (idle [])) = some [.ok (.bytes [0x02])] := rfl

theorem test_onehot2_forms : told (exec .onehot2 (idle [])) = some [.ok (.bytes [0x04])] := rfl

theorem test_onehot3_forms : told (exec .onehot3 (idle [])) = some [.ok (.bytes [0x08])] := rfl

/-- V-G4. -/
theorem test_img112_decodes : told (exec (.img112 imageG4) (idle [])) = some [.ok (.gamma tableG4)] := rfl

/-- V-S13: a 6-byte image. -/
theorem test_img40_rejects_length :
    told (exec (.img40 [0xA4, 0x53, 0x04, 0x00, 0x00, 0x00]) (idle [])) = some [.err .malformedRegister] := rfl

/-- R221: a stale byte comes first, and one byte of the answer stays behind. -/
theorem test_resp_takes_the_front :
    (after (exec (.resp [0xA4, 0x53]) { idle [] with rx := [0x77], draws := ⟨[], [⟨[], 2⟩], [], [], 0⟩ })).map
      (fun t => (t.results, t.rx)) = some ([.ok (.bytes [0x77, 0xA4])], [0x53]) := rfl

theorem test_chunk_forms : told (exec (.chunk [0x1F, 0x00]) (idle [])) = some [.ok (.bytes [0x1F, 0x00])] := rfl

/-! ### The host operations -/

/-- V-T13: the first five of seven bytes. -/
theorem test_writeCommand_partial :
    (after (exec (.writeCommand .write 0xCC [0x01, 0x02, 0x03]) (idle [.failed 5]))).map (fun t => (t.tx, t.results)) =
      some ([0x00, 0xCC, 0x03, 0x00, 0x01], [.err .transportError]) := rfl

/-- V-T10. -/
theorem test_writeCommand_read_with_payload :
    refusal (exec (.writeCommand .read 0xCC [0x00]) (idle [])) = some .readFrameWithPayload := rfl

/-- V-T15. -/
theorem test_readResponse_full :
    (after (perform (.readResponse 0xCC 5)
        { idle [.done] with draws := ⟨[.done], [⟨[0xA4, 0x53, 0x04, 0x00, 0x00], 5⟩], [], [], 0⟩ })).map
      (fun t => (t.tx, t.rx, t.results)) =
      some ([0x01, 0xCC, 0x05, 0x00], [], [.ok (.bytes [0xA4, 0x53, 0x04, 0x00, 0x00])]) := rfl

/-- V-T16. -/
theorem test_readResponse_short :
    told (perform (.readResponse 0xCC 5) { idle [] with draws := ⟨[.done], [⟨[0xA4, 0x53], 2⟩], [], [], 0⟩ }) =
      some [.err .shortRead] := rfl

/-- V-P4. -/
theorem test_setWindow_sends :
    sent (perform (.setWindow 0x1234 0xABCD 0xFFFF 0x00FF) (idle [.done, .done])) =
      some [0x00, Config.cmdCaset, 0x04, 0x00, 0x12, 0x34, 0xFF, 0xFF,
        0x00, Config.cmdRaset, 0x04, 0x00, 0xAB, 0xCD, 0x00, 0xFF] := rfl

/-- V-P5c: the first write fails after three bytes. -/
theorem test_setWindow_fails :
    (after (perform (.setWindow 0 0 239 239) (idle [.failed 3]))).map (fun t => (t.tx, t.results)) =
      some ([0x00, Config.cmdCaset, 0x04], [.err .transportError]) := rfl

/-- V-P19. -/
theorem test_streamPixels_sends :
    sent (perform (.streamPixels [0x00, 0xF8, 0xE0, 0x07, 0x1F, 0x00]) (idle [.done, .done])) =
      some [0x00, Config.cmdRamwr, 0x00, 0x00, 0x00, 0x00, 0x06, 0x00, 0x00, 0xF8, 0xE0, 0x07, 0x1F, 0x00] := rfl

/-- V-P7: no continuation frame for the empty buffer. -/
theorem test_streamPixels_empty :
    sent (perform (.streamPixels []) (idle [.done])) = some [0x00, Config.cmdRamwr, 0x00, 0x00] := rfl

/-- V-X12: 33, 65, 33 are masked to 1, 1, 1. -/
theorem test_packPixel_masks :
    told (exec (.packPixel (.int 33) (.int 65) (.int 33)) (idle [])) = some [.ok (.bytes [0x21, 0x08])] := rfl

/-- V-X15. -/
theorem test_packPixel_float :
    refusal (exec (.packPixel (.float 1 (-1)) (.float 1 (-1)) (.float 1 (-1))) (idle [])) = some .floatChannel := rfl

/-- V-S1, under `LAYOUT_LITERAL`: seven flags and gamma 2, no pad bit. -/
theorem test_statusDecode_literal :
    statusDecode bindingB1 [0xA4, 0x53, 0x04, 0x00, 0x00] =
      some (⟨1, 0, 1, 0, 0, 1, 0, 0, 0, 1, 0, 1, 0, 0, 1, 1, 0, 0, 2⟩, false) := by decide

/-- V-S12: a 4-byte image. -/
theorem test_decodeStatus_rejects_length :
    told (exec (.decodeStatus [0xA4, 0x53, 0x04, 0x00]) (idle [])) = some [.err .malformedRegister] := rfl

/-- V-S16: three bytes, then the timeout. -/
theorem test_readStatus_short :
    (after (perform .readStatus { idle [] with draws := ⟨[.done], [⟨[0xA4, 0x53, 0x04], 3⟩], [], [], 0⟩ })).map
      (fun t => (t.tx, t.rx, t.results)) = some ([0x01, Config.cmdRddst, 0x05, 0x00], [], [.err .shortRead]) := rfl

/-- V-G7: the padding of the input is ignored. -/
theorem test_gammaDecode_ignores_padding :
    told (exec (.gammaDecode [0x12, 0xC3, 0xFF, 0xE1, 0x80, 0xEA, 0x80, 0x88, 0xFF, 0x55, 0xAA, 0x3C, 0x7E, 0x81]) (idle [])) =
      some [.ok (.gamma ⟨1, 2, 3, 63, 1, 0, 2, 10, 0, 0, 0, 127, 1, 5, 10, 28, 62, 1⟩)] := rfl

/-- V-G5: every value over its width is masked. -/
theorem test_gammaEncode_masks :
    told (exec (.gammaEncode ⟨31, 16, 0, 0, 0, 0, 4, 0, 128, 9, 15, 0, 0, 0, 0, 0, 0, 127⟩) (idle [])) =
      some [.ok (.bytes [0xF0, 0, 0, 0, 0, 0, 0, 0x17, 0, 0, 0, 0, 0, 0x3F])] := rfl

/-- V-C17. -/
theorem test_loadCal_present :
    (after (perform (.loadCal .positive)
        { idle [] with nvs := Banks.of (some imageG4) none, draws := ⟨[], [], [.answered], [], 0⟩ })).map
      (fun t => (t.gt.get .positive, t.notified, t.results)) = some (tableG4, [.positive], [.ok .none]) := rfl

/-- V-C18: a 13-byte file. -/
theorem test_loadCal_foreign_length :
    (after (perform (.loadCal .negative)
        { idle [] with nvs := Banks.of none (some (imageG4.take 13)), draws := ⟨[], [], [.answered], [], 0⟩ })).map
      (fun t => (t.gt.get .negative, t.notified, t.results)) = some (GammaTable.zero, [], [.err .malformedRegister]) := rfl

/-- V-C23: a short read leaves `MODE`. -/
theorem test_attach_short :
    (after (perform .attach { idle [] with mode := .custom, draws := ⟨[.done], [⟨[0xA4, 0x53], 2⟩], [], [], 0⟩ })).map
      (fun t => (t.mode, t.results)) = some (.custom, [.err .shortRead]) := rfl

/-- V-C22's last step: `gamma` 4 is refused. -/
theorem test_attach_refused : refusal (resume bindingB1 (.derive 4 .host) (idle [])) = some .attachGammaOutOfRange := rfl

/-- V-C1: 20 into a 4-bit register. -/
theorem test_setField_clamps :
    (after (exec (.setField .positive .v63 20) { idle [] with mode := .fixed 0 })).map
      (fun t => ((t.gt.get .positive).v63, t.tx, t.nvs, t.notified)) = some (15, [], Banks.all none, [.positive]) := rfl

/-- V-C7: in `Custom` mode the file and the device follow. -/
theorem test_setField_pushes :
    (after (perform (.setField .positive .v63 20) { idle [] with mode := .custom, draws := ⟨[.done], [], [], [.done], 0⟩ })).map
      (fun t => (t.nvs.get .positive, t.tx, t.results)) =
      some (some [0xF0, 0, 0, 0, 0, 0, 0, 0, 0, 0, 0, 0, 0, 0],
        [0x00, Config.cmdPvgam, 0x0E, 0x00, 0xF0, 0, 0, 0, 0, 0, 0, 0, 0, 0, 0, 0, 0, 0], [.push .ok .ok]) := rfl

/-- V-C10: the file has the new image, the device did not get it. -/
theorem test_push_device_fails :
    (after (perform (.push .negative)
        { idle [] with mode := .custom, gt := Banks.of GammaTable.zero tableG4, draws := ⟨[.failed 6], [], [], [.done], 0⟩ })).map
      (fun t => (t.nvs.get .negative, t.tx, t.results)) =
      some (some imageG4, [0x00, Config.cmdNvgam, 0x0E, 0x00, 0xD0, 0x04], [.push .ok (.err .transportError)]) := rfl

/-- V-C8. -/
theorem test_push_fixed :
    (after (exec (.push .negative) { idle [.done] with mode := .fixed 2 })).map (fun t => (t.tx, t.nvs, t.results)) =
      some ([0x00, Config.cmdGamset, 0x01, 0x00, 0x04], Banks.all none, [.push .notTouched .ok]) := rfl

/-- V-C12. -/
theorem test_selectCurve_sends :
    (after (perform (.selectCurve 3) (idle [.done]))).map (fun t => (t.mode, t.tx)) =
      some (.fixed 3, [0x00, Config.cmdGamset, 0x01, 0x00, 0x08]) := rfl

/-- V-C14: the mode stays entered. -/
theorem test_selectCurve_fails :
    (after (perform (.selectCurve 1) { idle [.failed 0] with mode := .custom })).map (fun t => (t.mode, t.tx, t.results)) =
      some (.fixed 1, [], [.err .transportError]) := rfl

/-- V-C15. -/
theorem test_enterCustom :
    (after (exec .enterCustom { idle [] with mode := .fixed 1 })).map (fun t => (t.mode, t.tx)) = some (.custom, []) := rfl

/-- R163: both loads and the attach run although each of them fails. -/
theorem test_startup_goes_on :
    (after (perform .startup { idle [] with draws := ⟨[.failed 4], [], [.failed, .failed], [], 0⟩ })).map
      (fun t => (t.tx, t.results, t.mode)) =
      some ([0x01, Config.cmdRddst, 0x05, 0x00],
        [.startup (.err .fileAccessError) (.err .fileAccessError) (.err .transportError)], .unattached) := rfl

/-- V-T14: a write that never returns gives no result and no further step. -/
theorem test_blocked_write :
    (after (exec (.writeCommand .write 0xCC [0x01]) (idle [.blocked 2]))).map (fun t => (t.busy, t.tx, t.results)) =
      some (some .blocked, [0x00, 0xCC], []) := rfl

/-! ### Witnesses: the hypotheses of the statements, met by concrete states and operands

Each names the statement it is for. A statement over operands that has no hypothesis needs none. -/

theorem witness_EncodedInstructionsDecode :
    bindingB1.cmdDistinct = true ∧ bindingB1.opDistinct = true ∧ WellFormed bindingB1 (.fCaset 0 319) ∧ WellFormed bindingB1 (.fRead 0x5A 16384) ∧
      WellFormed bindingB1 (.chunk (zeros 16384)) ∧ WellFormed bindingB1 (.setField .negative .v62 (-1)) := by
  refine ⟨by decide, by decide, by decide, by decide, ?_, by decide⟩
  simp [WellFormed, Instr.isWellFormed, Config.maxChunk]

theorem witness_DecodedInstructionsAreWellFormed :
    decode bindingB1 .frame [0x00, 0x26, 0x01, 0x00, 0x10] = .ok (.fWrite 0x26 [0x10]) ∧
      decode Config.params .hostop [0x0A, 0x00] = .ok (.loadCal .positive) := ⟨by decide, rfl⟩

/-- Frames at both ends of the length: an empty write, a full write, a read of `MAX_CHUNK` bytes. -/
theorem witness_FramesAreCutBack :
    (∀ f ∈ [(⟨.write, 0x2C, 0, []⟩ : Frame), ⟨.write, 0, 16384, zeros 16384⟩, ⟨.read, 0x5A, 16384, []⟩], f.wf = true) ∧
      framesBytes [⟨.write, 0x2C, 0, []⟩] = framesBytes [⟨.write, 0x2C, 0, []⟩] := by
  refine ⟨?_, rfl⟩
  intro f hf
  simp only [List.mem_cons, List.not_mem_nil, or_false] at hf
  rcases hf with rfl | rfl | rfl
  · rfl
  · simp [Frame.wf, Config.maxChunk]
  · rfl

theorem witness_ByteAssembly : (0 : Nat) ≤ 65535 ∧ (65535 : Nat) ≤ 65535 := by decide

theorem witness_MaskAndClamp : (15 : Nat) < 2 ^ 4 ∧ 2 ^ 4 ≤ (16 : Nat) := by decide

/-- An idle block with `ENTER_CUSTOM` requested. -/
theorem witness_StepRunsTheRequest :
    let s := { idle [] with inbox := [.request .hostop [0x0F]] }
    s.busy = none ∧ s.inbox = .request .hostop [0x0F] :: [] ∧
      decode Config.params .hostop [0x0F] = .ok .enterCustom := ⟨rfl, rfl, rfl⟩

theorem witness_StepRefusesBadRequests :
    (idle []).busy = none ∧ decode Config.params .hostop [0x00] = .error .unknownHostOp ∧
      decode Config.params .hostop [0x0D, 0x02] = .error .operandType ∧
      decode Config.params .hostop [0x0D] = .error .truncated := ⟨rfl, rfl, rfl, rfl⟩

theorem witness_StepCarriesTheOperationOn :
    let s := { idle [] with busy := some (.curve 2), inbox := [.request .hostop [0x0F]] }
    s.busy = some (.curve 2) ∧ Progress.curve 2 ≠ .blocked ∧ undisturbed s = true := ⟨rfl, nofun, rfl⟩

/-- One state for each event, and the idle block with nothing to come. -/
theorem witness_OutsideEvents :
    let busy := { idle [] with busy := some (.curve 2), inbox := [.quiet] }
    busy.busy ≠ some .blocked ∧ busy.busy = some (.curve 2) ∧ busy.inbox = .quiet :: [] ∧
      (idle []).busy ≠ some .blocked ∧ (idle []).busy = none ∧ (idle []).inbox = [] ∧
      { idle [] with inbox := [.deviceBytes [1]] }.inbox = .deviceBytes [1] :: [] ∧
      { idle [] with inbox := [.handle false] }.inbox = .handle false :: [] := ⟨nofun, rfl, rfl, nofun, rfl, rfl, rfl, rfl⟩

/-- The block before a status read whose answer is the given image, after two store reads that fail. -/
def asking (image : Bytes) : State := { idle [] with draws := ⟨[.done], [⟨image, 5⟩], [.failed, .failed], [], 0⟩ }

/-- The block once that image has been read. -/
def answeredWith (view : StatusView) (pad : Bool) : State :=
  finish (.ok (.status view))
    { idle [] with tx := [0x01, Config.cmdRddst, 0x05, 0x00], diagStatusPad := padFlag pad,
                   draws := ⟨[], [], [.failed, .failed], [], 0⟩ }

theorem read_zeros {view : StatusView} {pad : Bool}
    (h : statusDecode Config.params [0, 0, 0, 0, 0] = some (view, pad)) :
    perform .readStatus (asking [0, 0, 0, 0, 0]) = .next (answeredWith view pad) := by
  show settle Config.params 5 (decodeStatus Config.params [0, 0, 0, 0, 0] .host _) = _
  simp only [decodeStatus, h]
  rfl

theorem read_ones {view : StatusView} {pad : Bool}
    (h : statusDecode Config.params [0xFF, 0xFF, 0xFF, 0xFF, 0xFF] = some (view, pad)) :
    perform .readStatus (asking [0xFF, 0xFF, 0xFF, 0xFF, 0xFF]) = .next (answeredWith view pad) := by
  show settle Config.params 5 (decodeStatus Config.params [0xFF, 0xFF, 0xFF, 0xFF, 0xFF] .host _) = _
  simp only [decodeStatus, h]
  rfl

/-- The all-ones image gives `gamma` 7, which an attach refuses. -/
theorem attach_ones : perform .attach (asking [0xFF, 0xFF, 0xFF, 0xFF, 0xFF]) = .refused .attachGammaOutOfRange := by
  obtain ⟨view, pad, h, hg⟩ := statusDecode_ones
  show settle Config.params 5 (decodeStatus Config.params [0xFF, 0xFF, 0xFF, 0xFF, 0xFF] (.attach .host) _) = _
  simp only [decodeStatus, h, deliverStatus, hg]
  rfl

/-- A write to its end, a read to its end, and an attach that is refused after its read. -/
theorem witness_PerformIsARun :
    (undisturbed (asking [0xFF, 0xFF, 0xFF, 0xFF, 0xFF]) = true ∧
      (∃ u, exec .attach (asking [0xFF, 0xFF, 0xFF, 0xFF, 0xFF]) = .next u) ∧
      ∃ r, perform .attach (asking [0xFF, 0xFF, 0xFF, 0xFF, 0xFF]) = .refused r) ∧
    undisturbed (idle [.done, .done]) = true ∧ (∃ u, exec (.streamPixels [1]) (idle [.done, .done]) = .next u) ∧
      ∃ t, perform (.streamPixels [1]) (idle [.done, .done]) = .next t :=
  ⟨⟨rfl, ⟨_, rfl⟩, _, attach_ones⟩, rfl, ⟨_, rfl⟩, _, rfl⟩

theorem witness_OperationsEnd :
    (∃ t, perform (.setWindow 0 0 1 1) (idle [.done, .done]) = .next t ∧ t.busy = none) ∧
      ∃ t, perform (.setWindow 0 0 1 1) (idle [.done, .blocked 3]) = .next t ∧ t.busy = some .blocked :=
  ⟨⟨_, rfl, rfl⟩, _, rfl, rfl⟩

/-- Inside a push in `Custom` mode, before its file part. -/
def pushing : State := { idle [.done] with mode := .custom, busy := some (.pushFile .positive), draws := ⟨[.done], [], [], [.done], 0⟩ }

theorem pushing_consistent : Consistent pushing :=
  ⟨fun p h => by cases h; rfl, fun h => absurd rfl h⟩

/-- Inside a stream of `MAX_CHUNK + 1` bytes, before its second continuation frame. -/
def streamingLast : State :=
  { idle [.done] with busy := some (.chunks (zeros 16385)), cur := some 16384 }

theorem witness_ConsistentIsKept :
    (Consistent pushing ∧ ∃ t, step pushing = .next t) ∧
      Consistent streamingLast ∧ ∃ t, step streamingLast = .next t := by
  refine ⟨⟨pushing_consistent, _, rfl⟩, ⟨?_, ?_⟩, _, rfl⟩
  · intro p h
    cases h
    exact ⟨16384, rfl, rfl, by simp⟩
  · intro _
    exact .inr ⟨_, rfl⟩

/-- A step that sends a frame, from a state whose `TX` is empty. -/
theorem witness_FramedIsKept :
    let s := { idle [.done] with busy := some (.curve 2), mode := .fixed 2 }
    Framed s ∧ ∃ t, step s = .next t ∧ t.tx ≠ s.tx :=
  ⟨fun _ => ⟨[], nofun, rfl⟩, _, rfl, nofun⟩

/-- Bytes of the device; a read of 2 bytes of which 1 is queued and 2 arrive; a row `RESP`. -/
theorem witness_HistoriesOnlyGrow :
    (∃ t, step { idle [] with rx := [9], inbox := [.deviceBytes [1]] } = .next t ∧ t.rx = [9, 1]) ∧
    (∃ t, step { idle [] with rx := [9], busy := some (.respond 2 .response), draws := ⟨[], [⟨[1, 2], 2⟩], [], [], 0⟩ } = .next t ∧
      t.rx = [2] ∧ t.results = [.ok (.bytes [9, 1])]) ∧
    (∃ t, step { idle [] with inbox := [.request .resp [1]], draws := ⟨[], [⟨[], 1⟩], [], [], 0⟩ } = .next t ∧ t.rx = []) :=
  ⟨⟨_, rfl, rfl⟩, ⟨_, rfl, rfl, rfl⟩, _, rfl, rfl⟩

theorem witness_RestartValues :
    let s := { idle [] with mode := .custom, busy := some (.curve 2), inbox := [.restart] }
    s.busy ≠ some .blocked ∧ s.inbox = .restart :: [] := ⟨nofun, rfl⟩

theorem witness_StuckForEver : { idle [] with busy := some .blocked }.busy = some .blocked := rfl

theorem witness_OneOperationAtATime :
    { idle [] with busy := some (.curve 2) }.busy = some (.curve 2) ∧ Progress.curve 2 ≠ .blocked := ⟨rfl, nofun⟩

/-- The handle withdrawn; a payload, a read and a read frame of exactly `MAX_CHUNK` bytes; both ends of the curve index; the handle
withdrawn while a curve frame is next. -/
theorem witness_ClosedHandleIsRefused :
    let s := { idle [] with handleOpen := false, mode := .custom }
    let u := { idle [] with handleOpen := false, mode := .fixed 2, busy := some (.curve 2) }
    (u.busy = some (.curve 2) ∧ transferNext (.curve 2) = true ∧ u.handleOpen = false ∧ undisturbed u = true) ∧
    (16384 : U16).toNat ≤ Config.maxChunk ∧
    s.busy = none ∧ s.handleOpen = false ∧ (zeros 16384).length ≤ Config.maxChunk ∧ (16384 : Nat) ≤ Config.maxChunk ∧
      s.mode ≠ .unattached ∧ s.mode = .custom ∧ (0 : Int) ≤ 0 ∧ (0 : Int) ≤ 3 ∧ (0 : Int) ≤ 3 ∧ (3 : Int) ≤ 3 := by
  refine ⟨⟨rfl, rfl, rfl, rfl⟩, by decide, rfl, rfl, ?_, by decide, nofun, rfl, by decide, by decide, by decide, by decide⟩
  simp [Config.maxChunk]

/-- A curve frame of 5 bytes: all of it sent; 2 bytes sent by a write that fails; none sent by one that blocks. -/
theorem witness_SendingNeedsTheHandle :
    let s (d : WriteDraw) := { idle [d] with busy := some (.curve 2), mode := .fixed 2 }
    (∃ t, step (s .done) = .next t ∧ t.tx.length = 5) ∧
    (∃ t, step (s (.failed 2)) = .next t ∧ t.tx.length = 2 ∧ t.results = [.err .transportError]) ∧
    (∃ t, step (s (.blocked 0)) = .next t ∧ t.tx.length = 0 ∧ t.busy = some .blocked) :=
  ⟨⟨_, rfl, rfl⟩, ⟨_, rfl, rfl, rfl⟩, ⟨_, rfl, rfl, rfl⟩⟩

theorem witness_ChoicesAreFree :
    (idle []).draws.writes = [] ∧ (idle []).draws.reads = [] ∧ (idle []).draws.nvsReads = [] ∧
      (idle []).draws.nvsWrites = [] := ⟨rfl, rfl, rfl, rfl⟩

/-- Payloads of `MAX_CHUNK` and `MAX_CHUNK + 1` bytes, of one byte, and none. -/
theorem witness_WriteCommand :
    (idle []).busy = none ∧ (idle []).handleOpen = true ∧ Config.maxChunk < (zeros 16385).length ∧
      (zeros 16384).length ≤ Config.maxChunk ∧ (zeros 16384 ≠ []) ∧ (zeros 1 ≠ []) ∧ (zeros 0 = []) := by
  refine ⟨rfl, rfl, ?_, ?_, ?_, nofun, rfl⟩
  · simp [Config.maxChunk]
  · simp [Config.maxChunk]
  · intro h; have := congrArg List.length h; simp at this

theorem witness_ReadResponse :
    (idle []).busy = none ∧ (idle []).handleOpen = true ∧ Config.maxChunk < 16385 ∧ 16384 ≤ Config.maxChunk ∧
      0 ≤ Config.maxChunk := ⟨rfl, rfl, by decide, by decide, by decide⟩

theorem gives {o : Out} {rs : List Result} (h : told o = some rs) : ∃ t, o = .next t ∧ t.results = rs := by
  cases o with
  | next t => exact ⟨t, rfl, Option.some.inj h⟩
  | fault r => cases h
  | refused r => cases h

theorem long_write (payload : Bytes) (h : Config.maxChunk < payload.length) :
    perform (.writeCommand .write 0xCC payload) (idle []) = .next (raise .payloadTooLarge (idle [])) := by
  have he : exec (.writeCommand .write 0xCC payload) (idle []) = .next (raise .payloadTooLarge (idle [])) := if_pos h
  rw [perform, he]
  rfl

/-- A full answer, a short one, and both calls with a size above `MAX_CHUNK`. -/
theorem witness_SizeLaw :
    (∃ t, perform (.writeCommand .write 0xCC [0xAB]) (idle [.done]) = .next t ∧
      t.results = (idle [.done]).results ++ [Result.ok .none]) ∧
    (∃ t, perform (.readResponse 0xCC 5) (asking [1, 2, 3, 4, 5]) = .next t ∧
      ∃ bs, t.results = (asking [1, 2, 3, 4, 5]).results ++ [Result.ok (.bytes bs)]) ∧
    (∃ t, perform (.readResponse 0xCC 5) (asking [1, 2]) = .next t ∧
      t.results = (asking [1, 2]).results ++ [Result.err .shortRead]) ∧
    (∃ t, perform (.readResponse 0xCC 16385) (idle []) = .next t ∧
      t.results = (idle []).results ++ [Result.err .payloadTooLarge]) ∧
    ∃ t, perform (.writeCommand .write 0xCC (zeros 16385)) (idle []) = .next t ∧
      t.results = (idle []).results ++ [Result.err .payloadTooLarge] := by
  have full : told (perform (.readResponse 0xCC 5) (asking [1, 2, 3, 4, 5])) = some [.ok (.bytes [1, 2, 3, 4, 5])] := rfl
  refine ⟨gives rfl, ?_, gives rfl, gives rfl, _, long_write _ ?_, rfl⟩
  · obtain ⟨t, h, hr⟩ := gives full
    exact ⟨t, h, _, hr⟩
  simp [Config.maxChunk]

/-- The machine's build, and one with the bias 1: an end bound of 0, and both end bounds 1. -/
theorem witness_SetWindow :
    (idle []).busy = none ∧ (idle []).handleOpen = true ∧ bindingB1.windowEndBias = 0 ∧
      { bindingB1 with windowEndBias := 1 }.windowEndBias = 1 ∧ ((0 : U16) = 0 ∨ (7 : U16) = 0) ∧
      ((1 : U16) ≠ 0 ∧ (1 : U16) ≠ 0) := by
  refine ⟨rfl, rfl, rfl, rfl, ?_, ?_⟩ <;> decide

theorem witness_StreamPixels : (idle []).busy = none ∧ (idle []).handleOpen = true := ⟨rfl, rfl⟩

/-- A successful stream of one byte; a first chunk that is not the last; a buffer that is not empty. -/
theorem witness_ChunkLaw :
    (∃ t, perform (.streamPixels [1]) (idle [.done, .done]) = .next t ∧
      t.results = (idle [.done, .done]).results ++ [Result.ok .none]) ∧
    0 + 1 < chunkCount (zeros 16385).length ∧ zeros 16385 ≠ [] := by
  refine ⟨⟨_, rfl, rfl⟩, by rw [zeros_length]; decide, ?_⟩
  intro h; have := congrArg List.length h; simp at this

theorem witness_PackPixel :
    (idle []).busy = none ∧ ((-1 : Int) < 0 ∨ (0 : Int) < 0 ∨ (0 : Int) < 0) ∧
      (channelRefusal (.int 31)).or ((channelRefusal (.float 1 (-1))).or (channelRefusal (.int (-1)))) = some .floatChannel ∧
      (channelRefusal (.int (-1))).or ((channelRefusal (.float 1 (-1))).or (channelRefusal (.float 0 0))) =
        some .negativeChannel := ⟨rfl, by decide, rfl, rfl⟩

theorem witness_StatusLengthLaw :
    (idle []).busy = none ∧ ([0, 0, 0, 0] : Bytes).length ≠ 5 ∧ ([0, 0, 0, 0, 0, 0] : Bytes).length ≠ 5 ∧
      ([0, 0, 0, 0, 0] : Bytes).length = 5 := by decide

/-- `LAYOUT_LITERAL`: admissible; its first and its last named segment; its reserved segment at stream position 23. -/
theorem witness_DecodeStatus :
    (idle []).busy = none ∧ bindingB1.statusPadMbz = false ∧
      ([0, 0, 0, 0, 0] : Bytes).length = 5 ∧ ([0, 0, 0, 0] : Bytes).length ≠ 5 ∧
      bindingB1.statusLayout.segments = [] ++ (some .booster, 1) :: layoutLiteral.drop 1 ∧
      bindingB1.statusLayout.segments = layoutLiteral.take 18 ++ (some .gamma, 3) :: layoutLiteral.drop 19 ∧
      bindingB1.statusLayout.segments = layoutLiteral.take 19 ++ (none, 17) :: [] ∧ layoutWidth (layoutLiteral.take 19) = 23 := by
  refine ⟨rfl, rfl, rfl, ?_, rfl, rfl, rfl, rfl⟩
  decide

/-- Two images that differ in a reserved bit alone; a decode; and a must-be-zero build with the last reserved bit 1. -/
theorem witness_ReservedBits :
    (bindingB1.statusPadMbz = false ∧
      (∀ before f w after, bindingB1.statusLayout.segments = before ++ (some f, w) :: after → ∀ j < w,
        bitAt [0, 0, 0, 0, 0] (layoutWidth before + j) = bitAt [0, 0, 0, 0, 0] (layoutWidth before + j))) ∧
    (∃ view, statusDecode bindingB1 [0, 0, 1, 0, 0] = some (view, true)) ∧
    (∃ cfg : Params, cfg.statusPadMbz = true ∧
        cfg.statusLayout.segments = layoutLiteral.take 19 ++ (none, 17) :: [] ∧ 16 < 17 ∧
        bitAt [0, 0, 0, 0, 1] (layoutWidth (layoutLiteral.take 19) + 16) = true) :=
  ⟨⟨rfl, fun _ _ _ _ _ _ _ => rfl⟩, ⟨_, rfl⟩, { bindingB1 with statusPadMbz := true }, rfl, rfl, by decide, by decide⟩

theorem witness_ReadStatus : (idle []).busy = none ∧ (idle []).handleOpen = true := ⟨rfl, rfl⟩

theorem witness_GammaDecode : (idle []).busy = none := rfl

/-- The zero table, and one with a negative entry. -/
theorem witness_GammaEncode :
    (idle []).busy = none ∧ (∀ f, 0 ≤ recordGet (⟨0, 0, 0, 0, 0, 0, 0, 0, 0, 0, 0, 0, 0, 0, 0, 0, 0, 0⟩ : GammaRecord Int) f) ∧
      recordGet (⟨0, -1, 0, 0, 0, 0, 0, 0, 0, 0, 0, 0, 0, 0, 0, 0, 0, 0⟩ : GammaRecord Int) .v0 < 0 := by
  refine ⟨rfl, ?_, by decide⟩
  intro f
  cases f <;> decide

/-- A file of 14 bytes, all ones: loaded, then pushed with a file write that succeeds. -/
theorem witness_GammaImageRoundTrip :
    let bs : Bytes := List.replicate 14 0xFF
    let s := { idle [] with nvs := Banks.of (some bs) none, draws := ⟨[.done], [], [.answered], [.done], 0⟩ }
    bs.length = 14 ∧ s.busy = none ∧ s.nvs.get .positive = some bs ∧
      ∃ u, perform (.loadCal .positive) s = .next u ∧ u.results = s.results ++ [Result.ok .none] ∧
        ∃ v, perform (.push .positive) { u with mode := .custom } = .next v ∧
          v.results = u.results ++ [Result.push .ok .ok] := ⟨rfl, rfl, rfl, _, rfl, rfl, _, rfl, rfl⟩

theorem witness_LoadCal : (idle []).busy = none := rfl

/-- An attach that is stuck, one with an error, one with `gamma` 0 and one with `gamma` 7. -/
theorem witness_Attach :
    (∃ u, perform .readStatus (idle [.blocked 0]) = .next u ∧ u.busy = some .blocked) ∧
    (∃ u, perform .readStatus (idle [.failed 0]) = .next u ∧
      u.results = (idle [.failed 0]).results ++ [Result.err .transportError]) ∧
    (∃ u view, perform .readStatus (asking [0, 0, 0, 0, 0]) = .next u ∧
      u.results = (asking [0, 0, 0, 0, 0]).results ++ [Result.ok (.status view)] ∧ view.gamma.toNat = (0 : Curve).val) ∧
    ∃ u view, perform .readStatus (asking [0xFF, 0xFF, 0xFF, 0xFF, 0xFF]) = .next u ∧
      u.results = (asking [0xFF, 0xFF, 0xFF, 0xFF, 0xFF]).results ++ [Result.ok (.status view)] ∧ 3 < view.gamma.toNat := by
  obtain ⟨v0, p0, h0, g0⟩ := statusDecode_zeros
  obtain ⟨v1, p1, h1, g1⟩ := statusDecode_ones
  exact ⟨⟨_, rfl, rfl⟩, gives rfl, ⟨_, v0, read_zeros h0, rfl, by rw [g0]; rfl⟩,
    _, v1, read_ones h1, rfl, by rw [g1]; decide⟩

theorem witness_SetField :
    (idle []).busy = none ∧ (idle []).mode = .unattached ∧ { idle [] with mode := .fixed 3 }.mode = .fixed 3 ∧
      { idle [] with mode := .custom }.mode = .custom ∧ { idle [] with mode := .custom }.handleOpen = true :=
  ⟨rfl, rfl, rfl, rfl, rfl⟩

theorem witness_Push :
    (idle []).busy = none ∧ (idle []).mode = .unattached ∧ { idle [] with mode := .fixed 0 }.mode = .fixed 0 ∧
      { idle [] with mode := .custom }.mode = .custom ∧ { idle [] with mode := .custom }.handleOpen = true :=
  ⟨rfl, rfl, rfl, rfl, rfl⟩

theorem witness_SelectCurve :
    (idle []).busy = none ∧ (idle []).handleOpen = true ∧ ((-1 : Int) < 0 ∨ 3 < (-1 : Int)) ∧ ((4 : Int) < 0 ∨ 3 < (4 : Int)) :=
  ⟨rfl, rfl, by decide, by decide⟩

theorem witness_EnterCustom : { idle [] with mode := .custom }.busy = none := rfl

/-- The attach of a start-up that is stuck, one with an error, and one that is refused. -/
theorem witness_Startup :
    let after s := (loaded .negative (loaded .positive s).2).2
    let stuck := { idle [] with draws := ⟨[.blocked 0], [], [.failed, .failed], [], 0⟩ }
    let failed := { idle [] with draws := ⟨[.failed 0], [], [.failed, .failed], [], 0⟩ }
    let ones := asking [0xFF, 0xFF, 0xFF, 0xFF, 0xFF]
    (stuck.busy = none ∧ stuck.handleOpen = true ∧ ∃ u, perform .attach (after stuck) = .next u ∧ u.busy = some .blocked) ∧
    (failed.busy = none ∧ failed.handleOpen = true ∧ ∃ u, perform .attach (after failed) = .next u ∧
      u.results = failed.results ++ [resultOf (.err .transportError)]) ∧
    (ones.busy = none ∧ ones.handleOpen = true ∧ ∃ r, perform .attach (after ones) = .refused r) := by
  refine ⟨⟨rfl, rfl, _, rfl, rfl⟩, ⟨rfl, rfl, _, rfl, rfl⟩, rfl, rfl, .attachGammaOutOfRange, ?_⟩
  obtain ⟨view, pad, h, hg⟩ := statusDecode_ones
  show settle Config.params 5 (decodeStatus Config.params [0xFF, 0xFF, 0xFF, 0xFF, 0xFF] (.attach .host) _) = _
  simp only [decodeStatus, h, deliverStatus, hg]
  rfl

theorem witness_PolaritiesAreIndependent :
    Polarity.negative ≠ .positive ∧ actsOn .positive (.loadCal .positive) = true ∧
      actsOn .positive (.setField .positive .v63 20) = true ∧ actsOn .positive (.push .positive) = true := by decide

theorem witness_CoreReadsNoCalibration :
    outsideCalibration .readStatus = true ∧ outsideCalibration (.img112 imageG4) = true := by decide

/-- A step of each writer of `MODE`: `SELECT_CURVE`, and the last step of an `ATTACH`. -/
theorem witness_WritersOfMode :
    (∃ t, step { idle [] with inbox := [.request .hostop [0x0E, 0x04]] } = .next t ∧ t.mode = .fixed 2) ∧
      ∃ t, step { idle [] with busy := some (.derive 3 .host) } = .next t ∧ t.mode = .fixed 3 := ⟨⟨_, rfl, rfl⟩, _, rfl, rfl⟩

/-- A step that fills a bank and one that sets a register. -/
theorem witness_WritersOfGamma :
    (∃ t, step { idle [] with busy := some (.fill .positive (some imageG4) .host) } = .next t ∧
      (t.gt.get .positive).get .v63 = 13) ∧
    ∃ t, step { idle [] with mode := .fixed 0, inbox := [.request .hostop [0x0C, 0x00, 0x00, 0x28]] } = .next t ∧
      (t.gt.get .positive).get .v63 = 15 := ⟨⟨_, rfl, rfl⟩, _, rfl, rfl⟩

/-- The decode of an image the block has read. -/
theorem witness_WritersOfStatusPad :
    ∃ t, step { idle [] with busy := some (.decode [0, 0, 0, 0, 0] .host) } = .next t := ⟨_, rfl⟩

/-- The file part of a push. -/
theorem witness_WritersOfTheStore :
    Consistent pushing ∧ ∃ t, step pushing = .next t ∧ t.nvs.get .positive ≠ pushing.nvs.get .positive :=
  ⟨pushing_consistent, _, rfl, nofun⟩

/-- Payloads and read lengths on both sides of `MAX_CHUNK`. -/
theorem witness_FrameRows :
    (idle []).busy = none ∧ (idle []).handleOpen = true ∧ (zeros 16384).length ≤ Config.maxChunk ∧
      Config.maxChunk < (zeros 16385).length ∧ (16384 : U16).toNat ≤ Config.maxChunk ∧
      Config.maxChunk < (16385 : U16).toNat ∧ imageG4.length = 14 := by
  refine ⟨rfl, rfl, ?_, ?_, by decide, by decide, rfl⟩ <;> simp [Config.maxChunk]

theorem witness_PayloadRows :
    (idle []).busy = none ∧ (idle []).handleOpen = true ∧ (zeros 16384).length ≤ Config.maxChunk ∧
      Config.maxChunk < (zeros 16385).length := by
  refine ⟨rfl, rfl, ?_, ?_⟩ <;> simp [Config.maxChunk]

/-- The selectors of D3 in reverse are distinct and select their operations; bytes that D3 binds to nothing. -/
theorem witness_Selectors :
    let cfg := { bindingB1 with opIndex := fun op => 0x11 - ordinalIndex op }
    cfg.opDistinct = true ∧ decode cfg .hostop [0x02] = .ok .enterCustom ∧ (∀ op, cfg.opIndex op ≠ 0x11) ∧
      (0x10 < (0x11 : Byte).toNat) := by
  refine ⟨by decide, by decide, fun op => ?_, by decide⟩
  cases op <;> decide

end Sys2Proof.Tests
end

/-! PROOFS of the family of spec/00_scope.md: the fixed parameters (R6), the selectors (R7, R70, D3), and the core that does not know
the Calibration Controller (R3, R217 (4)).

The last one is put together from the shared operations. A function of the state is `Blind` when it commutes with every replacement
of `GT`, `MODE` and `NVS`, and when it leads from a state whose operation in progress is one of the core's to such a state again; the
second half is what carries the first through the later steps of an operation. -/

namespace Sys2Proof.Scope

open Machine Claims

/-! ### The fixed parameters (R6) -/

/-- Settles O1: each parameter is defined as the value the source gives it. -/
theorem fixedParameters : Obligations.FixedParameters := by
  unfold Obligations.FixedParameters
  decide

/-! ### Selectors (R70) -/

/-- A bound selector: the operands of its operation follow. -/
theorem decode_hostop_bound {cfg : Params} {b : Byte} {op : HostOp} (h : hostOpOf cfg b = some op) (bs : Bytes) :
    decode cfg .hostop (b :: bs) = (getOperands op bs).map Prod.fst := by
  simp only [decode, decodeHostop, getByte, readThen, h]

/-- A selector bound to no operation is rejected, whatever follows it. -/
theorem decode_hostop_unbound {cfg : Params} {b : Byte} (h : ∀ op, cfg.opIndex op ≠ b) (bs : Bytes) :
    decode cfg .hostop (b :: bs) = .error .unknownHostOp := by
  simp only [decode, decodeHostop, getByte, readThen, hostOpOf_eq_none.mpr h]
  rfl

/-- D3 uses no selector but 0x01 to 0x10. -/
theorem ordinalIndex_range (op : HostOp) : 0 < (ordinalIndex op).toNat ∧ (ordinalIndex op).toNat ≤ 0x10 := by
  cases op <;> decide

/-- The bytes that D3 leaves free. -/
theorem ordinalIndex_ne {b : Byte} (h : b = 0 ∨ 0x10 < b.toNat) (op : HostOp) : ordinalIndex op ≠ b := by
  rintro rfl
  obtain ⟨hpos, hle⟩ := ordinalIndex_range op
  rcases h with h | h
  · rw [h] at hpos
    exact absurd hpos (by decide)
  · omega

/-- Settles O57: the numbers of D3 by evaluation, the selection in every build from `hostOpOf`. -/
theorem selectors : Obligations.Selectors :=
  ⟨by decide, mem_hostOps, fun _ op bs h => decode_hostop_bound (hostOpOf_opIndex h op) bs,
    fun _ _ bs h => decode_hostop_unbound h bs, fun _ bs h => decode_hostop_unbound (ordinalIndex_ne h) bs⟩

/-! ### Operations of the core -/

/-- For whom the core reads: the host. -/
def hostRead : ReadFor → Bool
  | .response => true
  | .status .host => true
  | .status (.attach _) => false

/-- The points at which an operation outside the Calibration Controller can be. -/
def coreProgress : Progress → Bool
  | .blocked => true
  | .respond _ whom => hostRead whom
  | .decode _ whom => hostRead (.status whom)
  | .rows _ _ => true
  | .chunks _ => true
  | _ => false

/-- The operation in progress, if there is one, is outside the Calibration Controller. -/
def InCore (s : State) : Prop := ∀ p, s.busy = some p → coreProgress p = true

theorem inCore_of_idle {s : State} (h : s.busy = none) : InCore s := fun p hp => by rw [h] at hp; cases hp

theorem inCore_of_busy {s : State} {p : Progress} (h : s.busy = some p) (hp : coreProgress p = true) : InCore s :=
  fun q hq => by rw [h] at hq; cases hq; exact hp

/-! ### Functions that do not see what the Calibration Controller keeps -/

/-- A function to states that neither reads nor writes `GT`, `MODE` and `NVS`, and stays in the core. -/
structure Blind (f : State → State) : Prop where
  commutes : ∀ gt mode nvs s, f (withCalibration gt mode nvs s) = withCalibration gt mode nvs (f s)
  keeps : ∀ s, InCore s → InCore (f s)

/-- The same of an access, which also gives a value: a draw, a link transfer. -/
structure BlindAccess {α : Type} (f : State → α × State) : Prop where
  commutes : ∀ gt mode nvs s,
    f (withCalibration gt mode nvs s) = ((f s).1, withCalibration gt mode nvs (f s).2)
  keeps : ∀ s, InCore s → InCore (f s).2

/-- The same of a step, which may also be refused or stop. -/
structure BlindStep (f : State → Out) : Prop where
  commutes : ∀ gt mode nvs s, f (withCalibration gt mode nvs s) = mapNext (withCalibration gt mode nvs) (f s)
  keeps : ∀ s t, InCore s → f s = .next t → InCore t

/-! ### Updates -/

theorem finish_blind (r : Result) : Blind (finish r) where
  commutes _ _ _ _ := rfl
  keeps s _ := inCore_of_idle (finish_busy r s)

theorem raise_blind (kind : ErrKind) : Blind (raise kind) := finish_blind (.err kind)

theorem succeed_blind : Blind succeed := finish_blind (.ok .none)

theorem setBusy_blind {p : Progress} (h : coreProgress p = true) : Blind fun s => { s with busy := some p } where
  commutes _ _ _ _ := rfl
  keeps _ _ := inCore_of_busy rfl h

theorem setCur_blind (c : Option Nat) : Blind fun s => { s with cur := c } where
  commutes _ _ _ _ := rfl
  keeps _ h := h

theorem Blind.comp {f g : State → State} (hg : Blind g) (hf : Blind f) : Blind fun s => g (f s) where
  commutes gt mode nvs s := by rw [hf.commutes, hg.commutes]
  keeps s h := hg.keeps _ (hf.keeps s h)

theorem Blind.ite {c : Prop} [Decidable c] {f g : State → State} (hf : Blind f) (hg : Blind g) :
    Blind fun s => if c then f s else g s := by
  by_cases h : c
  · simpa only [h, if_true] using hf
  · simpa only [h, if_false] using hg

/-- The cursor may be read: it is not the Calibration Controller's. -/
theorem Blind.readCur {f : Option Nat → State → State} (h : ∀ c, Blind (f c)) : Blind fun s => f s.cur s where
  commutes gt mode nvs s := (h s.cur).commutes gt mode nvs s
  keeps s := (h s.cur).keeps s

/-- An update that follows an access and uses its value. -/
theorem BlindAccess.andThen {α : Type} {w : State → α × State} {f : α → State → State} (hw : BlindAccess w)
    (hf : ∀ a, Blind (f a)) : Blind fun s => f (w s).1 (w s).2 where
  commutes gt mode nvs s := by rw [hw.commutes, (hf _).commutes]
  keeps s h := (hf _).keeps _ (hw.keeps s h)

/-! ### The link (R36, R37, R80, R81) -/

theorem drawWrite_blind : BlindAccess drawWrite where
  commutes gt mode nvs s := by
    unfold drawWrite
    cases h : s.draws.writes <;> simp only [withCalibration, h]
  keeps s h := by
    obtain ⟨d, draws, e⟩ := drawWrite_cases s
    rw [e]
    exact h

theorem drawRead_blind : BlindAccess drawRead where
  commutes gt mode nvs s := by
    unfold drawRead
    cases h : s.draws.reads <;> simp only [withCalibration, h]
  keeps s h := by
    obtain ⟨d, draws, e⟩ := drawRead_cases s
    rw [e]
    exact h

theorem linkWrite_blind (bs : Bytes) : BlindAccess (linkWrite bs) where
  commutes gt mode nvs s := by
    unfold linkWrite
    rw [drawWrite_blind.commutes]
    rcases drawWrite s with ⟨_ | k | k, t⟩ <;> rfl
  keeps s h := by
    rcases linkWrite_cases bs s with ⟨_, e⟩ | ⟨_, _, e⟩ | ⟨_, _, e⟩ <;> rw [e]
    · exact h
    · exact h
    · exact inCore_of_busy rfl rfl

theorem linkRead_blind (n : Nat) : BlindAccess (linkRead n) where
  commutes gt mode nvs s := by
    by_cases h : n = 0
    · rw [h, linkRead_zero, linkRead_zero]
    · simp only [linkRead, h, if_false, drawRead_blind.commutes]
      rfl
  keeps s h := by
    obtain ⟨_, _, _, _, e, _⟩ := linkRead_cases n s
    rw [e]
    exact h

/-- A transfer that is made only when its size is within the bound. -/
theorem BlindAccess.orError {c : Prop} [Decidable c] {w : State → Sent × State} (hw : BlindAccess w) (kind : ErrKind) :
    BlindAccess fun s => if c then (.err kind, s) else w s := by
  by_cases h : c
  · simp only [h, if_true]
    exact ⟨fun _ _ _ _ => rfl, fun _ h => h⟩
  · simpa only [h, if_false] using hw

theorem writeCommand_blind (d : Direction) (command : Byte) (payload : Bytes) :
    BlindAccess (writeCommand d command payload) :=
  (linkWrite_blind _).orError .payloadTooLarge

theorem requestRead_blind (command : Byte) (n : Nat) : BlindAccess (requestRead command n) :=
  (linkWrite_blind _).orError .payloadTooLarge

theorem BlindAccess.afterWrite {w : State → Sent × State} {f : State → State} {g : ErrKind → State → State}
    (hw : BlindAccess w) (hf : Blind f) (hg : ∀ kind, Blind (g kind)) : Blind fun s => afterWrite (w s) f g :=
  hw.andThen (f := fun a t => Machine.afterWrite (a, t) f g) fun a =>
    match a with
    | .ok => hf
    | .err kind => hg kind
    | .stuck => ⟨fun _ _ _ _ => rfl, fun _ h => h⟩

theorem BlindAccess.lastFrame {w : State → Sent × State} (hw : BlindAccess w) : Blind fun s => lastFrame (w s) :=
  hw.afterWrite succeed_blind raise_blind

/-! ### Reads and decodes -/

theorem failRead_blind {whom : ReadFor} (h : hostRead whom = true) (kind : ErrKind) : Blind (failRead whom kind) :=
  match whom, h with
  | .response, _ => raise_blind kind
  | .status .host, _ => raise_blind kind

theorem startRead_blind (command : Byte) (n : Nat) {whom : ReadFor} (h : hostRead whom = true) :
    Blind (startRead command n whom) :=
  (requestRead_blind command n).afterWrite (setBusy_blind (p := .respond n whom) h) (failRead_blind h)

theorem takeAnswer_blind (n : Nat) {whom : ReadFor} (h : hostRead whom = true) : Blind (takeAnswer n whom) :=
  match whom, h with
  | .response, h =>
    (linkRead_blind n).andThen fun bs =>
      Blind.ite (c := bs.length < n) (failRead_blind h .shortRead) (finish_blind (.ok (.bytes bs)))
  | .status w, h =>
    (linkRead_blind n).andThen fun bs =>
      Blind.ite (c := bs.length < n) (failRead_blind h .shortRead) (setBusy_blind (p := .decode bs w) h)

/-- The status decode of the host: it writes no register but `DIAG_STATUS_PAD`. -/
theorem decodeStatus_blind (cfg : Params) (bs : Bytes) : Blind (decodeStatus cfg bs .host) where
  commutes gt mode nvs s := by
    unfold decodeStatus
    rcases statusDecode cfg bs with _ | ⟨view, pad⟩ <;> rfl
  keeps s _ := by
    rcases decodeStatus_cases cfg bs .host s with ⟨_, e⟩ | ⟨view, pad, _, e⟩ <;> rw [e]
    · exact inCore_of_idle rfl
    · exact inCore_of_idle rfl

theorem decodeTable_blind (bs : Bytes) : Blind (decodeTable bs) := by
  unfold decodeTable
  cases gammaDecode bs with
  | none => exact raise_blind _
  | some t => exact finish_blind _

/-! ### Streaming (R101) -/

theorem startStream_blind (cfg : Params) (buffer : Bytes) : Blind (startStream cfg buffer) :=
  (writeCommand_blind _ _ _).afterWrite
    (succeed_blind.ite ((setBusy_blind (p := .chunks buffer) rfl).comp (setCur_blind (some 0)))) raise_blind

theorem streamStep_blind (buffer : Bytes) : Blind (streamStep buffer) :=
  Blind.readCur fun cur =>
    let c := cur.getD 0
    let n := min Config.maxChunk (buffer.length - c)
    have frame := writeCommand_blind .write Config.cmdCont (slice buffer c n)
    have past := Blind.ite (c := c + n < buffer.length) (setCur_blind (some (c + n))) succeed_blind
    Blind.ite (c := c < buffer.length) (frame.afterWrite past raise_blind) succeed_blind

/-! ### Steps -/

theorem BlindStep.next {f : State → State} (hf : Blind f) : BlindStep fun s => .next (f s) where
  commutes gt mode nvs s := by rw [hf.commutes]; rfl
  keeps s t h e := by cases e; exact hf.keeps s h

theorem BlindStep.refused (r : Refusal) : BlindStep fun _ => .refused r where
  commutes _ _ _ _ := rfl
  keeps _ _ _ e := by cases e

theorem BlindStep.ite {c : Prop} [Decidable c] {f g : State → Out} (hf : BlindStep f) (hg : BlindStep g) :
    BlindStep fun s => if c then f s else g s := by
  by_cases h : c
  · simpa only [h, if_true] using hf
  · simpa only [h, if_false] using hg

theorem mapNext_onLink (g : State → State) (s : State) (o : Out) : mapNext g (onLink s o) = onLink s (mapNext g o) := by
  unfold onLink
  split <;> rfl

theorem mapNext_whenIdle (g : State → State) (s : State) (o : Out) :
    mapNext g (whenIdle s o) = whenIdle s (mapNext g o) := by
  unfold whenIdle
  split <;> rfl

theorem BlindStep.onLink {f : State → Out} (hf : BlindStep f) : BlindStep fun s => onLink s (f s) where
  commutes gt mode nvs s := by
    rw [hf.commutes, mapNext_onLink]
    rfl
  keeps s t h e := hf.keeps s t h (onLink_next e).2

theorem BlindStep.whenIdle {f : State → Out} (hf : BlindStep f) : BlindStep fun s => whenIdle s (f s) where
  commutes gt mode nvs s := by
    rw [hf.commutes, mapNext_whenIdle]
    rfl
  keeps s t h e := hf.keeps s t h (whenIdle_next e).2

theorem BlindStep.accept {α : Type} (operand : Except Refusal α) {f : α → State → Out} (hf : ∀ a, BlindStep (f a)) :
    BlindStep fun s => accept operand fun a => f a s :=
  match operand with
  | .ok a => hf a
  | .error r => .refused r

/-- A step that is one update of an idle block. -/
theorem Blind.whenIdle {f : State → State} (hf : Blind f) : BlindStep fun s => whenIdle s (.next (f s)) :=
  (BlindStep.next hf).whenIdle

/-! ### The first step of an operation -/

theorem emitWrite_blind (payload : Bytes) {frame : State → Sent × State} (h : BlindAccess frame) :
    BlindStep (emitWrite payload frame) :=
  ((BlindStep.next (raise_blind _)).ite (BlindStep.next h.lastFrame).onLink).whenIdle

theorem emitRead_blind (command : Byte) (n : Nat) : BlindStep (emitRead command n) :=
  ((BlindStep.next (raise_blind _)).ite (BlindStep.next (requestRead_blind _ _).lastFrame).onLink).whenIdle

theorem formed_blind (bs : Bytes) : BlindStep (formed bs) := (finish_blind _).whenIdle

theorem startWrite_blind (d : Direction) (command : Byte) (payload : Bytes) : BlindStep (startWrite d command payload) :=
  (BlindStep.next (raise_blind _)).ite
    ((BlindStep.refused _).ite (BlindStep.next (writeCommand_blind _ _ _).lastFrame).onLink)

theorem beginRead_blind (command : Byte) (n : Nat) {whom : ReadFor} (h : hostRead whom = true) :
    BlindStep (beginRead command n whom) :=
  (BlindStep.next (failRead_blind h _)).ite (BlindStep.next (startRead_blind command n h)).onLink

theorem beginWindow_blind (cfg : Params) (x0 y0 x1 y1 : U16) : BlindStep (beginWindow cfg x0 y0 x1 y1) :=
  (BlindStep.refused _).ite
    (BlindStep.next ((writeCommand_blind _ _ _).afterWrite (setBusy_blind rfl) raise_blind)).onLink

/-- The answer `RESP` puts into `RX` is taken from there in the same step. -/
theorem execResp_blind (answer : Bytes) : BlindStep (execResp answer) :=
  have arrives : Blind fun s => { s with rx := s.rx ++ answer } := ⟨fun _ _ _ _ => rfl, fun _ h => h⟩
  ((BlindStep.next (raise_blind _)).ite
    (BlindStep.next ((takeAnswer_blind answer.length (whom := .response) rfl).comp arrives)).onLink).whenIdle

theorem exec_blind {i : Instr} (h : outsideCalibration i = true) : BlindStep (exec i) := by
  cases i with
  | fWrite command payload => exact emitWrite_blind _ (writeCommand_blind _ _ _)
  | fRead command length => exact emitRead_blind _ _
  | fCont payload => exact emitWrite_blind _ (writeCommand_blind _ _ _)
  | fCaset start stop => exact emitWrite_blind _ (writeCommand_blind _ _ _)
  | fRaset start stop => exact emitWrite_blind _ (writeCommand_blind _ _ _)
  | fRamwr => exact emitWrite_blind _ (writeCommand_blind _ _ _)
  | fGamset curve => exact emitWrite_blind _ (writeCommand_blind _ _ _)
  | fPvgam image => exact emitWrite_blind _ (writeCommand_blind _ _ _)
  | fNvgam image => exact emitWrite_blind _ (writeCommand_blind _ _ _)
  | fRddst => exact emitRead_blind _ _
  | win start stop => exact formed_blind _
  | pix16 red green blue => exact formed_blind _
  | onehot0 => exact formed_blind _
  | onehot1 => exact formed_blind _
  | onehot2 => exact formed_blind _
  | onehot3 => exact formed_blind _
  | img112 image => exact (decodeTable_blind image).whenIdle
  | img40 image => exact (decodeStatus_blind _ image).whenIdle
  | resp answer => exact execResp_blind answer
  | chunk slice => exact formed_blind _
  | writeCommand direction command payload => exact (startWrite_blind _ _ _).whenIdle
  | readResponse command length => exact (beginRead_blind command length (whom := .response) rfl).whenIdle
  | setWindow x0 y0 x1 y1 => exact (beginWindow_blind _ _ _ _ _).whenIdle
  | streamPixels buffer => exact (BlindStep.next (startStream_blind _ buffer)).onLink.whenIdle
  | packPixel r g b => exact (BlindStep.accept _ fun _ => .next (finish_blind _)).whenIdle
  | decodeStatus bytes => exact (decodeStatus_blind _ bytes).whenIdle
  | readStatus => exact (beginRead_blind _ _ (whom := .status .host) rfl).whenIdle
  | gammaDecode bytes => exact (decodeTable_blind bytes).whenIdle
  | gammaEncode table => exact (BlindStep.accept _ fun _ => .next (finish_blind _)).whenIdle
  | loadCal p => cases h
  | attach => cases h
  | setField p f value => cases h
  | push p => cases h
  | selectCurve curve => cases h
  | enterCustom => cases h
  | startup => cases h

/-! ### The later steps, and the whole operation -/

theorem resume_blind (cfg : Params) {p : Progress} (h : coreProgress p = true) : BlindStep (resume cfg p) := by
  cases p with
  | blocked => exact ⟨fun _ _ _ _ => rfl, fun _ _ _ e => by cases e⟩
  | respond n whom => exact (BlindStep.next (takeAnswer_blind n h)).onLink
  | decode image whom =>
    cases whom with
    | host => exact .next (decodeStatus_blind cfg image)
    | attach w => cases h
  | rows start stop => exact (BlindStep.next (writeCommand_blind _ _ _).lastFrame).onLink
  | chunks buffer => exact (BlindStep.next (streamStep_blind buffer)).onLink
  | derive gamma whom => cases h
  | curve i => cases h
  | fill p file whom => cases h
  | pushFile p => cases h
  | pushDevice p image file => cases h
  | loadNegative positive => cases h
  | attachNext positive negative => cases h

/-- What comes after a step that goes on; a refusal or a fault stays. -/
def onNext (o : Out) (f : State → Out) : Out :=
  match o with
  | .next t => f t
  | .fault r => .fault r
  | .refused r => .refused r

theorem settle_busy (cfg : Params) (fuel : Nat) {s : State} {p : Progress} (h : s.busy = some p) (hp : p ≠ .blocked) :
    settle cfg (fuel + 1) s = onNext (resume cfg p s) (settle cfg fuel) := by
  unfold settle
  split
  · next e => rw [e] at h; cases h
  · next e => rw [e] at h; cases h; exact absurd rfl hp
  · next q e => rw [e] at h; cases h; rfl

theorem settle_ended (cfg : Params) (fuel : Nat) {s : State} (h : s.busy = none ∨ s.busy = some .blocked) :
    settle cfg fuel s = .next s := by
  cases fuel with
  | zero => rfl
  | succ fuel => rcases h with h | h <;> simp only [settle, h]

theorem perform_eq (i : Instr) (s : State) :
    perform i s = onNext (exec i s) fun t => settle Config.params (stepsLeft t) t := by
  unfold perform onNext
  rfl

/-- A blind step, and then what commutes on every state it goes on to. -/
theorem BlindStep.onNext_commutes {f g : State → Out} {gt : Banks GammaTable} {mode : Mode} {nvs : Banks (Option Bytes)}
    {s : State} (hf : BlindStep f)
    (hg : ∀ t, f s = .next t → g (withCalibration gt mode nvs t) = mapNext (withCalibration gt mode nvs) (g t)) :
    onNext (f (withCalibration gt mode nvs s)) g = mapNext (withCalibration gt mode nvs) (onNext (f s) g) := by
  rw [hf.commutes]
  cases e : f s with
  | next t => exact hg t e
  | fault r => rfl
  | refused r => rfl

/-- The steps left of an operation of the core do not see what the Calibration Controller keeps. -/
theorem settle_commutes (cfg : Params) (fuel : Nat) (gt : Banks GammaTable) (mode : Mode) (nvs : Banks (Option Bytes))
    (s : State) (h : InCore s) :
    settle cfg fuel (withCalibration gt mode nvs s) = mapNext (withCalibration gt mode nvs) (settle cfg fuel s) := by
  induction fuel generalizing s with
  | zero => rfl
  | succ fuel ih =>
    by_cases ended : s.busy = none ∨ s.busy = some .blocked
    · rw [settle_ended cfg _ ended, settle_ended cfg _ (s := withCalibration gt mode nvs s) ended]
      rfl
    · obtain ⟨idle, stuck⟩ := not_or.mp ended
      obtain ⟨p, hp⟩ := Option.ne_none_iff_exists'.mp idle
      have going : p ≠ .blocked := fun e => stuck (e ▸ hp)
      rw [settle_busy cfg fuel hp going, settle_busy cfg fuel (s := withCalibration gt mode nvs s) hp going]
      have core := resume_blind cfg (h p hp)
      exact core.onNext_commutes fun t e => ih t (core.keeps s t h e)

/-- Settles O50: the first step and every later one commute with the replacement, and the operation stays in the core. -/
theorem coreReadsNoCalibration : Obligations.CoreReadsNoCalibration := by
  unfold Obligations.CoreReadsNoCalibration
  intro i gt mode nvs s h
  have first := exec_blind h
  rw [perform_eq, perform_eq]
  refine first.onNext_commutes fun t e => ?_
  have core : InCore t := first.keeps s t (inCore_of_idle (exec_next_idle e)) e
  exact settle_commutes Config.params (stepsLeft t) gt mode nvs t core

end Sys2Proof.Scope

/-! PROOFS of the family of spec/10_state.md: the invariant of the operation in progress (O14, O15), the histories (O16, O18), the
handle (O24), reset and the outside events (O11, O19), and the writers of `MODE`, `GT` and `DIAG_STATUS_PAD` (O51 to O53).

What a step can do is said once. `Effect` lists what the step of an operation does to the registers, the streams and the store;
`Move` adds how the step leaves the operation: ended, at a next point, failed or stuck in a write; `Happens` adds the events from
outside. `step_happens` says that every step of the machine is one of these, and each statement is read off from there. -/

namespace Sys2Proof.StateLaws

open Machine Claims

/-! ### A step, by the head of the inbox -/

section StepByInbox

variable {s : State} {rest : List Stimulus}

theorem step_deviceBytes {bs : Bytes} (hb : s.busy ≠ some .blocked) (hi : s.inbox = .deviceBytes bs :: rest) :
    step s = .next { s with inbox := rest, rx := s.rx ++ bs } := by
  simp only [step, fetch, if_neg hb, hi]

theorem step_restart (hb : s.busy ≠ some .blocked) (hi : s.inbox = .restart :: rest) :
    step s = .next (restart { s with inbox := rest }) := by
  simp only [step, fetch, if_neg hb, hi]

theorem step_handle {b : Bool} (hb : s.busy ≠ some .blocked) (hi : s.inbox = .handle b :: rest) :
    step s = .next { s with inbox := rest, handleOpen := b } := by
  simp only [step, fetch, if_neg hb, hi]

theorem step_quiet_idle (hb : s.busy = none) (hi : s.inbox = .quiet :: rest) : step s = .next { s with inbox := rest } := by
  have hn : s.busy ≠ some .blocked := by rw [hb]; nofun
  simp only [step, fetch, if_neg hn, hi, goOn_idle (s := { s with inbox := rest }) hb]

theorem step_quiet_busy {p : Progress} (hb : s.busy = some p) (hp : p ≠ .blocked) (hi : s.inbox = .quiet :: rest) :
    step s = resume Config.params p { s with inbox := rest } := by
  have hn : s.busy ≠ some .blocked := by rw [hb]; exact fun e => hp (Option.some.inj e)
  simp only [step, fetch, if_neg hn, hi, goOn_busy (s := { s with inbox := rest }) hb hp]

theorem step_nothing (hb : s.busy = none) (hi : s.inbox = []) : step s = .next s := by
  have hn : s.busy ≠ some .blocked := by rw [hb]; nofun
  simp only [step, fetch, if_neg hn, hi, goOn_idle hb]

theorem step_request {format : Format} {bs : Bytes} {i : Instr} (hb : s.busy = none)
    (hi : s.inbox = .request format bs :: rest) (hd : decode Config.params format bs = .ok i) :
    step s = exec i { s with inbox := rest } := by
  simp only [step, fetch, hi, hb, takeRequest, hd, reduceCtorEq, if_false]

theorem step_badRequest {format : Format} {bs : Bytes} {e : Reject} (hb : s.busy = none)
    (hi : s.inbox = .request format bs :: rest) (hd : decode Config.params format bs = .error e) :
    step s = .refused (rejectionOf e) := by
  simp only [step, fetch, hi, hb, takeRequest, hd, reduceCtorEq, if_false]

end StepByInbox

/-- Settles O11: each event is the step its place at the head of the inbox gives. -/
theorem outsideEvents : Obligations.OutsideEvents := by
  unfold Obligations.OutsideEvents
  intro s hn
  exact ⟨fun _ _ => step_deviceBytes hn, fun _ _ => step_handle hn, fun _ => step_quiet_idle,
    fun _ p hb => step_quiet_busy hb fun e => hn (e ▸ hb), step_nothing⟩

/-! ### The state after reset -/

/-- An idle block whose cursor is dead agrees with its operation in progress: there is none. -/
theorem consistent_of_idle {s : State} (hb : s.busy = none) (hc : s.cur = none) : Consistent s :=
  ⟨fun p h => by simp [hb] at h, fun h => absurd hc h⟩

/-- Settles O14. -/
theorem consistentAtReset : Obligations.ConsistentAtReset := consistent_of_idle rfl rfl

/-- Settles O16: the empty sequence of frames. -/
theorem framedAtReset : Obligations.FramedAtReset := fun _ => ⟨[], nofun, rfl⟩

/-- Settles O19. -/
theorem resetValues : Obligations.ResetValues := by
  refine ⟨fun p f => ?_, rfl, rfl, rfl, rfl, rfl⟩
  show ((Banks.all GammaTable.zero).get p).get f = 0
  rw [Banks.get_all, GammaTable.get_zero]

/-! ### What the step of an operation can do -/

/-- What makes the block take a step of an operation: a request that it starts, or the operation in progress. -/
inductive Cause where
  | request (i : Instr)
  | progress (p : Progress)

/-- `RX` after a step of this cause: a `LinkRead` takes from its front; a `RESP` above `MAX_CHUNK` reads nothing (R81). -/
def Cause.rx (s : State) : Cause → Bytes
  | .progress (.respond n _) => readLeft n s.rx s
  | .request (.resp answer) =>
    if Config.maxChunk < answer.length then s.rx else readLeft answer.length (s.rx ++ answer) s
  | _ => s.rx

/-- The status image that a step of this cause decodes (R120). -/
def Cause.image : Cause → Option Bytes
  | .progress (.decode image _) => some image
  | .request (.decodeStatus image) => some image
  | .request (.img40 image) => some image
  | _ => none

/-- A step that decodes an image reads nothing of the link. -/
theorem Cause.rx_of_image {c : Cause} {image : Bytes} (s : State) (h : c.image = some image) : c.rx s = s.rx := by
  cases c with
  | request i =>
    cases i with
    | decodeStatus | img40 => rfl
    | _ => cases h
  | progress p =>
    cases p with
    | decode => rfl
    | _ => cases h

/-- Whether the step is a pass of a stream, the only operation whose cursor is live (R16). -/
def Cause.isStream : Cause → Bool
  | .progress (.chunks _) => true
  | _ => false

/-- What `Consistent` says of a state in which a step of this cause comes next. -/
def Cause.Agrees (s : State) : Cause → Prop
  | .request _ => s.cur = none
  | .progress p => p.holds s ∧ (s.cur ≠ none → ∃ buffer, p = .chunks buffer)

/-- What a step of an operation does to the registers, the streams and the store, from `s`. How it leaves the operation is not said
here: a frame is one whose write succeeds. -/
inductive Effect (s : State) : Cause → State → Prop where
  /-- No more than a read of the link. -/
  | quiet {c : Cause} {rx : Bytes} (draws : Draws) (hrx : c.rx s = rx) : Effect s c { s with rx := rx, draws := draws }
  /-- A frame is written, whole (R36, R80, R81). -/
  | sends {c : Cause} (f : Frame) (draws : Draws) (wf : f.wf = true) (handle : s.handleOpen = true) (still : c.rx s = s.rx) :
    Effect s c { s with tx := s.tx ++ f.bytes, draws := draws }
  /-- A status image is decoded (R120). -/
  | decodes {c : Cause} {image : Bytes} {view : StatusView} {pad : Bool} (hc : c.image = some image)
    (hd : statusDecode Config.params image = some (view, pad)) : Effect s c { s with diagStatusPad := padFlag pad }
  /-- The last step of an attach (R157). -/
  | attaches {gamma : BitVec 3} (whom : AttachFor) {i : Curve} (hi : gamma.toNat = i.val) :
    Effect s (.progress (.derive gamma whom)) { s with mode := .fixed i }
  /-- The first step of `SELECT_CURVE` (R160). -/
  | selects (i : Curve) : Effect s (.request (.selectCurve i.val)) { s with mode := .fixed i }
  /-- `ENTER_CUSTOM` (R161). -/
  | enters : Effect s (.request .enterCustom) { s with mode := .custom }
  /-- A bank is filled from an absent file (R156). -/
  | clears (p : Polarity) (whom : LoadFor) :
    Effect s (.progress (.fill p none whom)) { s with gt := s.gt.set p GammaTable.zero }
  /-- A bank is filled from a file (R156). -/
  | fills (p : Polarity) {bs : Bytes} (whom : LoadFor) {table : GammaTable} (hd : gammaDecode bs = some table) :
    Effect s (.progress (.fill p (some bs) whom)) (notify p { s with gt := s.gt.set p table })
  /-- The store of `SET_FIELD` (R158). -/
  | stores (p : Polarity) (f : GammaField) (x : Int) (attached : s.mode ≠ .unattached) :
    Effect s (.request (.setField p f x)) (storeField p f x s)
  /-- The file part of a push (R159). -/
  | saves {c : Cause} (p : Polarity) (file : Option Bytes) (draws : Draws) (still : c.rx s = s.rx) :
    Effect s c { s with nvs := s.nvs.set p file, draws := draws }

/-- Everything a step of an operation can do from `s`: an effect and what comes after it, or a link write that fails or never returns.
A next point comes with the reason why it agrees with the state. -/
inductive Move (s : State) : Cause → State → Prop where
  /-- The operation ends. -/
  | ends {c : Cause} {u : State} (e : Effect s c u) (r : Result) : Move s c (finish r u)
  /-- The operation is at its next point, which is not in a stream. -/
  | goesOn {c : Cause} {u : State} (e : Effect s c u) (p : Progress) (hs : c.isStream = false)
    (hp : c.Agrees s → p.holds u) : Move s c { u with busy := some p }
  /-- The operation is in a stream, between two frames (R101). -/
  | streams {c : Cause} {u : State} (e : Effect s c u) (buffer : Bytes) (n : Nat)
    (hn : c.Agrees s → n % Config.maxChunk = 0 ∧ n < buffer.length) :
    Move s c { u with cur := some n, busy := some (.chunks buffer) }
  /-- A link write fails, and the operation ends with a result that reports it. -/
  | fails {c : Cause} (f : Frame) (k : Nat) (draws : Draws) (r : Result) (wf : f.wf = true) (handle : s.handleOpen = true)
    (still : c.rx s = s.rx) (reported : r.linkFailed = true) :
    Move s c (finish r { s with tx := s.tx ++ f.bytes.take k, draws := draws })
  /-- A link write never returns. -/
  | sticks {c : Cause} (f : Frame) (k : Nat) (draws : Draws) (wf : f.wf = true) (handle : s.handleOpen = true)
    (still : c.rx s = s.rx) : Move s c { s with tx := s.tx ++ f.bytes.take k, draws := draws, busy := some .blocked }

/-! ### Effects, register by register -/

namespace Effect

variable {s u : State} {c : Cause}

theorem rx_eq (e : Effect s c u) : u.rx = c.rx s := by
  cases e with
  | quiet _ hrx => exact hrx.symm
  | sends _ _ _ _ still => exact still.symm
  | saves _ _ _ still => exact still.symm
  | decodes hc => exact (c.rx_of_image s hc).symm
  | attaches | selects | enters | clears | fills | stores => rfl

theorem tx_cases (e : Effect s c u) :
    u.tx = s.tx ∨ s.handleOpen = true ∧ ∃ f : Frame, f.wf = true ∧ u.tx = s.tx ++ f.bytes := by
  cases e with
  | sends f _ wf handle => exact .inr ⟨handle, f, wf, rfl⟩
  | quiet | decodes | attaches | selects | enters | clears | fills | stores | saves => exact .inl rfl

theorem results_eq (e : Effect s c u) : u.results = s.results := by cases e <;> rfl

theorem cur_eq (e : Effect s c u) : u.cur = s.cur := by cases e <;> rfl

theorem notified_cases (e : Effect s c u) : u.notified = s.notified ∨ ∃ p, u.notified = s.notified ++ [p] := by
  cases e with
  | fills p | stores p => exact .inr ⟨p, rfl⟩
  | quiet | sends | decodes | attaches | selects | enters | clears | saves => exact .inl rfl

/-- The three writers of `MODE` among the operations (R15). -/
theorem mode_cases (e : Effect s c u) :
    u.mode = s.mode ∨
    (∃ gamma whom, ∃ i : Curve, c = .progress (.derive gamma whom) ∧ gamma.toNat = i.val ∧ u.mode = .fixed i) ∨
    (∃ i : Curve, c = .request (.selectCurve i.val) ∧ u.mode = .fixed i) ∨
    (c = .request .enterCustom ∧ u.mode = .custom) := by
  cases e with
  | attaches whom hi => exact .inr (.inl ⟨_, whom, _, rfl, hi, rfl⟩)
  | selects i => exact .inr (.inr (.inl ⟨i, rfl, rfl⟩))
  | enters => exact .inr (.inr (.inr ⟨rfl, rfl⟩))
  | quiet | sends | decodes | clears | fills | stores | saves => exact .inl rfl

/-- The one writer of `DIAG_STATUS_PAD` among the operations (R17). -/
theorem pad_cases (e : Effect s c u) :
    u.diagStatusPad = s.diagStatusPad ∨
    ∃ image view pad, c.image = some image ∧ statusDecode Config.params image = some (view, pad) ∧
      u.diagStatusPad = padFlag pad := by
  cases e with
  | decodes hc hd => exact .inr ⟨_, _, _, hc, hd, rfl⟩
  | quiet | sends | attaches | selects | enters | clears | fills | stores | saves => exact .inl rfl

/-- The writers of a bank of `GT` among the operations (R13). -/
theorem gt_cases (e : Effect s c u) :
    u.gt = s.gt ∨
    (∃ p whom, c = .progress (.fill p none whom) ∧ u.gt = s.gt.set p GammaTable.zero) ∨
    (∃ p bs whom table, c = .progress (.fill p (some bs) whom) ∧ gammaDecode bs = some table ∧ u.gt = s.gt.set p table) ∨
    (∃ p f x, c = .request (.setField p f x) ∧ s.mode ≠ .unattached ∧
      u.gt = s.gt.set p ((s.gt.get p).set f (clamp (gammaWidth f) x))) := by
  cases e with
  | clears p whom => exact .inr (.inl ⟨p, whom, rfl, rfl⟩)
  | fills p whom hd => exact .inr (.inr (.inl ⟨p, _, whom, _, rfl, hd, rfl⟩))
  | stores p f x attached => exact .inr (.inr (.inr ⟨p, f, x, rfl, attached, rfl⟩))
  | quiet | sends | decodes | attaches | selects | enters | saves => exact .inl rfl

/-- A step that touches nothing. -/
theorem nothing (still : c.rx s = s.rx) : Effect s c s := quiet s.draws still

end Effect

/-! ### Moves -/

namespace Move

variable {s t : State} {c : Cause}

/-- A move changes `GT`, `MODE`, `DIAG_STATUS_PAD`, `RX` and the notifications by an effect. -/
theorem exists_effect (m : Move s c t) :
    ∃ u, Effect s c u ∧ t.gt = u.gt ∧ t.mode = u.mode ∧ t.diagStatusPad = u.diagStatusPad ∧ t.rx = u.rx ∧
      t.notified = u.notified := by
  cases m with
  | ends e | goesOn e | streams e => exact ⟨_, e, rfl, rfl, rfl, rfl, rfl⟩
  | fails _ _ _ _ _ _ still | sticks _ _ _ _ _ still => exact ⟨s, .nothing still, rfl, rfl, rfl, rfl, rfl⟩

/-- What a move sends (R20, R34, R82). -/
theorem tx_cases (m : Move s c t) :
    t.tx = s.tx ∨
    (s.handleOpen = true ∧ ∃ (f : Frame) (k : Nat), f.wf = true ∧ t.tx = s.tx ++ f.bytes.take k ∧
      (f.bytes.length ≤ k ∨ t.busy = some .blocked ∨ ∃ r, t.results = s.results ++ [r] ∧ r.linkFailed = true)) := by
  cases m with
  | ends e | goesOn e | streams e =>
    refine e.tx_cases.imp_right ?_
    rintro ⟨handle, f, wf, htx⟩
    exact ⟨handle, f, f.bytes.length, wf, by rw [List.take_length]; exact htx, .inl le_rfl⟩
  | fails f k _ r wf handle _ reported => exact .inr ⟨handle, f, k, wf, rfl, .inr (.inr ⟨r, rfl, reported⟩)⟩
  | sticks f k _ wf handle => exact .inr ⟨handle, f, k, wf, rfl, .inr (.inl rfl)⟩

/-- A move gives at most one result (R185). -/
theorem results_cases (m : Move s c t) : t.results = s.results ∨ ∃ r, t.results = s.results ++ [r] := by
  cases m with
  | ends e r => exact .inr ⟨r, by rw [finish_results, e.results_eq]⟩
  | goesOn e | streams e => exact .inl e.results_eq
  | fails _ _ _ r => exact .inr ⟨r, rfl⟩
  | sticks => exact .inl rfl

/-- A move from a state that agrees with its cause leads to one that agrees with its operation in progress. -/
theorem consistent (m : Move s c t) (h : c.Agrees s) : Consistent t := by
  cases m with
  | ends | fails => exact consistent_of_idle rfl rfl
  | sticks => exact ⟨fun p hp => by cases hp; trivial, fun _ => .inl rfl⟩
  | streams e buffer n hn =>
    exact ⟨fun p hp => by cases hp; exact ⟨n, rfl, hn h⟩, fun _ => .inr ⟨buffer, rfl⟩⟩
  | goesOn e p hs hp =>
    have dead : s.cur = none := by
      cases c with
      | request i => exact h
      | progress q =>
        by_contra live
        obtain ⟨buffer, rfl⟩ := h.2 live
        cases hs
    refine ⟨fun q hq => ?_, fun live => absurd (e.cur_eq.trans dead) live⟩
    cases hq
    exact hp h

end Move

/-! ### The shared operations as moves -/

/-- Going on with an error of a write: the operation ends with a result that reports a failed link write, and no other error as one. -/
def Reports (g : ErrKind → State → State) : Prop :=
  ∀ kind u, ∃ r, g kind u = finish r u ∧ r.linkFailed = (kind == .transportError)

theorem raise_reports : Reports raise := fun kind _ => ⟨.err kind, rfl, rfl⟩

theorem failRead_reports (whom : ReadFor) : Reports (failRead whom) := failRead_eq whom

theorem pushError_reports (file : FileStatus) : Reports fun kind => finish (.push file (.err kind)) :=
  fun kind _ => ⟨_, rfl, by cases kind <;> rfl⟩

section Shared

variable {s : State} {c : Cause}

/-- A step that only ends the operation. -/
theorem finish_move (still : c.rx s = s.rx) (r : Result) : Move s c (finish r s) := .ends (.nothing still) r

/-- An error without any I/O. -/
theorem error_move {g : ErrKind → State → State} (hg : Reports g) (still : c.rx s = s.rx) (kind : ErrKind) :
    Move s c (g kind s) := by
  obtain ⟨r, e, _⟩ := hg kind s
  rw [e]
  exact finish_move still r

/-- A link write of a frame, and what follows each of its outcomes. -/
theorem linkWrite_move {f : Frame} {onOk : State → State} {onErr : ErrKind → State → State} (wf : f.wf = true)
    (handle : s.handleOpen = true) (still : c.rx s = s.rx) (hg : Reports onErr)
    (hok : ∀ u, Effect s c u → u.busy = s.busy → Move s c (onOk u)) : Move s c (afterWrite (linkWrite f.bytes s) onOk onErr) := by
  rcases linkWrite_cases f.bytes s with ⟨draws, e⟩ | ⟨draws, k, e⟩ | ⟨draws, k, e⟩ <;> rw [e]
  · exact hok _ (.sends f draws wf handle still) rfl
  · obtain ⟨r, er, reported⟩ := hg .transportError { s with tx := s.tx ++ f.bytes.take k, draws := draws }
    rw [afterWrite_err, er]
    exact .fails f k draws r wf handle still reported
  · exact .sticks f k draws wf handle still

/-- A frame with a payload (R80): a write frame, or a read frame whose payload is empty. -/
theorem writeCommand_move {d : Direction} {command : Byte} {payload : Bytes} {onOk : State → State}
    {onErr : ErrKind → State → State} (hd : d = .write ∨ payload = []) (handle : s.handleOpen = true)
    (still : c.rx s = s.rx) (hg : Reports onErr) (hok : ∀ u, Effect s c u → u.busy = s.busy → Move s c (onOk u)) :
    Move s c (afterWrite (writeCommand d command payload s) onOk onErr) := by
  rcases writeCommand_cases d command payload s with ⟨_, e⟩ | ⟨fits, e⟩ <;> rw [e]
  · exact error_move hg still .payloadTooLarge
  · refine linkWrite_move (f := ⟨d, command, payload.length, payload⟩) ?_ handle still hg hok
    rcases hd with rfl | rfl
    · simp [Frame.wf, fits]
    · cases d <;> rfl

/-- The header of a read (R81). -/
theorem requestRead_move {command : Byte} {n : Nat} {onOk : State → State} {onErr : ErrKind → State → State}
    (handle : s.handleOpen = true) (still : c.rx s = s.rx) (hg : Reports onErr)
    (hok : ∀ u, Effect s c u → u.busy = s.busy → Move s c (onOk u)) :
    Move s c (afterWrite (requestRead command n s) onOk onErr) := by
  rcases requestRead_cases command n s with ⟨_, e⟩ | ⟨fits, e⟩ <;> rw [e]
  · exact error_move hg still .payloadTooLarge
  · have bytes : (⟨.read, command, n, []⟩ : Frame).bytes = headerBytes .read command n := List.append_nil _
    rw [← bytes]
    exact linkWrite_move (by simp [Frame.wf, fits]) handle still hg hok

/-- A write frame that is the last of its operation. -/
theorem lastFrame_move {d : Direction} {command : Byte} {payload : Bytes} (hd : d = .write ∨ payload = [])
    (handle : s.handleOpen = true) (still : c.rx s = s.rx) :
    Move s c (lastFrame (writeCommand d command payload s)) :=
  writeCommand_move hd handle still raise_reports fun _ e _ => .ends e _

/-- The first step of a read inside an operation: a status read asks for 5 bytes (R123). -/
theorem beginRead_move {command : Byte} {n : Nat} {whom : ReadFor} {t : State} (hs : c.isStream = false)
    (still : c.rx s = s.rx) (hw : whom ≠ .response → n = Config.statusLen) (h : beginRead command n whom s = .next t) :
    Move s c t := by
  rcases beginRead_next h with ⟨_, rfl⟩ | ⟨fits, handle, rfl⟩
  · exact error_move (failRead_reports whom) still .payloadTooLarge
  · exact requestRead_move handle still (failRead_reports whom) fun _ e _ => .goesOn e _ hs fun _ => ⟨fits, hw⟩

theorem beginStatus_move {whom : StatusFor} {t : State} (hs : c.isStream = false) (still : c.rx s = s.rx)
    (h : beginStatus Config.params whom s = .next t) : Move s c t :=
  beginRead_move hs still (fun _ => rfl) h

/-- A `LinkRead` leaves of `RX` what the claims say (R37). -/
theorem linkRead_left (n : Nat) (s : State) :
    ∃ bs draws, linkRead n s = (bs, { s with rx := readLeft n s.rx s, draws := draws }) ∧ bs.length ≤ n := by
  by_cases h : n = 0
  · subst h
    exact ⟨[], s.draws, rfl, le_rfl⟩
  · obtain ⟨d, draws, e⟩ := drawRead_cases s
    refine ⟨(s.rx ++ d.arrived).take (min d.count n), draws, ?_, ?_⟩
    · simp only [linkRead, readLeft, h, if_false, e]
    · simp only [List.length_take]; omega

/-- The second step of a read: its result, or a full status image for the decode. -/
theorem takeAnswer_left (n : Nat) (whom : ReadFor) (s : State) :
    ∃ draws,
      (∃ r, takeAnswer n whom s = finish r { s with rx := readLeft n s.rx s, draws := draws }) ∨
      ∃ bs w, whom = .status w ∧ bs.length = n ∧
        takeAnswer n whom s = { s with rx := readLeft n s.rx s, draws := draws, busy := some (.decode bs w) } := by
  obtain ⟨bs, draws, e, hl⟩ := linkRead_left n s
  refine ⟨draws, ?_⟩
  unfold takeAnswer
  rw [e]
  by_cases short : bs.length < n
  · obtain ⟨r, er, _⟩ := failRead_reports whom .shortRead { s with rx := readLeft n s.rx s, draws := draws }
    exact .inl ⟨r, by simp only [short, if_true, er]⟩
  · cases whom with
    | response => exact .inl ⟨.ok (.bytes bs), by simp only [short, if_false]⟩
    | status w => exact .inr ⟨bs, w, rfl, by omega, by simp only [short, if_false]⟩

/-- Of the state, only the environment's choices have a part in what a `LinkRead` leaves of a queue. -/
theorem readLeft_congr {t : State} (n : Nat) (queue : Bytes) (h : t.draws = s.draws) :
    readLeft n queue t = readLeft n queue s := by
  have same : (drawRead t).1 = (drawRead s).1 := by
    simp only [drawRead, h]
    cases s.draws.reads <;> rfl
  simp only [readLeft, same]

/-- The decode of a status image (R120). -/
theorem decodeStatus_move {image : Bytes} (whom : StatusFor) (hc : c.image = some image) (hs : c.isStream = false)
    (still : c.rx s = s.rx) : Move s c (decodeStatus Config.params image whom s) := by
  rcases decodeStatus_cases Config.params image whom s with ⟨_, e⟩ | ⟨view, pad, hd, e⟩ <;> rw [e]
  · exact error_move (failRead_reports _) still .malformedRegister
  · rcases deliverStatus_cases whom view { s with diagStatusPad := padFlag pad } with ⟨_, e⟩ | ⟨w, _, e⟩ <;> rw [e]
    · exact .ends (.decodes hc hd) _
    · exact .goesOn (.decodes hc hd) _ hs fun _ => trivial

/-- The end of a load, inside a `STARTUP` or not (R156, R163). -/
theorem endLoad_move {u : State} (e : Effect s c u) (hs : c.isStream = false) (whom : LoadFor) (r : Part) :
    Move s c (endLoad whom r u) := by
  cases whom with
  | host => exact .ends e _
  | startupPositive => exact .goesOn e _ hs fun _ => trivial
  | startupNegative positive => exact .goesOn e _ hs fun _ => trivial

/-- The first step of a load (R156). -/
theorem startLoad_move (p : Polarity) (whom : LoadFor) (hs : c.isStream = false) (still : c.rx s = s.rx) :
    Move s c (startLoad p whom s) := by
  rcases startLoad_cases p whom s with ⟨draws, e⟩ | ⟨draws, e⟩ <;> rw [e]
  · exact endLoad_move (.quiet draws still) hs whom _
  · exact .goesOn (.quiet draws still) _ hs fun _ => rfl

/-- The file part of a push (R159): its image is the bank's. -/
theorem pushFile_move (p : Polarity) (hs : c.isStream = false) (still : c.rx s = s.rx)
    (custom : c.Agrees s → s.mode = .custom) : Move s c (pushFile p s) := by
  rcases pushFile_cases p s with ⟨draws, e⟩ | ⟨draws, left, e⟩ <;> rw [e]
  · exact .goesOn (.saves p (some (imageOf (s.gt.get p))) draws still) _ hs
      fun h => ⟨custom h, rfl, nofun, fun _ => Banks.get_set_self _ _ _⟩
  · exact .goesOn (.saves p (leftoverFile (s.nvs.get p) (imageOf (s.gt.get p)) left) draws still) _ hs
      fun h => ⟨custom h, rfl, nofun, nofun⟩

/-- The device part of a push (R159). -/
theorem endPush_move {command : Byte} {payload : Bytes} (file : FileStatus) (handle : s.handleOpen = true)
    (still : c.rx s = s.rx) : Move s c (endPush file (writeCommand .write command payload s)) :=
  writeCommand_move (.inl rfl) handle still (pushError_reports file) fun _ e _ => .ends e _

/-- A frame row by itself. -/
theorem emitWrite_move {command : Byte} {payload : Bytes} {t : State} (still : c.rx s = s.rx)
    (h : emitWrite payload (writeCommand .write command payload) s = .next t) : Move s c t := by
  rcases emitWrite_next h with ⟨_, rfl⟩ | ⟨_, handle, rfl⟩
  · exact finish_move still _
  · exact lastFrame_move (.inl rfl) handle still

theorem emitRead_move {command : Byte} {n : Nat} {t : State} (still : c.rx s = s.rx)
    (h : emitRead command n s = .next t) : Move s c t := by
  rcases emitRead_next h with ⟨_, rfl⟩ | ⟨_, handle, rfl⟩
  · exact finish_move still _
  · exact requestRead_move handle still raise_reports fun _ e _ => .ends e _

/-- The bytes of a payload, formed. -/
theorem formed_move {bs : Bytes} {t : State} (still : c.rx s = s.rx) (h : formed bs s = .next t) : Move s c t := by
  cases (whenIdle_next h).2
  exact finish_move still _

theorem decodeTable_move (bs : Bytes) (still : c.rx s = s.rx) : Move s c (decodeTable bs s) := by
  rcases decodeTable_cases bs s with ⟨_, e⟩ | ⟨_, _, e⟩ <;> rw [e]
  · exact finish_move still _
  · exact finish_move still _

end Shared

/-! ### Each operation is a move -/

/-- An accepted curve index is the number of its curve (R160). -/
theorem eq_val_of_curveOperand {z : Int} {i : Curve} (h : curveOperand z = .ok i) : z = i.val := by
  by_cases out : z < 0 ∨ 3 < z
  · rw [curveOperand_out out] at h
    cases h
  · obtain ⟨j, rfl⟩ : ∃ j : Curve, z = j.val :=
      ⟨⟨z.toNat, by simp only [Config.nFixedCurves]; omega⟩, by simp only; omega⟩
    rw [curveOperand_val] at h
    cases h
    rfl

/-- An accepted status `gamma` is the number of its curve (R157). -/
theorem toNat_eq_of_curveOfStatus {gamma : BitVec 3} {i : Curve} (h : curveOfStatus gamma = .ok i) : gamma.toNat = i.val := by
  revert gamma i
  decide

section Operations

variable {s t : State}

theorem startStream_move {c : Cause} (buffer : Bytes) (handle : s.handleOpen = true) (still : c.rx s = s.rx) :
    Move s c (startStream Config.params buffer s) := by
  refine writeCommand_move (.inl rfl) handle still raise_reports fun u e _ => ?_
  by_cases empty : buffer = []
  · rw [if_pos empty]
    exact .ends e _
  · rw [if_neg empty]
    exact .streams e buffer 0 fun _ => ⟨rfl, List.length_pos_of_ne_nil empty⟩

/-- A pass of a stream whose cursor agrees with the buffer leaves one that does, or ends the stream (R101). -/
theorem streamStep_move {buffer : Bytes} (hb : s.busy = some (.chunks buffer)) (handle : s.handleOpen = true) :
    Move s (.progress (.chunks buffer)) (streamStep buffer s) := by
  unfold streamStep
  by_cases inside : s.cur.getD 0 < buffer.length
  · rw [if_pos inside]
    refine writeCommand_move (.inl rfl) handle rfl raise_reports fun u e hu => ?_
    split
    · next more =>
      have stays : u = { u with busy := some (.chunks buffer) } := by rw [← hb, ← hu]
      rw [stays]
      refine .streams e buffer _ fun agrees => ⟨?_, more⟩
      obtain ⟨⟨n, hn, whole, _⟩, _⟩ := agrees
      simp only [hn, Option.getD_some] at more ⊢
      have full : min Config.maxChunk (buffer.length - n) = Config.maxChunk := by omega
      rw [full, Nat.add_mod_right, whole]
    · exact .ends e _
  · rw [if_neg inside]
    exact finish_move rfl _

theorem beginPush_move {p : Polarity} (h : beginPush Config.params p s = .next t) : Move s (.request (.push p)) t := by
  unfold beginPush at h
  split at h
  · cases h
  · obtain ⟨handle, h⟩ := onLink_next h
    cases h
    exact endPush_move _ handle rfl
  · next custom =>
    cases (onLink_next h).2
    exact pushFile_move p rfl rfl fun _ => custom

theorem beginSetField_move {p : Polarity} {f : GammaField} {x : Int} (h : beginSetField p f x s = .next t) :
    Move s (.request (.setField p f x)) t := by
  unfold beginSetField at h
  split at h
  · cases h
  · next i fixed =>
    cases h
    exact .ends (.stores p f x (by rw [fixed]; nofun)) _
  · next custom =>
    cases (onLink_next h).2
    exact .goesOn (.stores p f x (by rw [custom]; nofun)) _ rfl fun _ => custom

theorem startWrite_move {d : Direction} {command : Byte} {payload : Bytes} (h : startWrite d command payload s = .next t) :
    Move s (.request (.writeCommand d command payload)) t := by
  unfold startWrite at h
  split at h
  · cases h
    exact finish_move rfl _
  · split at h
    · cases h
    · next accepted =>
      obtain ⟨handle, h⟩ := onLink_next h
      cases h
      refine lastFrame_move ?_ handle rfl
      cases d with
      | write => exact .inl rfl
      | read => exact .inr (by_contra fun nonempty => accepted ⟨rfl, nonempty⟩)

theorem beginWindow_move {x0 y0 x1 y1 : U16} (h : beginWindow Config.params x0 y0 x1 y1 s = .next t) :
    Move s (.request (.setWindow x0 y0 x1 y1)) t := by
  unfold beginWindow at h
  split at h
  · cases h
  · obtain ⟨handle, h⟩ := onLink_next h
    cases h
    exact writeCommand_move (.inl rfl) handle rfl raise_reports fun _ e _ => .goesOn e _ rfl fun _ => trivial

/-- The answer of `RESP` goes to the end of `RX` before the read takes from its front. -/
theorem execResp_move {answer : Bytes} (h : execResp answer s = .next t) : Move s (.request (.resp answer)) t := by
  have h := (whenIdle_next h).2
  split at h
  · next large =>
    cases h
    exact finish_move (c := .request (.resp answer)) (if_pos large) _
  · next fits =>
    cases (onLink_next h).2
    have rx : (Cause.request (.resp answer)).rx s = readLeft answer.length (s.rx ++ answer) s := if_neg fits
    obtain ⟨draws, ⟨r, e⟩ | ⟨_, w, hw, _⟩⟩ := takeAnswer_left answer.length .response { s with rx := s.rx ++ answer }
    · have left := readLeft_congr answer.length (s.rx ++ answer) (s := s) (t := { s with rx := s.rx ++ answer }) rfl
      rw [e]
      exact .ends (.quiet draws (rx.trans left.symm)) r
    · cases hw

theorem takeAnswer_move (n : Nat) (whom : ReadFor) : Move s (.progress (.respond n whom)) (takeAnswer n whom s) := by
  obtain ⟨draws, ⟨r, e⟩ | ⟨bs, w, rfl, full, e⟩⟩ := takeAnswer_left n whom s <;> rw [e]
  · exact .ends (.quiet draws rfl) r
  · exact .goesOn (.quiet draws rfl) _ rfl fun agrees => full.trans (agrees.1.2 nofun)

/-- The first step of an operation is a move. -/
theorem exec_move {i : Instr} (h : exec i s = .next t) : Move s (.request i) t := by
  cases i with
  | fWrite command payload => exact emitWrite_move rfl h
  | fRead command length => exact emitRead_move rfl h
  | fCont payload => exact emitWrite_move (command := Config.cmdCont) rfl h
  | fCaset start stop => exact emitWrite_move (command := Config.params.cmdCaset) rfl h
  | fRaset start stop => exact emitWrite_move (command := Config.params.cmdRaset) rfl h
  | fRamwr => exact emitWrite_move (command := Config.params.cmdRamwr) rfl h
  | fGamset curve => exact emitWrite_move (command := Config.params.cmdGamset) rfl h
  | fPvgam image => exact emitWrite_move (command := Config.params.cmdPvgam) rfl h
  | fNvgam image => exact emitWrite_move (command := Config.params.cmdNvgam) rfl h
  | fRddst => exact emitRead_move rfl h
  | win start stop => exact formed_move rfl h
  | pix16 red green blue => exact formed_move rfl h
  | onehot0 => exact formed_move rfl h
  | onehot1 => exact formed_move rfl h
  | onehot2 => exact formed_move rfl h
  | onehot3 => exact formed_move rfl h
  | img112 image => cases (whenIdle_next h).2; exact decodeTable_move image rfl
  | img40 image => cases (whenIdle_next h).2; exact decodeStatus_move .host rfl rfl rfl
  | resp answer => exact execResp_move h
  | chunk slice => exact formed_move rfl h
  | writeCommand direction command payload => exact startWrite_move (whenIdle_next h).2
  | readResponse command length => exact beginRead_move rfl rfl (fun hw => absurd rfl hw) (whenIdle_next h).2
  | setWindow x0 y0 x1 y1 => exact beginWindow_move (whenIdle_next h).2
  | streamPixels buffer =>
    obtain ⟨handle, h⟩ := onLink_next (whenIdle_next h).2
    cases h
    exact startStream_move buffer handle rfl
  | packPixel r g b =>
    obtain ⟨bs, _, h⟩ := accept_next (whenIdle_next h).2
    cases h
    exact finish_move rfl _
  | decodeStatus bytes => cases (whenIdle_next h).2; exact decodeStatus_move .host rfl rfl rfl
  | readStatus => exact beginStatus_move rfl rfl (whenIdle_next h).2
  | gammaDecode bytes => cases (whenIdle_next h).2; exact decodeTable_move bytes rfl
  | gammaEncode table =>
    obtain ⟨values, _, h⟩ := accept_next (whenIdle_next h).2
    cases h
    exact finish_move rfl _
  | loadCal p => cases (whenIdle_next h).2; exact startLoad_move p .host rfl rfl
  | attach => exact beginStatus_move rfl rfl (whenIdle_next h).2
  | setField p f value => exact beginSetField_move (whenIdle_next h).2
  | push p => exact beginPush_move (whenIdle_next h).2
  | selectCurve curve =>
    obtain ⟨i, hi, h⟩ := accept_next (whenIdle_next h).2
    cases (onLink_next h).2
    rw [eq_val_of_curveOperand hi]
    exact .goesOn (.selects i) _ rfl fun _ => rfl
  | enterCustom => cases (whenIdle_next h).2; exact .ends .enters _
  | startup => cases (onLink_next (whenIdle_next h).2).2; exact startLoad_move .positive _ rfl rfl

/-- Every later step of an operation is a move. -/
theorem resume_move {p : Progress} (hb : s.busy = some p) (h : resume Config.params p s = .next t) :
    Move s (.progress p) t := by
  cases p with
  | blocked => cases h
  | respond n whom => cases (onLink_next h).2; exact takeAnswer_move n whom
  | decode image whom => cases h; exact decodeStatus_move whom rfl rfl rfl
  | derive gamma whom =>
    obtain ⟨i, hi, h⟩ := accept_next h
    cases h
    obtain ⟨r, e⟩ := endAttach_eq whom .ok { s with mode := .fixed i }
    rw [e]
    exact .ends (.attaches whom (toNat_eq_of_curveOfStatus hi)) r
  | rows start stop =>
    obtain ⟨handle, h⟩ := onLink_next h
    cases h
    exact lastFrame_move (.inl rfl) handle rfl
  | chunks buffer =>
    obtain ⟨handle, h⟩ := onLink_next h
    cases h
    exact streamStep_move hb handle
  | curve i =>
    obtain ⟨handle, h⟩ := onLink_next h
    cases h
    exact lastFrame_move (.inl rfl) handle rfl
  | fill p file whom =>
    cases h
    rcases fillBank_cases p file whom s with ⟨rfl, e⟩ | ⟨bs, rfl, _, e⟩ | ⟨bs, table, rfl, hd, e⟩ <;> rw [e]
    · exact endLoad_move (.clears p whom) rfl whom _
    · exact endLoad_move (.nothing rfl) rfl whom _
    · exact endLoad_move (.fills p whom hd) rfl whom _
  | pushFile p => cases h; exact pushFile_move p rfl rfl fun agrees => agrees.1
  | pushDevice p image file =>
    obtain ⟨handle, h⟩ := onLink_next h
    cases h
    exact endPush_move file handle rfl
  | loadNegative positive => cases h; exact startLoad_move .negative _ rfl rfl
  | attachNext positive negative => exact beginStatus_move rfl rfl h

end Operations

/-! ### Each step of the machine -/

/-- The cause is what the next step of the state begins with: a request at the head of the inbox of an idle block, or the operation in
progress when no outside event comes first. -/
def Cause.Comes (s : State) : Cause → Prop
  | .request i => s.busy = none ∧
      ∃ format bs rest, s.inbox = .request format bs :: rest ∧ decode Config.params format bs = .ok i
  | .progress p => s.busy = some p ∧ p ≠ .blocked ∧ (undisturbed s = true ∨ ∃ rest, s.inbox = .quiet :: rest)

/-- Everything a step of the machine can do: an outside event, nothing in an idle block, or a move of an operation. -/
inductive Happens (s : State) : State → Prop where
  /-- Bytes of the device come (R20). -/
  | deviceBytes {bs : Bytes} {rest : List Stimulus} (hi : s.inbox = .deviceBytes bs :: rest) :
    Happens s { s with inbox := rest, rx := s.rx ++ bs }
  /-- Controller start (R215). -/
  | restarts {rest : List Stimulus} (hi : s.inbox = .restart :: rest) : Happens s (restart { s with inbox := rest })
  /-- The host supplies or withdraws the handle (R217 (1)). -/
  | handle {b : Bool} {rest : List Stimulus} (hi : s.inbox = .handle b :: rest) :
    Happens s { s with inbox := rest, handleOpen := b }
  /-- Nothing comes to an idle block (R205). -/
  | idles (inbox : List Stimulus) (hb : s.busy = none) (hi : s.inbox = [] ∨ ∃ rest, s.inbox = .quiet :: rest) :
    Happens s { s with inbox := inbox }
  /-- A step of an operation. -/
  | moves {c : Cause} {inbox : List Stimulus} {t : State} (hc : c.Comes s) (m : Move { s with inbox := inbox } c t) :
    Happens s t

/-- Every step that answers a next state is one of these. -/
theorem step_happens {s t : State} (h : step s = .next t) : Happens s t := by
  have hn : s.busy ≠ some .blocked := fun hb => by rw [step_stuck hb] at h; cases h
  have carries (p : Progress) (hb : s.busy = some p) (hq : undisturbed s = true) : Happens s t := by
    have hp : p ≠ .blocked := fun e => hn (e ▸ hb)
    rw [step_carries_on hb hp hq] at h
    exact .moves (c := .progress p) (inbox := s.inbox) ⟨hb, hp, .inl hq⟩ (resume_move hb h)
  cases hi : s.inbox with
  | nil =>
    cases hb : s.busy with
    | none =>
      cases (step_nothing hb hi).symm.trans h
      exact .idles s.inbox hb (.inl hi)
    | some p => exact carries p hb (by simp only [undisturbed, hi])
  | cons event rest =>
    cases event with
    | deviceBytes bs => cases (step_deviceBytes hn hi).symm.trans h; exact .deviceBytes hi
    | restart => cases (step_restart hn hi).symm.trans h; exact .restarts hi
    | handle b => cases (step_handle hn hi).symm.trans h; exact .handle hi
    | quiet =>
      cases hb : s.busy with
      | none => cases (step_quiet_idle hb hi).symm.trans h; exact .idles rest hb (.inr ⟨rest, hi⟩)
      | some p =>
        have hp : p ≠ .blocked := fun e => hn (e ▸ hb)
        rw [step_quiet_busy hb hp hi] at h
        exact .moves (c := .progress p) (inbox := rest) ⟨hb, hp, .inr ⟨rest, hi⟩⟩ (resume_move hb h)
    | request format bs =>
      cases hb : s.busy with
      | none =>
        cases hd : decode Config.params format bs with
        | ok i =>
          rw [step_request hb hi hd] at h
          exact .moves (c := .request i) ⟨hb, format, bs, rest, hi, hd⟩ (exec_move h)
        | error e => rw [step_badRequest hb hi hd] at h; cases h
      | some p => exact carries p hb (by simp only [undisturbed, hi])

/-! ### The operation in progress (R16, R37, R101, R159, R160) -/

/-- The state agrees with the cause of its next step. -/
theorem Cause.Comes.agrees {s : State} {c : Cause} (hc : c.Comes s) (h : Consistent s) : c.Agrees s := by
  obtain ⟨holds, live⟩ := h
  cases c with
  | request i =>
    by_contra hcur
    rcases live hcur with e | ⟨_, e⟩ <;> rw [hc.1] at e <;> cases e
  | progress p =>
    obtain ⟨hb, hp, _⟩ := hc
    refine ⟨holds p hb, fun hcur => ?_⟩
    rcases live hcur with e | ⟨buffer, e⟩ <;> rw [hb] at e <;> cases e
    · exact absurd rfl hp
    · exact ⟨buffer, rfl⟩

/-- The inbox, the handle and the streams have no part in the agreement. -/
theorem consistent_of_eq {s t : State} (h : Consistent s) (hg : t.gt = s.gt) (hm : t.mode = s.mode) (hc : t.cur = s.cur)
    (hn : t.nvs = s.nvs) (hb : t.busy = s.busy) : Consistent t := by
  have same (p : Progress) : p.holds t ↔ p.holds s := by
    cases p <;> simp only [Progress.holds, hg, hm, hc, hn]
  simpa only [Consistent, same, hc, hb] using h

/-- Settles O15: an outside event leaves what `Consistent` speaks of or ends the operation, and a move keeps the agreement. -/
theorem consistentIsKept : Obligations.ConsistentIsKept := by
  unfold Obligations.ConsistentIsKept
  intro s t consistent h
  cases step_happens h with
  | deviceBytes | handle | idles => exact consistent_of_eq consistent rfl rfl rfl rfl rfl
  | restarts => exact consistent_of_idle rfl rfl
  | moves hc m => exact m.consistent (hc.agrees consistent)

/-! ### Where a `RESP` comes from (R56, R81) -/

/-- All that a reader gives has the property. -/
def Gives (r : Read Instr) (P : Instr → Prop) : Prop := ∀ i rest, r = .ok (i, rest) → P i

theorem gives_ok {i : Instr} {rest : Bytes} {P : Instr → Prop} (h : P i) : Gives (.ok (i, rest)) P := by
  intro _ _ e
  cases e
  exact h

theorem gives_readThen {α : Type} {r : Read α} {f : α → Bytes → Read Instr} {P : Instr → Prop}
    (h : ∀ a rest, Gives (f a rest) P) : Gives (readThen r f) P := by
  cases r with
  | ok x => exact h x.1 x.2
  | error e => intro _ _ e; cases e

/-- The operands that follow the selector of an operation make an instruction of that operation. -/
theorem getOperands_operation (op : HostOp) (bs : Bytes) :
    Gives (getOperands op bs) fun i => Laws.RowShape.operation i = some op := by
  cases op with
  | readStatus | attach | enterCustom | startup => exact gives_ok rfl
  | streamPixels | decodeStatus | gammaDecode | gammaEncode | loadCal | push | selectCurve =>
    exact gives_readThen fun _ _ => gives_ok rfl
  | readResponse => exact gives_readThen fun _ _ => gives_readThen fun _ _ => gives_ok rfl
  | writeCommand | packPixel | setField =>
    exact gives_readThen fun _ _ => gives_readThen fun _ _ => gives_readThen fun _ _ => gives_ok rfl
  | setWindow =>
    exact gives_readThen fun _ _ => gives_readThen fun _ _ => gives_readThen fun _ _ => gives_readThen fun _ _ =>
      gives_ok rfl

theorem writeKind_format (cfg : Params) (command : Byte) (payload : Bytes) :
    Laws.RowShape.format (writeKind cfg command payload) = .frame := by
  unfold writeKind
  repeat' split
  all_goals rfl

theorem frameKind_format (cfg : Params) (f : Frame) : Laws.RowShape.format (frameKind cfg f) = .frame := by
  unfold frameKind
  split
  · exact writeKind_format cfg _ _
  · repeat' split
    all_goals rfl

theorem decodeHostop_operation (cfg : Params) (bs : Bytes) :
    Gives (decodeHostop cfg bs) fun i => Laws.RowShape.operation i ≠ none := by
  refine gives_readThen fun selector rest => ?_
  cases hostOpOf cfg selector with
  | none => intro _ _ e; cases e
  | some op =>
    intro i rest' e
    rw [getOperands_operation op rest i rest' e]
    nofun

theorem decodeFrame_format (cfg : Params) (bs : Bytes) :
    Gives (decodeFrame cfg bs) fun i => Laws.RowShape.format i = .frame :=
  gives_readThen fun f _ => gives_ok (frameKind_format cfg f)

theorem Gives.of_map {r : Read Instr} {P : Instr → Prop} (hr : Gives r P) {i : Instr} (h : r.map Prod.fst = .ok i) : P i := by
  cases r with
  | ok x => cases h; exact hr x.1 x.2 rfl
  | error e => cases h

/-- A request decodes to `RESP` only in the format of that row, and within `MAX_CHUNK`. -/
theorem decode_resp_length {cfg : Params} {format : Format} {bs answer : Bytes}
    (h : decode cfg format bs = .ok (.resp answer)) : answer.length ≤ Config.maxChunk := by
  cases format with
  | hostop => exact absurd rfl ((decodeHostop_operation cfg bs).of_map h)
  | frame => cases (decodeFrame_format cfg bs).of_map h
  | resp =>
    simp only [decode, decodeResp] at h
    split at h
    · next fits => cases h; exact fits
    · cases h
  | win => simp only [decode, decodeWin] at h; split at h <;> cases h
  | pix16 => simp only [decode, decodePix16] at h; split at h <;> cases h
  | onehot8 =>
    simp only [decode, decodeOnehot] at h
    repeat' split at h
    all_goals cases h
  | img112 => simp only [decode, decodeImg112] at h; split at h <;> cases h
  | img40 => simp only [decode, decodeImg40] at h; split at h <;> cases h
  | chunk => simp only [decode, decodeChunk] at h; split at h <;> cases h

/-! ### The histories (R20, R37, R41, R196) -/

theorem Cause.rx_inbox (c : Cause) (s : State) (inbox : List Stimulus) : c.rx { s with inbox := inbox } = c.rx s := by
  have same (n : Nat) (queue : Bytes) := readLeft_congr n queue (s := s) (t := { s with inbox := inbox }) rfl
  unfold Cause.rx
  split <;> simp only [same]

theorem rxAfter_quiet {s : State} (h : undisturbed s = true ∨ ∃ rest, s.inbox = .quiet :: rest) (hb : s.busy ≠ none) :
    rxAfter s = rxAfterProgress s := by
  rcases h with h | ⟨rest, hi⟩
  · unfold undisturbed at h
    unfold rxAfter
    split at h
    · next hi => simp only [hi]
    · next hi => simp only [hi, hb, if_false]
    · cases h
  · simp only [rxAfter, hi]

/-- What the claims say of `RX` is what the cause of the step says. -/
theorem Cause.Comes.rxAfter_eq {s : State} {c : Cause} (hc : c.Comes s) : rxAfter s = c.rx s := by
  cases c with
  | progress p =>
    obtain ⟨hb, _, quiet⟩ := hc
    rw [rxAfter_quiet quiet (by rw [hb]; nofun)]
    unfold rxAfterProgress Cause.rx
    rw [hb]
    cases p <;> rfl
  | request i =>
    obtain ⟨hb, format, bs, rest, hi, hd⟩ := hc
    have requested : rxAfter s = rxAfterRequest format bs s := by simp only [rxAfter, hi, hb, if_true]
    rw [requested]
    unfold rxAfterRequest
    rw [hd]
    cases i with
    | resp answer => exact (if_neg (Nat.not_lt.mpr (decode_resp_length hd))).symm
    | _ => rfl

/-- Settles O24: an outside event sends nothing, and a move at most one frame. -/
theorem sendingNeedsTheHandle : Obligations.SendingNeedsTheHandle := by
  unfold Obligations.SendingNeedsTheHandle
  intro s t h
  cases step_happens h with
  | deviceBytes | restarts | handle | idles => exact .inl rfl
  | moves _ m => exact m.tx_cases

theorem step_tx {s t : State} (h : step s = .next t) : ∃ sent, t.tx = s.tx ++ sent := by
  rcases sendingNeedsTheHandle s t h with htx | ⟨_, f, k, _, htx, _⟩
  · exact ⟨[], by rw [htx, List.append_nil]⟩
  · exact ⟨_, htx⟩

theorem step_rx {s t : State} (h : step s = .next t) : t.rx = rxAfter s := by
  cases step_happens h with
  | deviceBytes hi | restarts hi | handle hi => simp only [rxAfter, hi, restart_rx]
  | idles inbox hb hi =>
    have same : rxAfterProgress s = s.rx := by simp only [rxAfterProgress, hb]
    rcases hi with hi | ⟨rest, hi⟩ <;> simp only [rxAfter, hi, same]
  | @moves c _ _ hc m =>
    obtain ⟨u, e, _, _, _, hrx, _⟩ := m.exists_effect
    rw [hrx, e.rx_eq, c.rx_inbox, hc.rxAfter_eq]

theorem step_results {s t : State} (h : step s = .next t) : t.results = s.results ∨ ∃ r, t.results = s.results ++ [r] := by
  cases step_happens h with
  | deviceBytes | restarts | handle | idles => exact .inl rfl
  | moves _ m => exact m.results_cases

theorem step_notified {s t : State} (h : step s = .next t) : t.notified = s.notified ∨ ∃ p, t.notified = s.notified ++ [p] := by
  cases step_happens h with
  | deviceBytes | restarts | handle | idles => exact .inl rfl
  | moves _ m =>
    obtain ⟨u, e, _, _, _, _, hn⟩ := m.exists_effect
    rw [hn]
    exact e.notified_cases

theorem exists_append_le_one {α : Type} {l m : List α} (h : m = l ∨ ∃ a, m = l ++ [a]) :
    ∃ new : List α, new.length ≤ 1 ∧ m = l ++ new := by
  rcases h with rfl | ⟨a, rfl⟩
  · exact ⟨[], Nat.zero_le 1, (List.append_nil _).symm⟩
  · exact ⟨[a], le_rfl, rfl⟩

/-- Settles O18, history by history. -/
theorem historiesOnlyGrow : Obligations.HistoriesOnlyGrow := fun _ _ h =>
  ⟨step_tx h, step_rx h, exists_append_le_one (step_results h), exists_append_le_one (step_notified h)⟩

/-! ### The writers of the registers (R13, R15, R17) -/

/-- Settles O51: the effects that write `MODE`, each with its cause. -/
theorem writersOfMode : Obligations.WritersOfMode := by
  unfold Obligations.WritersOfMode
  intro s t h
  cases step_happens h with
  | deviceBytes | handle | idles => exact .inl rfl
  | restarts hi => exact .inr (.inl ⟨rfl, _, hi⟩)
  | moves hc m =>
    obtain ⟨u, e, _, hmode, _⟩ := m.exists_effect
    rw [hmode]
    rcases e.mode_cases with same | ⟨gamma, whom, i, rfl, hi, written⟩ | ⟨i, rfl, written⟩ | ⟨rfl, written⟩
    · exact .inl same
    · exact .inr (.inr (.inl ⟨gamma, whom, i, hc.1, hi, written⟩))
    · obtain ⟨hb, format, bs, rest, hi, hd⟩ := hc
      exact .inr (.inr (.inr ⟨format, bs, rest, hb, hi, .inl ⟨i, hd, written⟩⟩))
    · obtain ⟨hb, format, bs, rest, hi, hd⟩ := hc
      exact .inr (.inr (.inr ⟨format, bs, rest, hb, hi, .inr ⟨hd, written⟩⟩))

/-- A step that decodes an image has the decode next, or one of the two rows that decode one is requested. -/
theorem Cause.Comes.image_cases {s : State} {c : Cause} {image : Bytes} (hc : c.Comes s) (hi : c.image = some image) :
    (∃ whom, s.busy = some (.decode image whom)) ∨
    (∃ format bs rest, s.busy = none ∧ s.inbox = .request format bs :: rest ∧
      (decode Config.params format bs = .ok (.decodeStatus image) ∨
       decode Config.params format bs = .ok (.img40 image))) := by
  cases c with
  | progress p =>
    cases p with
    | decode _ whom => cases hi; exact .inl ⟨whom, hc.1⟩
    | _ => cases hi
  | request i =>
    obtain ⟨hb, format, bs, rest, hin, hd⟩ := hc
    refine .inr ⟨format, bs, rest, hb, hin, ?_⟩
    cases i with
    | decodeStatus => cases hi; exact .inl hd
    | img40 => cases hi; exact .inr hd
    | _ => cases hi

/-- Settles O53: the decode is the only effect that writes `DIAG_STATUS_PAD`. -/
theorem writersOfStatusPad : Obligations.WritersOfStatusPad := by
  unfold Obligations.WritersOfStatusPad
  intro s t h
  cases step_happens h with
  | deviceBytes | handle | idles => exact .inl rfl
  | restarts hi => exact .inr (.inl ⟨rfl, _, hi⟩)
  | moves hc m =>
    obtain ⟨u, e, _, _, hpad, _⟩ := m.exists_effect
    rw [hpad]
    rcases e.pad_cases with same | ⟨image, view, pad, hi, hd, written⟩
    · exact .inl same
    · exact .inr (.inr ⟨image, view, pad, hd, written, hc.image_cases hi⟩)

/-! ### The registers of a gamma table (R12, R135, R158) -/

theorem drop_bitsOfNat (i n v : Nat) : (bitsOfNat (i + n) v).drop i = bitsOfNat n v := by
  induction i with
  | zero => rw [Nat.zero_add, List.drop_zero]
  | succ i ih => rw [Nat.succ_add, bitsOfNat, List.drop_succ_cons, ih]

theorem take_bitsOfNat (w k v : Nat) : (bitsOfNat (w + k) v).take w = bitsOfNat w (v >>> k) := by
  induction w with
  | zero => rfl
  | succ w ih => rw [Nat.succ_add, bitsOfNat, List.take_succ_cons, ih, bitsOfNat, Nat.testBit_shiftRight, Nat.add_comm w k]

/-- The number `Unpack` reads from `w` bits of a byte, `k` bits below which are left (R62). -/
theorem natOfBits_slice (b : Byte) {i w k : Nat} (h : i + (w + k) = 8) :
    BitVec.ofNat w (natOfBits (((bitsOfByte b).drop i).take w)) = b.extractLsb' k w := by
  have bits : bitsOfByte b = bitsOfNat (i + (w + k)) b.toNat := by rw [h, bitsOfByte_eq]
  rw [bits, drop_bitsOfNat, take_bitsOfNat, natOfBits_bitsOfNat]
  exact BitVec.eq_of_toNat_eq (by simp)

/-- R135: `Unpack` of the gamma layout is the table read byte by byte. -/
theorem gammaDecode_eq_tableOfBytes (bs : Bytes) : gammaDecode bs = tableOfBytes bs := by
  by_cases h : bs.length = 14
  · match bs, h with
    | [b0, b1, b2, b3, b4, b5, b6, b7, b8, b9, b10, b11, b12, b13], _ =>
      simp only [tableOfBytes]
      rw [← natOfBits_slice b0 (i := 0) (k := 4) rfl, ← natOfBits_slice b0 (i := 4) (k := 0) rfl, ← natOfBits_slice b1 (i := 2) rfl,
        ← natOfBits_slice b2 (i := 2) rfl, ← natOfBits_slice b3 (i := 3) rfl, ← natOfBits_slice b4 (i := 3) rfl,
        ← natOfBits_slice b5 (i := 2) rfl, ← natOfBits_slice b5 (i := 4) rfl, ← natOfBits_slice b6 (i := 1) rfl,
        ← natOfBits_slice b7 (i := 1) rfl, ← natOfBits_slice b7 (i := 5) rfl, ← natOfBits_slice b8 (i := 1) rfl,
        ← natOfBits_slice b9 (i := 2) rfl, ← natOfBits_slice b9 (i := 4) rfl, ← natOfBits_slice b10 (i := 3) rfl,
        ← natOfBits_slice b11 (i := 3) rfl, ← natOfBits_slice b12 (i := 2) rfl, ← natOfBits_slice b13 (i := 2) rfl]
      rfl
  · rw [gammaDecode, if_neg (show ¬bs.length = Config.gammaLen from h)]
    unfold tableOfBytes
    split
    · exact absurd rfl h
    · rfl

theorem clamp_eq_clamped (f : GammaField) (x : Int) : clamp (gammaWidth f) x = clamped f x := by
  have pos : (0 : Int) < 2 ^ gammaWidth f := by positivity
  have cast : ((2 ^ gammaWidth f : Nat) : Int) = 2 ^ gammaWidth f := by push_cast; rfl
  unfold clamp clamped
  split
  · omega
  · split <;> omega

/-- The register `SET_FIELD` stores into holds the clamped value (R158). -/
theorem get_set_clamp (t : GammaTable) (f : GammaField) (x : Int) :
    (t.set f (clamp (gammaWidth f) x)).get f = clamped f x := by
  rw [GammaTable.get_set_self, Nat.mod_eq_of_lt (clamp_lt _ _), clamp_eq_clamped]

/-- Settles O52: an effect that writes a bank writes the register asked for, or leaves it. -/
theorem writersOfGamma : Obligations.WritersOfGamma := by
  unfold Obligations.WritersOfGamma
  intro s t p f h
  cases step_happens h with
  | deviceBytes | handle | idles => exact .inl rfl
  | restarts hi =>
    refine .inr (.inl ⟨?_, _, hi⟩)
    rw [restart_gt, Banks.get_all, GammaTable.get_zero]
  | moves hc m =>
    obtain ⟨u, e, hgt, _⟩ := m.exists_effect
    rw [hgt]
    have other {q : Polarity} {table : GammaTable} (hp : p ≠ q) : ((s.gt.set q table).get p).get f = (s.gt.get p).get f := by
      rw [Banks.get_set_of_ne _ _ hp]
    rcases e.gt_cases with same | ⟨q, whom, rfl, written⟩ | ⟨q, bs, whom, table, rfl, hd, written⟩ |
      ⟨q, g, x, rfl, attached, written⟩
    · exact .inl (by rw [same])
    all_goals rw [written]; by_cases hp : p = q
    case neg | neg | neg => exact .inl (other hp)
    · subst hp
      exact .inr (.inr (.inl ⟨by rw [Banks.get_set_self, GammaTable.get_zero], whom, hc.1⟩))
    · subst hp
      rw [gammaDecode_eq_tableOfBytes] at hd
      exact .inr (.inr (.inr (.inl ⟨bs, whom, table, hc.1, hd, by rw [Banks.get_set_self]⟩)))
    · subst hp
      by_cases hf : f = g
      · subst hf
        obtain ⟨hb, format, bs, rest, hi, hd⟩ := hc
        refine .inr (.inr (.inr (.inr ⟨format, bs, rest, x, hb, hi, hd, attached, ?_⟩)))
        rw [Banks.get_set_self]
        exact get_set_clamp _ f x
      · exact .inl (by rw [Banks.get_set_self, GammaTable.get_set_of_ne _ _ hf])

end Sys2Proof.StateLaws

/-! PROOFS of the family of spec/20_memory.md: how a step takes up a request or carries the operation in progress on (O8, O10), that an
operation run to its end is a run of the machine (O12), that `TX` stays a sequence of whole frames while no link write has failed or
blocked (O17), and the one writer of a file (O54).

The first three go through the moves of an operation: a move leaves the inbox as it is, and sends at most one frame. For the last,
`Blind` of the family of spec/00_scope.md says that an operation of the core leaves the store; the operations of the Calibration
Controller are gone through one by one. -/

namespace Sys2Proof.MemoryLaws

open Machine Claims Scope StateLaws

/-! ### Which step comes next (R41, D2) -/

/-- Settles O8. -/
theorem stepRunsTheRequest : Obligations.StepRunsTheRequest := fun _ _ _ _ _ => step_request

/-- Settles O10. -/
theorem stepCarriesTheOperationOn : Obligations.StepCarriesTheOperationOn := fun _ _ => step_carries_on

/-! ### A whole operation (D2) -/

theorem effect_inbox {s u : State} {c : Cause} (e : Effect s c u) : u.inbox = s.inbox := by cases e <;> rfl

/-- The steps of an operation take nothing from the inbox. -/
theorem move_inbox {s t : State} {c : Cause} (m : Move s c t) : t.inbox = s.inbox := by
  cases m with
  | ends e | goesOn e | streams e => exact (effect_inbox e :)
  | fails | sticks => rfl

theorem undisturbed_of_move {s t : State} {c : Cause} (m : Move s c t) (h : undisturbed s = true) : undisturbed t = true := by
  unfold undisturbed at h ⊢
  rw [move_inbox m]
  exact h

section Run

variable {M : Host.Core} {s : M.State}

theorem run_succ_of_next {t : M.State} (h : M.step s = .next t) (k : Nat) : M.run (k + 1) s = M.run k t := by
  rw [Host.Core.run, h]

theorem run_one_of_fault {r : M.Fault} (h : M.step s = .fault r) : M.run 1 s = .fault r := by
  rw [Host.Core.run, h]

theorem run_one_of_refused {r : M.Refusal} (h : M.step s = .refused r) : M.run 1 s = .refused r := by
  rw [Host.Core.run, h]

end Run

/-- The rest of an undisturbed operation is a run of the machine of no more steps than its fuel: each step of the one is a step of the
other, and an operation that has ended or is stuck is the run of no step. -/
theorem settle_is_run (fuel : Nat) (s : State) (h : undisturbed s = true) :
    ∃ k, k ≤ fuel ∧ Host.Core.run Sys2Proof.core k s = settle Config.params fuel s := by
  induction fuel generalizing s with
  | zero => exact ⟨0, le_rfl, rfl⟩
  | succ fuel ih =>
    by_cases ended : s.busy = none ∨ s.busy = some .blocked
    · exact ⟨0, Nat.zero_le _, (settle_ended Config.params _ ended).symm⟩
    · obtain ⟨idle, stuck⟩ := not_or.mp ended
      obtain ⟨p, hp⟩ := Option.ne_none_iff_exists'.mp idle
      have going : p ≠ .blocked := fun e => stuck (e ▸ hp)
      have first : step s = resume Config.params p s := step_carries_on hp going h
      rw [settle_busy Config.params fuel hp going, ← first]
      cases e : step s with
      | next t =>
        have later : undisturbed t = true := undisturbed_of_move (resume_move hp (first.symm.trans e)) h
        obtain ⟨k, hk, run⟩ := ih t later
        exact ⟨k + 1, Nat.succ_le_succ hk, (run_succ_of_next (M := Sys2Proof.core) e k).trans run⟩
      | fault r => exact ⟨1, Nat.le_add_left 1 fuel, run_one_of_fault (M := Sys2Proof.core) e⟩
      | refused r => exact ⟨1, Nat.le_add_left 1 fuel, run_one_of_refused (M := Sys2Proof.core) e⟩

/-- Settles O12: after its first step, the operation is the same run whatever it answers in the end. -/
theorem performIsARun : Obligations.PerformIsARun := by
  unfold Obligations.PerformIsARun
  intro i s u h first
  have rest : perform i s = settle Config.params (stepsLeft u) u := by rw [perform_eq, first]; rfl
  obtain ⟨k, hk, run⟩ := settle_is_run (stepsLeft u) u (undisturbed_of_move (exec_move first) h)
  rw [rest, ← run]
  exact ⟨fun _ e => ⟨k, hk, e⟩, fun _ e => ⟨k, hk, e⟩⟩

/-! ### The link as the receiver reads it (R35, R55, R84) -/

theorem framesBytes_concat (fs : List Frame) (f : Frame) : framesBytes (fs ++ [f]) = framesBytes fs ++ f.bytes := by
  simp only [framesBytes, List.flatMap_append, List.flatMap_singleton]

theorem linkLost_eq_false_iff {s : State} :
    linkLost s = false ↔ s.busy ≠ some .blocked ∧ ∀ r ∈ s.results, r.linkFailed = false := by
  simp [linkLost]

/-- A lost link stays lost: the stuck block has no step, and no step takes back a result. -/
theorem linkLost_of_step {s t : State} (h : step s = .next t) (kept : linkLost t = false) : linkLost s = false := by
  obtain ⟨_, reported⟩ := linkLost_eq_false_iff.mp kept
  refine linkLost_eq_false_iff.mpr ⟨fun hb => ?_, fun r hr => reported r ?_⟩
  · rw [step_stuck hb] at h
    cases h
  · rcases step_results h with e | ⟨_, e⟩ <;> rw [e]
    · exact hr
    · exact List.mem_append_left _ hr

/-- A step that does not lose the link sends nothing, or one whole frame. -/
theorem step_sends_whole_frame {s t : State} (h : step s = .next t) (kept : linkLost t = false) :
    t.tx = s.tx ∨ ∃ f : Frame, f.wf = true ∧ t.tx = s.tx ++ f.bytes := by
  obtain ⟨going, reported⟩ := linkLost_eq_false_iff.mp kept
  rcases sendingNeedsTheHandle s t h with same | ⟨_, f, k, wf, sent, whole | stuck | ⟨r, results, failed⟩⟩
  · exact .inl same
  · exact .inr ⟨f, wf, by rw [sent, List.take_of_length_le whole]⟩
  · exact absurd stuck going
  · have last : r ∈ t.results := by rw [results]; exact List.mem_append_right _ (List.mem_singleton_self r)
    rw [reported r last] at failed
    cases failed

/-- Settles O17: the frames so far, and the one that the step sends. -/
theorem framedIsKept : Obligations.FramedIsKept := by
  unfold Obligations.FramedIsKept
  intro s t framed h kept
  obtain ⟨fs, wf, htx⟩ := framed (linkLost_of_step h kept)
  rcases step_sends_whole_frame h kept with same | ⟨f, hf, sent⟩
  · exact ⟨fs, wf, same.trans htx⟩
  · refine ⟨fs ++ [f], fun g hg => ?_, by rw [sent, htx, framesBytes_concat]⟩
    rcases List.mem_append.mp hg with hg | hg
    · exact wf g hg
    · rw [List.mem_singleton.mp hg]
      exact hf

/-! ### The gamma image, byte by byte (R60, R136) -/

theorem bitsOfNat_append (w k v : Nat) : bitsOfNat (w + k) v = bitsOfNat w (v >>> k) ++ bitsOfNat k v := by
  rw [← List.take_append_drop w (bitsOfNat (w + k) v), take_bitsOfNat, drop_bitsOfNat]

/-- The bits of a number whose low `k` bits are `y`. -/
theorem bitsOfNat_mul_add (w k x y : Nat) (hy : y < 2 ^ k) :
    bitsOfNat (w + k) (x * 2 ^ k + y) = bitsOfNat w x ++ bitsOfNat k y := by
  have high : (x * 2 ^ k + y) >>> k = x := by
    rw [Nat.shiftRight_eq_div_pow, Nat.add_comm, Nat.add_mul_div_right _ _ (Nat.two_pow_pos k), Nat.div_eq_of_lt hy,
      Nat.zero_add]
  rw [bitsOfNat_append, high, bitsOfNat_add_mul]

/-- A field behind `w` pad bits (R63). -/
theorem bitsOfNat_padded (w k x : Nat) : bitsOfNat (w + k) (lo k x) = bitsOfNat w 0 ++ bitsOfNat k (lo k x) := by
  have padded := bitsOfNat_mul_add w k 0 (lo k x) (lo_lt k x)
  rwa [Nat.zero_mul, Nat.zero_add] at padded

theorem bitsOfByte_ofNat {n : Nat} (h : n < 256) : bitsOfByte (BitVec.ofNat 8 n) = bitsOfNat 8 n := by
  rw [bitsOfByte_eq, BitVec.toNat_ofNat, Nat.mod_eq_of_lt h]

theorem lo_lt_two_pow {k n : Nat} (x : Nat) (h : k ≤ n) : lo k x < 2 ^ n :=
  (lo_lt k x).trans_le (Nat.pow_le_pow_right Nat.two_pos h)

/-- A byte of the image with one field, behind `w` pad bits. -/
theorem bitsOfByte_field (w k x : Nat) (h : w + k = 8) :
    bitsOfByte (BitVec.ofNat 8 (lo k x)) = bitsOfNat w 0 ++ bitsOfNat k (lo k x) := by
  rw [bitsOfByte_ofNat (lo_lt_two_pow x (by omega : k ≤ 8)), ← h, bitsOfNat_padded]

/-- A byte of the image with one field in each half, each behind its pad bits. -/
theorem bitsOfByte_fields (w k x w' k' y : Nat) (h : w + k = 4) (h' : w' + k' = 4) :
    bitsOfByte (BitVec.ofNat 8 (lo k x * 16 + lo k' y)) =
      bitsOfNat w 0 ++ bitsOfNat k (lo k x) ++ (bitsOfNat w' 0 ++ bitsOfNat k' (lo k' y)) := by
  have high : lo k x < 2 ^ 4 := lo_lt_two_pow x (by omega)
  have low : lo k' y < 2 ^ 4 := lo_lt_two_pow y (by omega)
  have halves : bitsOfNat 8 (lo k x * 16 + lo k' y) = bitsOfNat 4 (lo k x) ++ bitsOfNat 4 (lo k' y) :=
    bitsOfNat_mul_add 4 4 _ _ low
  rw [bitsOfByte_ofNat (by omega), halves, ← bitsOfNat_padded, ← bitsOfNat_padded, h, h']

/-- The image that R136 writes byte by byte has the bits that `Pack` lays out. -/
theorem bitsOfBytes_bytesOfTable (v : GammaField → Nat) : bitsOfBytes (bytesOfTable v) = packedBits gammaLayout v := by
  have bytes : bytesOfTable v =
      [BitVec.ofNat 8 (lo 4 (v .v63) * 16 + lo 4 (v .v0)), BitVec.ofNat 8 (lo 6 (v .v1)), BitVec.ofNat 8 (lo 6 (v .v2)),
       BitVec.ofNat 8 (lo 5 (v .v4)), BitVec.ofNat 8 (lo 5 (v .v6)), BitVec.ofNat 8 (lo 2 (v .j0) * 16 + lo 4 (v .v13)),
       BitVec.ofNat 8 (lo 7 (v .v20)), BitVec.ofNat 8 (lo 3 (v .v36) * 16 + lo 3 (v .v27)), BitVec.ofNat 8 (lo 7 (v .v43)),
       BitVec.ofNat 8 (lo 2 (v .j1) * 16 + lo 4 (v .v50)), BitVec.ofNat 8 (lo 5 (v .v57)), BitVec.ofNat 8 (lo 5 (v .v59)),
       BitVec.ofNat 8 (lo 6 (v .v61)), BitVec.ofNat 8 (lo 6 (v .v62))] := rfl
  have pair44 (x y : Nat) := bitsOfByte_fields 0 4 x 0 4 y rfl rfl
  have pair24 (x y : Nat) := bitsOfByte_fields 2 2 x 0 4 y rfl rfl
  have pair33 (x y : Nat) := bitsOfByte_fields 1 3 x 1 3 y rfl rfl
  have five (x : Nat) := bitsOfByte_field 3 5 x rfl
  have six (x : Nat) := bitsOfByte_field 2 6 x rfl
  have seven (x : Nat) := bitsOfByte_field 1 7 x rfl
  simp only [bytes, bitsOfBytes_cons, pair44, pair24, pair33, five, six, seven, List.append_assoc]
  rfl

/-- R136: `Pack` of the gamma layout is the image written byte by byte. -/
theorem gammaEncode_eq_bytesOfTable (v : GammaField → Nat) : gammaEncode v = bytesOfTable v := by
  rw [gammaEncode, pack_eq, ← bitsOfBytes_bytesOfTable, bytesOfBits_bitsOfBytes]

/-! ### The store (R40, R41, R159) -/

section Store

variable {s t : State}

/-- A step that does not see what the Calibration Controller keeps leaves the files. -/
theorem blindStep_nvs {f : State → Out} (hf : BlindStep f) (h : f s = .next t) : t.nvs = s.nvs := by
  have commuted : f s = mapNext (withCalibration s.gt s.mode s.nvs) (f s) := hf.commutes s.gt s.mode s.nvs s
  rw [h] at commuted
  have same : t = withCalibration s.gt s.mode s.nvs t := Host.Outcome.next.inj commuted
  exact (congrArg State.nvs same :)

theorem blind_nvs {f : State → State} (hf : Blind f) (s : State) : (f s).nvs = s.nvs := blindStep_nvs (.next hf) rfl

theorem afterWrite_nvs {w : State → Sent × State} {onOk : State → State} {onErr : ErrKind → State → State}
    (hw : BlindAccess w) (hok : ∀ u, (onOk u).nvs = u.nvs) (herr : ∀ kind u, (onErr kind u).nvs = u.nvs) (s : State) :
    (afterWrite (w s) onOk onErr).nvs = s.nvs := by
  have link : (w s).2.nvs = s.nvs := congrArg (fun x => x.2.nvs) (hw.commutes s.gt s.mode s.nvs s)
  rw [← link]
  rcases w s with ⟨_ | kind | _, u⟩
  · exact hok u
  · exact herr kind u
  · rfl

theorem failRead_nvs (whom : ReadFor) (kind : ErrKind) (s : State) : (failRead whom kind s).nvs = s.nvs := by
  obtain ⟨r, e, _⟩ := failRead_eq whom kind s
  rw [e, finish_nvs]

theorem endLoad_nvs (whom : LoadFor) (r : Part) (s : State) : (endLoad whom r s).nvs = s.nvs := by
  cases whom <;> rfl

theorem startLoad_nvs (p : Polarity) (whom : LoadFor) (s : State) : (startLoad p whom s).nvs = s.nvs := by
  rcases startLoad_cases p whom s with ⟨draws, e⟩ | ⟨draws, e⟩ <;> rw [e]
  exact endLoad_nvs whom _ _

theorem fillBank_nvs (p : Polarity) (file : Option Bytes) (whom : LoadFor) (s : State) :
    (fillBank p file whom s).nvs = s.nvs := by
  rcases fillBank_cases p file whom s with ⟨_, e⟩ | ⟨_, _, _, e⟩ | ⟨_, _, _, _, e⟩ <;> rw [e, endLoad_nvs]
  rfl

theorem beginStatus_nvs {whom : StatusFor} (h : beginStatus Config.params whom s = .next t) : t.nvs = s.nvs := by
  rcases beginRead_next h with ⟨_, rfl⟩ | ⟨_, _, rfl⟩
  · exact failRead_nvs _ _ s
  · exact afterWrite_nvs (onOk := fun u => { u with busy := some (.respond Config.statusLen (.status whom)) })
      (requestRead_blind _ _) (fun _ => rfl) (failRead_nvs _) s

theorem takeAnswer_nvs (n : Nat) (whom : ReadFor) (s : State) : (takeAnswer n whom s).nvs = s.nvs := by
  obtain ⟨draws, ⟨r, e⟩ | ⟨bs, w, _, _, e⟩⟩ := takeAnswer_left n whom s <;> rw [e]
  rfl

theorem decodeStatus_nvs (cfg : Params) (image : Bytes) (whom : StatusFor) (s : State) :
    (decodeStatus cfg image whom s).nvs = s.nvs := by
  rcases decodeStatus_cases cfg image whom s with ⟨_, e⟩ | ⟨view, pad, _, e⟩ <;> rw [e]
  · exact failRead_nvs _ _ s
  · cases whom <;> rfl

theorem endPush_nvs (file : FileStatus) (command : Byte) (payload : Bytes) (s : State) :
    (endPush file (writeCommand .write command payload s)).nvs = s.nvs :=
  afterWrite_nvs (writeCommand_blind _ _ _) (finish_nvs _) (fun _ => finish_nvs _) s

theorem deriveMode_nvs {gamma : BitVec 3} {whom : AttachFor} (h : deriveMode gamma whom s = .next t) : t.nvs = s.nvs := by
  obtain ⟨i, _, h⟩ := accept_next h
  cases h
  obtain ⟨r, e⟩ := endAttach_eq whom .ok { s with mode := .fixed i }
  rw [e, finish_nvs]

theorem beginSetField_nvs {p : Polarity} {f : GammaField} {x : Int} (h : beginSetField p f x s = .next t) :
    t.nvs = s.nvs := by
  unfold beginSetField at h
  split at h
  · cases h
  · cases h; rfl
  · cases (onLink_next h).2; rfl

/-- A push that goes on leaves the files, or is in `Custom` mode and begins with its file part. -/
theorem beginPush_nvs {p : Polarity} (h : beginPush Config.params p s = .next t) :
    t.nvs = s.nvs ∨ s.mode = .custom ∧ t = pushFile p s := by
  unfold beginPush at h
  split at h
  · cases h
  · cases (onLink_next h).2
    exact .inl (endPush_nvs _ _ _ s)
  · next custom =>
    cases (onLink_next h).2
    exact .inr ⟨custom, rfl⟩

/-- The first step of an operation leaves the files, or is the file part of a push in `Custom` mode. -/
theorem exec_nvs {i : Instr} (h : exec i s = .next t) : t.nvs = s.nvs ∨ ∃ p, s.mode = .custom ∧ t = pushFile p s := by
  cases i with
  | loadCal p => cases (whenIdle_next h).2; exact .inl (startLoad_nvs p _ s)
  | attach => exact .inl (beginStatus_nvs (whenIdle_next h).2)
  | setField p f value => exact .inl (beginSetField_nvs (whenIdle_next h).2)
  | push p => exact (beginPush_nvs (whenIdle_next h).2).imp_right fun pushed => ⟨p, pushed⟩
  | selectCurve curve =>
    obtain ⟨i, _, h⟩ := accept_next (whenIdle_next h).2
    cases (onLink_next h).2
    exact .inl rfl
  | enterCustom => cases (whenIdle_next h).2; exact .inl rfl
  | startup => cases (onLink_next (whenIdle_next h).2).2; exact .inl (startLoad_nvs .positive _ s)
  | _ => exact .inl (blindStep_nvs (exec_blind rfl) h)

/-- A later step of an operation leaves the files, or is the file part of a push. -/
theorem resume_nvs {p : Progress} (h : resume Config.params p s = .next t) :
    t.nvs = s.nvs ∨ ∃ q, p = .pushFile q ∧ t = pushFile q s := by
  cases p with
  | respond n whom => cases (onLink_next h).2; exact .inl (takeAnswer_nvs n whom s)
  | decode image whom => cases h; exact .inl (decodeStatus_nvs _ image whom s)
  | derive gamma whom => exact .inl (deriveMode_nvs h)
  | curve i => cases (onLink_next h).2; exact .inl (blind_nvs (writeCommand_blind _ _ _).lastFrame s)
  | fill p file whom => cases h; exact .inl (fillBank_nvs p file whom s)
  | pushFile q => cases h; exact .inr ⟨q, rfl, rfl⟩
  | pushDevice p image file => cases (onLink_next h).2; exact .inl (endPush_nvs file _ image s)
  | loadNegative positive => cases h; exact .inl (startLoad_nvs .negative _ s)
  | attachNext positive negative => exact .inl (beginStatus_nvs h)
  | blocked | rows | chunks => exact .inl (blindStep_nvs (resume_blind Config.params rfl) h)

/-- What the file part of a push of `q` does to the file of `p` (R159). -/
theorem pushFile_file (p q : Polarity) (s : State) :
    (pushFile q s).nvs.get p = s.nvs.get p ∨
    ∃ file, (pushFile q s).busy = some (.pushDevice p (bytesOfTable (s.gt.get p).get) file) ∧
      (file = .ok → (pushFile q s).nvs.get p = some (bytesOfTable (s.gt.get p).get)) := by
  rw [← gammaEncode_eq_bytesOfTable]
  by_cases same : p = q
  · subst same
    refine .inr ?_
    rcases pushFile_cases p s with ⟨draws, e⟩ | ⟨draws, left, e⟩ <;> rw [e]
    · exact ⟨.ok, rfl, fun _ => Banks.get_set_self _ _ _⟩
    · exact ⟨.fileAccessError, rfl, nofun⟩
  · refine .inl ?_
    rcases pushFile_cases q s with ⟨draws, e⟩ | ⟨draws, left, e⟩ <;> rw [e] <;> exact Banks.get_set_of_ne _ _ same

end Store

/-- Settles O54: the file part of a push is the only step that writes a file; when it is a later step of its operation, `Consistent`
says that the mode is `Custom`. -/
theorem writersOfTheStore : Obligations.WritersOfTheStore := by
  unfold Obligations.WritersOfTheStore
  intro s t p consistent h
  rcases step_next_cases h with ⟨_, _, _, rfl⟩ | ⟨_, _, rfl⟩ | ⟨_, _, _, rfl⟩ | ⟨_, _, rfl⟩ |
    ⟨point, inbox, hb, _, later⟩ | ⟨_, _, rest, i, _, _, _, first⟩
  case inl | inr.inl | inr.inr.inl | inr.inr.inr.inl => exact .inl rfl
  · rcases resume_nvs later with same | ⟨q, rfl, rfl⟩
    · exact .inl (by rw [same])
    · have custom : s.mode = .custom := consistent.1 _ hb
      exact (pushFile_file p q { s with inbox := inbox }).imp_right fun pushed => ⟨custom, pushed⟩
  · rcases exec_nvs first with same | ⟨q, custom, rfl⟩
    · exact .inl (by rw [same])
    · exact (pushFile_file p q { s with inbox := rest }).imp_right fun pushed => ⟨custom, pushed⟩

end Sys2Proof.MemoryLaws

/-! PROOFS of the family of spec/30_encoding.md: decoding undoes encoding (O2), what is decoded is well formed (O3), and what the frame
rows and the payload rows do (O55, O56).

For the first two, each reader of an operand undoes its writer whatever bytes follow, the receiver's rule undoes `Frame.bytes`, and
`AdmissibleKind` says once which row the decoder makes of a write frame. -/

namespace Sys2Proof.EncodingLaws

open Machine Claims Scope StateLaws

/-! ### Operands at the host port: each reader undoes its writer, whatever follows -/

@[simp] theorem readThen_ok {α β : Type} (a : α) (rest : Bytes) (f : α → Bytes → Read β) :
    readThen (.ok (a, rest)) f = f a rest := rfl

@[simp] theorem getByte_cons (b : Byte) (rest : Bytes) : getByte (b :: rest) = .ok (b, rest) := rfl

@[simp] theorem getU16_le16 (x : U16) (rest : Bytes) : getU16 (le16 x.toNat ++ rest) = .ok (x, rest) := by
  obtain ⟨low, high, split, joined⟩ := fromLe16_le16 x.isLt
  rw [split]
  simp only [List.cons_append, List.nil_append, getU16, joined, BitVec.ofNat_toNat, BitVec.setWidth_eq]

theorem getNat_putNatFuel {fuel n : Nat} (h : n ≤ fuel) (rest : Bytes) : getNat (putNatFuel fuel n ++ rest) = .ok (n, rest) := by
  induction fuel generalizing n with
  | zero =>
    obtain rfl : n = 0 := by omega
    rfl
  | succ fuel ih =>
    unfold putNatFuel
    split_ifs with last
    · have byte : (BitVec.ofNat 8 n).toNat = n := by rw [BitVec.toNat_ofNat]; omega
      simp only [List.cons_append, List.nil_append, getNat, byte, last, if_true]
    · have byte : (BitVec.ofNat 8 (128 + n % 128)).toNat = 128 + n % 128 := by rw [BitVec.toNat_ofNat]; omega
      have more : ¬128 + n % 128 < 128 := by omega
      have value : 128 + n % 128 - 128 + 128 * (n / 128) = n := by omega
      simp only [List.cons_append, getNat, byte, more, if_false, ih (n := n / 128) (by omega), readThen_ok, value]

@[simp] theorem getNat_putNat (n : Nat) (rest : Bytes) : getNat (putNat n ++ rest) = .ok (n, rest) :=
  getNat_putNatFuel le_rfl rest

@[simp] theorem getInt_putInt (z : Int) (rest : Bytes) : getInt (putInt z ++ rest) = .ok (z, rest) := by
  cases z with
  | ofNat n =>
    rw [getInt, putInt, getNat_putNat, readThen_ok, if_pos (by omega), Nat.mul_div_cancel_left n two_pos]
  | negSucc n =>
    have half : (2 * n + 1) / 2 = n := by omega
    rw [getInt, putInt, getNat_putNat, readThen_ok, if_neg (by omega), half]

@[simp] theorem getBytes_putBytes (bs rest : Bytes) : getBytes (putBytes bs ++ rest) = .ok (bs, rest) := by
  have long : ¬(bs ++ rest).length < bs.length := by simp
  rw [putBytes, List.append_assoc, getBytes, getNat_putNat, readThen_ok, if_neg long, List.take_left, List.drop_left]

@[simp] theorem getDirection_directionByte (d : Direction) (rest : Bytes) :
    getDirection (directionByte d :: rest) = .ok (d, rest) := by
  cases d <;> rfl

@[simp] theorem getPolarity_putPolarity (p : Polarity) (rest : Bytes) : getPolarity (putPolarity p :: rest) = .ok (p, rest) := by
  cases p <;> rfl

@[simp] theorem getField_putField (f : GammaField) (rest : Bytes) : getField (putField f :: rest) = .ok (f, rest) := by
  cases f <;> rfl

@[simp] theorem getChannel_putChannel (c : Channel) (rest : Bytes) : getChannel (putChannel c ++ rest) = .ok (c, rest) := by
  cases c with
  | int z => simp [getChannel, putChannel]
  | float m e => simp [getChannel, putChannel]

theorem getInts_flatMap_putInt (zs : List Int) (rest : Bytes) :
    getInts zs.length (zs.flatMap putInt ++ rest) = .ok (zs, rest) := by
  induction zs with
  | nil => rfl
  | cons z zs ih => simp [getInts, ih]

theorem putRecord_eq (t : GammaRecord Int) : putRecord t = (gammaFields.map (recordGet t)).flatMap putInt := by
  rw [putRecord, List.flatMap_map]

@[simp] theorem getInts_putRecord (t : GammaRecord Int) (rest : Bytes) :
    getInts Config.nGammaFields (putRecord t ++ rest) = .ok (gammaFields.map (recordGet t), rest) := by
  rw [putRecord_eq]
  exact getInts_flatMap_putInt (gammaFields.map (recordGet t)) rest

@[simp] theorem recordOf_map_recordGet (t : GammaRecord Int) : recordOf (gammaFields.map (recordGet t)) = t := rfl

/-- A host operation is encoded as its selector and what follows it (R70). -/
theorem encode_operation (cfg : Params) {i : Instr} {op : HostOp} (h : Laws.RowShape.operation i = some op) :
    encode cfg i = (.hostop, cfg.opIndex op :: (encode cfg i).2.tail) := by
  cases i <;> cases h <;> rfl

/-- What follows the selector of a host operation in its encoding are its operands, which the decoder reads back in the order of R66. -/
theorem getOperands_encode (cfg : Params) {i : Instr} {op : HostOp} (h : Laws.RowShape.operation i = some op) (rest : Bytes) :
    getOperands op ((encode cfg i).2.tail ++ rest) = .ok (i, rest) := by
  cases i with
  | readStatus | attach | enterCustom | startup => cases h; rfl
  | writeCommand | readResponse | setWindow | streamPixels | packPixel | decodeStatus | gammaDecode | gammaEncode | loadCal |
    setField | push | selectCurve => cases h; simp [encode, getOperands]
  | _ => cases h

theorem decode_encode_operation {cfg : Params} (distinct : cfg.opDistinct = true) {i : Instr} {op : HostOp}
    (h : Laws.RowShape.operation i = some op) : decode cfg (encode cfg i).1 (encode cfg i).2 = .ok i := by
  have operands := getOperands_encode cfg h []
  rw [List.append_nil] at operands
  rw [encode_operation cfg h]
  simp only [decode_hostop_bound (hostOpOf_opIndex distinct op), operands]
  rfl

/-! ### Payload and image formats -/

theorem boundOf_be16 (x : U16) : ∃ high low, be16 x.toNat = [high, low] ∧ boundOf high low = x := by
  obtain ⟨high, low, split, joined⟩ := fromBe16_be16 x.isLt
  exact ⟨high, low, split, by rw [boundOf, joined, BitVec.ofNat_toNat, BitVec.setWidth_eq]⟩

theorem winBytes_eq (a b : U16) : ∃ s1 s0 e1 e0, winBytes a b = [s1, s0, e1, e0] ∧ boundOf s1 s0 = a ∧ boundOf e1 e0 = b := by
  obtain ⟨s1, s0, ha, hs⟩ := boundOf_be16 a
  obtain ⟨e1, e0, hb, he⟩ := boundOf_be16 b
  exact ⟨s1, s0, e1, e0, by rw [winBytes, ha, hb]; rfl, hs, he⟩

theorem winBytes_fits (a b : U16) : (winBytes a b).length ≤ Config.maxChunk := by
  rw [winBytes_length]
  decide

theorem decodeWin_winBytes (a b : U16) : decodeWin (winBytes a b) = .ok (.win a b) := by
  obtain ⟨s1, s0, e1, e0, h, rfl, rfl⟩ := winBytes_eq a b
  rw [h, decodeWin]

theorem decodePix16_pix16Bytes (r : BitVec Config.redBits) (g : BitVec Config.greenBits) (b : BitVec Config.blueBits) :
    decodePix16 (pix16Bytes r g b) = .ok (.pix16 r g b) := by
  have hr : r.toNat < 32 := r.isLt
  have hg : g.toNat < 64 := g.isLt
  have hb : b.toNat < 32 := b.isLt
  obtain ⟨low, high, split, joined⟩ := fromLe16_le16 (n := pixelValue r.toNat g.toNat b.toNat) (by rw [pixelValue_eq]; omega)
  rw [pix16Bytes, split, decodePix16]
  have widths : Config.redBits = 5 ∧ Config.greenBits = 6 ∧ Config.blueBits = 5 := ⟨rfl, rfl, rfl⟩
  have red : BitVec.ofNat Config.redBits (pixelValue r.toNat g.toNat b.toNat >>> (Config.greenBits + Config.blueBits)) = r :=
    BitVec.eq_of_toNat_eq (by simp only [BitVec.toNat_ofNat, Nat.shiftRight_eq_div_pow, pixelValue_eq, widths]; omega)
  have green : BitVec.ofNat Config.greenBits (pixelValue r.toNat g.toNat b.toNat >>> Config.blueBits) = g :=
    BitVec.eq_of_toNat_eq (by simp only [BitVec.toNat_ofNat, Nat.shiftRight_eq_div_pow, pixelValue_eq, widths]; omega)
  have blue : BitVec.ofNat Config.blueBits (pixelValue r.toNat g.toNat b.toNat) = b :=
    BitVec.eq_of_toNat_eq (by simp only [BitVec.toNat_ofNat, pixelValue_eq, widths]; omega)
  simp only [joined, red, green, blue]

/-! ### Which instructions are well formed -/

theorem wellFormed_fWrite {cfg : Params} {command : Byte} {payload : Bytes} :
    WellFormed cfg (.fWrite command payload) ↔
      payload.length ≤ Config.maxChunk ∧ ¬cfg.namesWrite command payload = true := by
  simp [WellFormed, Instr.isWellFormed]

theorem wellFormed_fRead {cfg : Params} {command : Byte} {length : U16} :
    WellFormed cfg (.fRead command length) ↔
      length.toNat ≤ Config.maxChunk ∧ ¬cfg.namesRead command length.toNat = true := by
  simp [WellFormed, Instr.isWellFormed]

theorem wellFormed_fCont {cfg : Params} {payload : Bytes} :
    WellFormed cfg (.fCont payload) ↔ payload ≠ [] ∧ payload.length ≤ Config.maxChunk := by
  simp [WellFormed, Instr.isWellFormed, Nat.one_le_iff_ne_zero]

theorem wellFormed_chunk {cfg : Params} {slice : Bytes} :
    WellFormed cfg (.chunk slice) ↔ 1 ≤ slice.length ∧ slice.length ≤ Config.maxChunk := by
  simp [WellFormed, Instr.isWellFormed]

/-- A host operation is well formed whatever its operands are: those without a meaning are refused by the operation (R192). -/
theorem wellFormed_of_operation (cfg : Params) {i : Instr} (h : Laws.RowShape.operation i ≠ none) : WellFormed cfg i := by
  cases i with
  | fWrite | fRead | fCont | fPvgam | fNvgam | img112 | img40 | resp | chunk => exact absurd rfl h
  | _ => rfl

/-! ### Frames on the wire (R51, R54, R55) -/

theorem frame_wf_write {command : Byte} {payload : Bytes} :
    (Frame.mk .write command payload.length payload).wf = true ↔ payload.length ≤ Config.maxChunk := by
  simp [Frame.wf]

theorem frame_wf_read {command : Byte} {n : Nat} : (Frame.mk .read command n []).wf = true ↔ n ≤ Config.maxChunk := by
  simp [Frame.wf]

/-- The receiver's rule gives back a frame the block may emit, and the bytes after it (R55). -/
theorem cutFrame_bytes {f : Frame} (wf : f.wf = true) (rest : Bytes) : cutFrame (f.bytes ++ rest) = .ok (f, rest) := by
  obtain ⟨d, command, length, payload⟩ := f
  simp only [Frame.wf, Bool.and_eq_true, decide_eq_true_eq] at wf
  obtain ⟨fits, body⟩ := wf
  obtain ⟨low, high, split, joined⟩ := fromLe16_le16 (Nat.lt_of_le_of_lt fits (by decide))
  have shape : Frame.bytes ⟨d, command, length, payload⟩ ++ rest =
      directionByte d :: command :: low :: high :: (payload ++ rest) := by
    simp only [Frame.bytes, headerBytes_eq, split, List.cons_append, List.nil_append]
  rw [shape, cutFrame_header, joined, if_neg (Nat.not_lt.mpr fits)]
  cases d with
  | read =>
    rw [beq_iff_eq.mp body]
    rfl
  | write =>
    obtain rfl := beq_iff_eq.mp body
    have long : ¬(payload ++ rest).length < payload.length := by simp
    rw [if_neg long, List.take_left, List.drop_left]
    rfl

/-- What the receiver's rule gives is a frame the block may emit (R54, R55). -/
theorem cutFrame_wf {bs rest : Bytes} {f : Frame} (h : cutFrame bs = .ok (f, rest)) : f.wf = true := by
  unfold cutFrame at h
  split at h
  · next d command low high _ =>
    simp only at h
    split_ifs at h with large read write short
    · cases h
      simpa [Frame.wf] using large
    · cases h
      have taken : ((bs.drop Config.headerLen).take (fromLe16 low high)).length = fromLe16 low high :=
        List.length_take_of_le (Nat.not_lt.mp short)
      simpa [Frame.wf, taken] using large
  · cases h

theorem decode_frame_bytes (cfg : Params) {f : Frame} (wf : f.wf = true) :
    decode cfg .frame f.bytes = .ok (frameKind cfg f) := by
  have cut := cutFrame_bytes wf []
  rw [List.append_nil] at cut
  simp only [decode, decodeFrame, cut, readThen]
  rfl

/-! ### Which row a write frame is (R65) -/

section WriteKind

variable {cfg : Params} {command : Byte} {payload : Bytes}

theorem namesWrite_cont : cfg.namesWrite Config.cmdCont payload = true ↔ payload ≠ [] := by
  simp [Params.namesWrite]

theorem namesWrite_nil (hc : command ≠ Config.cmdCont) : cfg.namesWrite command [] = true ↔ command = cfg.cmdRamwr := by
  simp [Params.namesWrite, hc, Config.gammaLen]

theorem namesWrite_one (hc : command ≠ Config.cmdCont) (mask : Byte) :
    cfg.namesWrite command [mask] = true ↔ command = cfg.cmdGamset ∧ ∃ curve, curveOf mask = some curve := by
  simp [Params.namesWrite, hc, Config.gammaLen, curveOf_eq_some]

theorem namesWrite_four (hc : command ≠ Config.cmdCont) (s1 s0 e1 e0 : Byte) :
    cfg.namesWrite command [s1, s0, e1, e0] = true ↔ command = cfg.cmdCaset ∨ command = cfg.cmdRaset := by
  simp [Params.namesWrite, hc, Config.gammaLen]

theorem namesWrite_long (hc : command ≠ Config.cmdCont) (h0 : payload ≠ []) (h1 : ∀ mask, payload ≠ [mask])
    (h4 : ∀ s1 s0 e1 e0, payload ≠ [s1, s0, e1, e0]) :
    cfg.namesWrite command payload = true ↔
      (command = cfg.cmdPvgam ∨ command = cfg.cmdNvgam) ∧ payload.length = Config.gammaLen := by
  have n4 : payload.length ≠ 4 := fun h => by
    obtain ⟨_, _, _, _, e⟩ := List.length_eq_four.mp h
    exact h4 _ _ _ _ e
  simp [Params.namesWrite, hc, h0, h1, n4]

/-- What the decoder may name a write frame (R65): the generic row where no specific kind has its bytes, and where one has, a row that
is well formed once the payload fits. -/
inductive AdmissibleKind (cfg : Params) (command : Byte) (payload : Bytes) : Instr → Prop where
  | generic (unnamed : ¬cfg.namesWrite command payload = true) : AdmissibleKind cfg command payload (.fWrite command payload)
  | specific {i : Instr} (named : cfg.namesWrite command payload = true)
      (wf : payload.length ≤ Config.maxChunk → WellFormed cfg i) : AdmissibleKind cfg command payload i

theorem writeKind_cont_admissible (cfg : Params) (payload : Bytes) :
    AdmissibleKind cfg Config.cmdCont payload (writeKind cfg Config.cmdCont payload) := by
  unfold writeKind
  rw [if_pos rfl]
  split_ifs with h
  · exact .generic (namesWrite_cont.not.mpr (not_not.mpr h))
  · exact .specific (namesWrite_cont.mpr h) fun fits => wellFormed_fCont.mpr ⟨h, fits⟩

/-- The decoder names a write frame as R65 says: in every case of `writeKind`, by the payload's length and then the command. -/
theorem writeKind_admissible (cfg : Params) (command : Byte) (payload : Bytes) :
    AdmissibleKind cfg command payload (writeKind cfg command payload) := by
  by_cases hc : command = Config.cmdCont
  · rw [hc]
    exact writeKind_cont_admissible cfg payload
  unfold writeKind
  rw [if_neg hc]
  split
  · have named := namesWrite_nil (cfg := cfg) hc
    split_ifs with h
    · exact .specific (named.mpr h) fun _ => rfl
    · exact .generic (named.not.mpr h)
  · next mask =>
    have named := namesWrite_one (cfg := cfg) hc mask
    split_ifs with h
    · split
      · next curve hm => exact .specific (named.mpr ⟨h, curve, hm⟩) fun _ => rfl
      · next hm => exact .generic (named.not.mpr fun ⟨_, _, e⟩ => by rw [hm] at e; cases e)
    · exact .generic (named.not.mpr fun both => h both.1)
  · have named := namesWrite_four (cfg := cfg) hc
    split_ifs with hcol hrow
    · exact .specific ((named ..).mpr (.inl hcol)) fun _ => rfl
    · exact .specific ((named ..).mpr (.inr hrow)) fun _ => rfl
    · exact .generic ((named ..).not.mpr (not_or.mpr ⟨hcol, hrow⟩))
  · next h0 h1 h4 =>
    have named := namesWrite_long (cfg := cfg) hc h0 h1 h4
    split_ifs with hl hpos hneg
    · exact .specific (named.mpr ⟨.inl hpos, hl⟩) fun _ => beq_iff_eq.mpr hl
    · exact .specific (named.mpr ⟨.inr hneg, hl⟩) fun _ => beq_iff_eq.mpr hl
    · exact .generic (named.not.mpr fun both => not_or.mpr ⟨hpos, hneg⟩ both.1)
    · exact .generic (named.not.mpr fun both => hl both.2)

theorem AdmissibleKind.wellFormed {i : Instr} (kind : AdmissibleKind cfg command payload i)
    (fits : payload.length ≤ Config.maxChunk) :
    WellFormed cfg i := by
  cases kind with
  | generic unnamed => exact wellFormed_fWrite.mpr ⟨fits, unnamed⟩
  | specific _ wf => exact wf fits

theorem AdmissibleKind.eq_fWrite {i : Instr} (kind : AdmissibleKind cfg command payload i)
    (unnamed : ¬cfg.namesWrite command payload = true) :
    i = .fWrite command payload := by
  cases kind with
  | generic => rfl
  | specific named => exact absurd named unnamed

end WriteKind

/-! ### Which row a frame is (R65) -/

theorem frameKind_read (cfg : Params) (command : Byte) (n : Nat) (payload : Bytes) :
    frameKind cfg ⟨.read, command, n, payload⟩ =
      if cfg.namesRead command n = true then .fRddst else .fRead command (BitVec.ofNat 16 n) := by
  simp only [frameKind, Params.namesRead]
  by_cases hl : n = Config.statusLen <;> by_cases hc : command = cfg.cmdRddst <;> simp [hl, hc]

theorem toNat_ofNat_of_fits {n : Nat} (fits : n ≤ Config.maxChunk) : (BitVec.ofNat 16 n).toNat = n := by
  rw [BitVec.toNat_ofNat]
  exact Nat.mod_eq_of_lt (Nat.lt_of_le_of_lt fits (by decide))

theorem frameKind_wellFormed (cfg : Params) {f : Frame} (wf : f.wf = true) : WellFormed cfg (frameKind cfg f) := by
  obtain ⟨d, command, n, payload⟩ := f
  simp only [Frame.wf, Bool.and_eq_true, decide_eq_true_eq] at wf
  obtain ⟨fits, body⟩ := wf
  cases d with
  | write =>
    obtain rfl := beq_iff_eq.mp body
    exact (writeKind_admissible cfg command payload).wellFormed fits
  | read =>
    rw [frameKind_read]
    split_ifs with named
    · rfl
    · rw [wellFormed_fRead, toNat_ofNat_of_fits fits]
      exact ⟨fits, named⟩

theorem decodeFrame_wellFormed (cfg : Params) (bs : Bytes) : Gives (decodeFrame cfg bs) fun i => WellFormed cfg i := by
  intro i rest h
  unfold decodeFrame at h
  cases hcut : cutFrame bs with
  | ok cut => rw [hcut] at h; cases h; exact frameKind_wellFormed cfg (cutFrame_wf hcut)
  | error e => rw [hcut] at h; cases h

/-- Settles O3, format by format: a frame by its kind, a host operation by being one, a payload by the width its decoder checks. -/
theorem decodedInstructionsAreWellFormed : Obligations.DecodedInstructionsAreWellFormed := by
  unfold Obligations.DecodedInstructionsAreWellFormed
  intro cfg format bs i h
  cases format with
  | hostop => exact wellFormed_of_operation cfg ((decodeHostop_operation cfg bs).of_map h)
  | frame => exact (decodeFrame_wellFormed cfg bs).of_map h
  | win => simp only [decode, decodeWin] at h; split at h <;> cases h; rfl
  | pix16 => simp only [decode, decodePix16] at h; split at h <;> cases h; rfl
  | onehot8 =>
    simp only [decode, decodeOnehot] at h
    split at h
    · split_ifs at h <;> cases h <;> rfl
    · cases h
  | img112 => simp only [decode, decodeImg112] at h; split_ifs at h with width; cases h; exact beq_iff_eq.mpr width
  | img40 => simp only [decode, decodeImg40] at h; split_ifs at h with width; cases h; exact beq_iff_eq.mpr width
  | resp => simp only [decode, decodeResp] at h; split_ifs at h with width; cases h; exact decide_eq_true width
  | chunk =>
    simp only [decode, decodeChunk] at h
    split_ifs at h with width
    cases h
    exact wellFormed_chunk.mpr width

/-! ### The frame rows, encoded and decoded (R65) -/

/-- What `CmdDistinct` (D11) says of the commands that R65 tells apart for one payload length. -/
theorem commands_ne {cfg : Params} (h : cfg.cmdDistinct = true) :
    (cfg.cmdCaset ≠ Config.cmdCont ∧ cfg.cmdRaset ≠ Config.cmdCont ∧ cfg.cmdRaset ≠ cfg.cmdCaset) ∧
    cfg.cmdRamwr ≠ Config.cmdCont ∧ cfg.cmdGamset ≠ Config.cmdCont ∧
    (cfg.cmdPvgam ≠ Config.cmdCont ∧ cfg.cmdNvgam ≠ Config.cmdCont ∧ cfg.cmdNvgam ≠ cfg.cmdPvgam) := by
  simp only [Params.cmdDistinct, decide_eq_true_eq, List.nodup_cons, List.mem_cons, not_or] at h
  obtain ⟨⟨caset, raset, ramwr, gamset, pvgam, nvgam, _⟩, ⟨caset_raset, _⟩, _, _, _, ⟨pvgam_nvgam, _⟩, _⟩ := h
  exact ⟨⟨Ne.symm caset, Ne.symm raset, Ne.symm caset_raset⟩, Ne.symm ramwr, Ne.symm gamset, Ne.symm pvgam, Ne.symm nvgam,
    Ne.symm pvgam_nvgam⟩

section FrameRows

variable {cfg : Params} {command : Byte} {payload : Bytes}

theorem writeKind_win (hc : command ≠ Config.cmdCont) (a b : U16) :
    writeKind cfg command (winBytes a b) =
      if command = cfg.cmdCaset then .fCaset a b
      else if command = cfg.cmdRaset then .fRaset a b
      else .fWrite command (winBytes a b) := by
  obtain ⟨s1, s0, e1, e0, h, rfl, rfl⟩ := winBytes_eq a b
  simp only [h, writeKind, hc, if_false]

theorem writeKind_nil (hc : cfg.cmdRamwr ≠ Config.cmdCont) : writeKind cfg cfg.cmdRamwr [] = .fRamwr := by
  simp only [writeKind, hc, if_false, if_true]

theorem writeKind_oneHot (hc : cfg.cmdGamset ≠ Config.cmdCont) (curve : Curve) :
    writeKind cfg cfg.cmdGamset [oneHot curve] = .fGamset curve := by
  simp only [writeKind, hc, if_false, if_true, curveOf_oneHot]

theorem writeKind_image (hc : command ≠ Config.cmdCont) (h : payload.length = Config.gammaLen) :
    writeKind cfg command payload =
      if command = cfg.cmdPvgam then .fPvgam payload
      else if command = cfg.cmdNvgam then .fNvgam payload
      else .fWrite command payload := by
  unfold writeKind
  rw [if_neg hc]
  split
  case h_4 => exact if_pos h
  all_goals simp [Config.gammaLen] at h

/-- A write frame is decoded to the row that `writeKind` names. -/
theorem decode_writeBytes {i : Instr} (fits : payload.length ≤ Config.maxChunk) (row : writeKind cfg command payload = i) :
    decode cfg .frame (writeBytes command payload) = .ok i := by
  have bytes : writeBytes command payload = Frame.bytes ⟨.write, command, payload.length, payload⟩ := rfl
  rw [bytes, decode_frame_bytes cfg (frame_wf_write.mpr fits)]
  exact congrArg _ row

theorem decode_readHeader (cfg : Params) (command : Byte) {n : Nat} (fits : n ≤ Config.maxChunk) :
    decode cfg .frame (headerBytes .read command n) =
      .ok (if cfg.namesRead command n = true then .fRddst else .fRead command (BitVec.ofNat 16 n)) := by
  rw [← frameKind_read cfg command n [], ← decode_frame_bytes cfg (frame_wf_read.mpr fits), Frame.bytes, List.append_nil]

end FrameRows

/-- A well-formed frame row, in a build whose commands are told apart. -/
theorem decode_encode_frame {cfg : Params} {i : Instr} (distinct : cfg.cmdDistinct = true) (wf : WellFormed cfg i)
    (frame : Laws.RowShape.format i = .frame) : decode cfg .frame (encode cfg i).2 = .ok i := by
  obtain ⟨⟨caset, raset, raset_caset⟩, ramwr, gamset, pvgam, nvgam, nvgam_pvgam⟩ := commands_ne distinct
  have gammaFits : Config.gammaLen ≤ Config.maxChunk := by decide
  cases i with
  | fWrite command payload =>
    obtain ⟨fits, unnamed⟩ := wellFormed_fWrite.mp wf
    exact decode_writeBytes fits ((writeKind_admissible cfg command payload).eq_fWrite unnamed)
  | fRead command length =>
    obtain ⟨fits, unnamed⟩ := wellFormed_fRead.mp wf
    rw [encode, decode_readHeader cfg command fits, if_neg unnamed, BitVec.ofNat_toNat, BitVec.setWidth_eq]
  | fCont payload =>
    obtain ⟨nonempty, fits⟩ := wellFormed_fCont.mp wf
    exact decode_writeBytes fits ((if_pos rfl).trans (if_neg nonempty))
  | fCaset a b => exact decode_writeBytes (winBytes_fits a b) ((writeKind_win caset a b).trans (if_pos rfl))
  | fRaset a b =>
    exact decode_writeBytes (winBytes_fits a b)
      ((writeKind_win raset a b).trans ((if_neg raset_caset).trans (if_pos rfl)))
  | fRamwr => exact decode_writeBytes (Nat.zero_le _) (writeKind_nil ramwr)
  | fGamset curve => exact decode_writeBytes (show 1 ≤ Config.maxChunk by decide) (writeKind_oneHot gamset curve)
  | fPvgam image =>
    have width : image.length = Config.gammaLen := beq_iff_eq.mp wf
    exact decode_writeBytes (width.trans_le gammaFits) ((writeKind_image pvgam width).trans (if_pos rfl))
  | fNvgam image =>
    have width : image.length = Config.gammaLen := beq_iff_eq.mp wf
    exact decode_writeBytes (width.trans_le gammaFits)
      ((writeKind_image nvgam width).trans ((if_neg nvgam_pvgam).trans (if_pos rfl)))
  | fRddst =>
    rw [encode, decode_readHeader cfg cfg.cmdRddst (by decide), if_pos (by simp [Params.namesRead])]
  | _ => cases frame

/-- Settles O2: a frame through the receiver's rule and its kind, a host operation through its selector and its operands, a payload
through its own decoder. -/
theorem encodedInstructionsDecode : Obligations.EncodedInstructionsDecode := by
  unfold Obligations.EncodedInstructionsDecode
  intro cfg i commands selectors wf
  cases i with
  | fWrite | fRead | fCont | fCaset | fRaset | fRamwr | fGamset | fPvgam | fNvgam | fRddst =>
    exact decode_encode_frame commands wf rfl
  | win a b => exact decodeWin_winBytes a b
  | pix16 r g b => exact decodePix16_pix16Bytes r g b
  | onehot0 | onehot1 | onehot2 | onehot3 => rfl
  | img112 | img40 => exact if_pos (beq_iff_eq.mp wf)
  | resp => exact if_pos (of_decide_eq_true wf)
  | chunk => exact if_pos (wellFormed_chunk.mp wf)
  | _ => exact decode_encode_operation selectors rfl

/-! ### Transfers, as the statements write them (R36, R37) -/

/-- A link write and what follows it. -/
theorem afterWrite_linkWrite (bs : Bytes) (s : State) (onOk : State → State) (onErr : ErrKind → State → State) :
    afterWrite (linkWrite bs s) onOk onErr = sending bs s onOk (onErr .transportError) := by
  obtain ⟨d, draws, h⟩ := drawWrite_cases s
  cases d <;> simp only [linkWrite, sending, h] <;> rfl

theorem lastFrame_linkWrite (bs : Bytes) (s : State) : lastFrame (linkWrite bs s) = sendingOnly bs s :=
  afterWrite_linkWrite bs s succeed raise

/-- A link read whose bytes are the result of the operation. -/
theorem takeAnswer_response (n : Nat) (s : State) :
    takeAnswer n .response s = receiving n s (fun bs => answered (.ok (.bytes bs))) (answered (.err .shortRead)) := by
  by_cases h0 : n = 0
  · rw [h0]
    rfl
  obtain ⟨d, draws, h⟩ := drawRead_cases s
  have taken : ((s.rx ++ d.arrived).take (min d.count n)).length = min (min d.count n) (s.rx ++ d.arrived).length :=
    List.length_take
  simp only [takeAnswer, linkRead, receiving, h0, if_false, h, taken]
  split
  · next short =>
    have left : (s.rx ++ d.arrived).drop (min d.count n) =
        (s.rx ++ d.arrived).drop (min (min d.count n) (s.rx ++ d.arrived).length) := by
      rw [List.drop_eq_drop_min]
    rw [left]
    rfl
  · next full =>
    have all : min d.count n = n := by omega
    rw [all]
    rfl

/-! ### The frame rows (R65) -/

section Rows

variable {s : State} {command : Byte} {n : Nat}

theorem emitWrite_fits (payload : Bytes) (idle : s.busy = none) (handle : s.handleOpen = true)
    (fits : payload.length ≤ Config.maxChunk) :
    emitWrite payload (writeCommand .write command payload) s = .next (sendingOnly (writeFrame command payload) s) := by
  rw [emitWrite, whenIdle_idle idle, if_neg (Nat.not_lt.mpr fits), onLink_open handle, writeCommand_fits _ _ _ fits,
    lastFrame_linkWrite]
  rfl

theorem emitWrite_tooLarge {payload : Bytes} (frame : State → Sent × State) (idle : s.busy = none)
    (large : Config.maxChunk < payload.length) :
    emitWrite payload frame s = .next (answered (.err .payloadTooLarge) s) := by
  rw [emitWrite, whenIdle_idle idle, if_pos large]
  rfl

theorem emitRead_fits (idle : s.busy = none) (handle : s.handleOpen = true) (fits : n ≤ Config.maxChunk) :
    emitRead command n s = .next (sendingOnly (readFrame command n) s) := by
  rw [emitRead, whenIdle_idle idle, if_neg (Nat.not_lt.mpr fits), onLink_open handle, requestRead_fits _ _ fits,
    lastFrame_linkWrite]
  rfl

theorem emitRead_tooLarge (idle : s.busy = none) (large : Config.maxChunk < n) :
    emitRead command n s = .next (answered (.err .payloadTooLarge) s) := by
  rw [emitRead, whenIdle_idle idle, if_pos large]
  rfl

/-- The header of a row whose payload has a fixed length. -/
theorem emitWrite_of_length {payload : Bytes} (idle : s.busy = none) (handle : s.handleOpen = true)
    (h : payload.length = n) (fits : n ≤ Config.maxChunk) :
    emitWrite payload (writeCommand .write command payload) s =
      .next (sendingOnly ([0, command, BitVec.ofNat 8 n, BitVec.ofNat 8 (n / 256)] ++ payload) s) := by
  subst h
  exact emitWrite_fits payload idle handle fits

end Rows

theorem oneHot_eq_oneHotByte (i : Curve) : oneHot i = oneHotByte i := by
  revert i
  decide

/-- Settles O55: every frame row is `emitWrite` or `emitRead` of its own command and payload. -/
theorem frameRows : Obligations.FrameRows := by
  unfold Obligations.FrameRows
  intro s idle
  refine ⟨fun handle => ⟨fun _ payload => ?write, fun _ _ => ?read, fun payload => ?cont, fun a b => ?caset, fun a b => ?raset,
    ?ramwr, fun i => ?gamset, fun _ => ?pvgam, fun _ => ?nvgam, ?rddst⟩, fun _ _ => ?longWrite, fun _ _ => ?longRead,
    fun _ => ?longCont⟩
  case write | cont => exact emitWrite_fits payload idle handle
  case read => exact emitRead_fits idle handle
  case caset | raset => exact emitWrite_of_length idle handle (winBytes_length a b) (by decide)
  case ramwr => exact emitWrite_of_length idle handle (payload := []) rfl (by decide)
  case gamset =>
    rw [← oneHot_eq_oneHotByte]
    exact emitWrite_of_length idle handle (payload := [oneHot i]) rfl (by decide)
  case pvgam | nvgam => exact fun h => emitWrite_of_length idle handle h (by decide)
  case rddst => exact emitRead_fits idle handle (by decide)
  case longWrite | longCont => exact emitWrite_tooLarge _ idle
  case longRead => exact emitRead_tooLarge idle

/-! ### The payload rows (R50) -/

theorem formed_idle {s : State} (bs : Bytes) (idle : s.busy = none) :
    formed bs s = .next (answered (.ok (.bytes bs)) s) :=
  whenIdle_idle idle _

theorem pix16Bytes_eq_pixel (r : BitVec Config.redBits) (g : BitVec Config.greenBits) (b : BitVec Config.blueBits) :
    pix16Bytes r g b = pixel r.toNat g.toNat b.toNat := by
  rw [pix16Bytes, pixelValue_eq]
  rfl

theorem decodeTable_eq_answered (image : Bytes) (s : State) : decodeTable image s = answered (tableAnswer image) s := by
  rw [decodeTable, gammaDecode_eq_tableOfBytes, tableAnswer]
  cases tableOfBytes image <;> rfl

theorem decodeStatus_host (cfg : Params) (image : Bytes) (s : State) :
    decodeStatus cfg image .host s = statusAnswer cfg image s := by
  rw [decodeStatus, statusAnswer]
  cases statusDecode cfg image <;> rfl

/-- Settles O56: a payload the block produces is formed, an image is decoded, and an answer is one link read. -/
theorem payloadRows : Obligations.PayloadRows := by
  unfold Obligations.PayloadRows
  intro s idle
  refine ⟨fun _ _ => ?win, fun r g b => ?pix16, ?onehot0, ?onehot1, ?onehot2, ?onehot3, fun _ => ?chunk, fun image => ?img112,
    fun image => ?img40, fun answer fits handle => ?resp, fun answer large => ?longResp⟩
  case win | onehot0 | onehot1 | onehot2 | onehot3 | chunk => exact formed_idle _ idle
  case pix16 =>
    rw [← pix16Bytes_eq_pixel]
    exact formed_idle _ idle
  case img112 =>
    rw [← decodeTable_eq_answered]
    exact whenIdle_idle idle _
  case img40 =>
    rw [← decodeStatus_host]
    exact whenIdle_idle idle _
  case resp =>
    rw [← takeAnswer_response]
    exact (whenIdle_idle idle _).trans ((if_neg (Nat.not_lt.mpr fits)).trans (onLink_open handle _))
  case longResp => exact (whenIdle_idle idle _).trans (if_pos large)

end Sys2Proof.EncodingLaws

/-! PROOFS of the family of spec/41_transport_framing.md: frames are cut back in one way only (O5), `WRITE_COMMAND` and
`READ_RESPONSE` whole (O27, O28), and the size law (O29).

An operation that begins with a link write is taken to its end by `perform_sending`, and what its last result says of that write
is `sending_reports`; the size law is read off the two whole operations with these. -/

namespace Sys2Proof.TransportLaws

open Machine Claims Scope StateLaws EncodingLaws

/-! ### The receiver's rule on a sequence of frames (R55, R84) -/

theorem framesBytes_cons (f : Frame) (fs : List Frame) : framesBytes (f :: fs) = f.bytes ++ framesBytes fs := rfl

theorem cutFrames_framesBytes {fs : List Frame} (wf : ∀ f ∈ fs, f.wf = true) (rest : Bytes) :
    cutFrames fs.length (framesBytes fs ++ rest) = .ok (fs, rest) := by
  induction fs with
  | nil => rfl
  | cons f fs ih =>
    obtain ⟨front, behind⟩ := List.forall_mem_cons.mp wf
    rw [framesBytes_cons, List.append_assoc, List.length_cons, cutFrames, cutFrame_bytes front, readThen_ok, ih behind,
      readThen_ok]

/-- Two streams that begin with a frame and have the same bytes begin with the same frame. -/
theorem bytes_append_inj {f g : Frame} {rest rest' : Bytes} (hf : f.wf = true) (hg : g.wf = true)
    (same : f.bytes ++ rest = g.bytes ++ rest') : f = g ∧ rest = rest' := by
  have cut := cutFrame_bytes hf rest
  rw [same, cutFrame_bytes hg] at cut
  cases cut
  exact ⟨rfl, rfl⟩

/-- A frame has bytes: its header. -/
theorem framesBytes_cons_ne_nil (f : Frame) (fs : List Frame) : framesBytes (f :: fs) ≠ [] := by
  rw [framesBytes_cons, Frame.bytes, headerBytes_eq]
  nofun

theorem framesBytes_injective {fs gs : List Frame} (hf : ∀ f ∈ fs, f.wf = true) (hg : ∀ g ∈ gs, g.wf = true)
    (same : framesBytes fs = framesBytes gs) : fs = gs := by
  induction fs generalizing gs with
  | nil =>
    cases gs with
    | nil => rfl
    | cons g gs => exact absurd same.symm (framesBytes_cons_ne_nil g gs)
  | cons f fs ih =>
    cases gs with
    | nil => exact absurd same (framesBytes_cons_ne_nil f fs)
    | cons g gs =>
      obtain ⟨hf, hfs⟩ := List.forall_mem_cons.mp hf
      obtain ⟨hg, hgs⟩ := List.forall_mem_cons.mp hg
      obtain ⟨rfl, behind⟩ := bytes_append_inj hf hg same
      rw [ih hfs hgs behind]

/-- Settles O5: each half by induction on the frames, the front one cut by the receiver's rule. -/
theorem framesAreCutBack : Obligations.FramesAreCutBack :=
  ⟨fun _ rest wf => cutFrames_framesBytes wf rest, fun _ _ => framesBytes_injective⟩

/-! ### An operation that begins with a link write (R36) -/

/-- A history that has grown by one entry says which one. -/
theorem eq_of_append_singleton {α : Type} {l : List α} {a b : α} (h : l ++ [a] = l ++ [b]) : a = b :=
  List.singleton_inj.mp (List.append_cancel_left h)

section Sending

variable {s : State} {bs : Bytes} {done failed : State → State}

/-- The three outcomes of a link write, as the statements write it. -/
theorem sending_cases (bs : Bytes) (s : State) (done failed : State → State) :
    (∃ draws, sending bs s done failed = done { s with tx := s.tx ++ bs, draws := draws }) ∨
    (∃ draws k, sending bs s done failed = failed { s with tx := s.tx ++ bs.take k, draws := draws }) ∨
    (∃ draws k, sending bs s done failed =
      { s with tx := s.tx ++ bs.take k, draws := draws, busy := some .blocked }) := by
  obtain ⟨d, draws, h⟩ := drawWrite_cases s
  cases d with
  | done => exact .inl ⟨draws, by simp only [sending, h]⟩
  | failed k => exact .inr (.inl ⟨draws, k, by simp only [sending, h]⟩)
  | blocked k => exact .inr (.inr ⟨draws, k, by simp only [sending, h]⟩)

/-- An operation that goes on to its end has made its first step. -/
theorem exec_of_perform {i : Instr} {t : State} (h : perform i s = .next t) : ∃ u, exec i s = .next u := by
  rw [perform_eq] at h
  cases first : exec i s with
  | next u => exact ⟨u, rfl⟩
  | fault r | refused r => rw [first] at h; cases h

/-- An operation whose first step ends it or leaves the block stuck. -/
theorem perform_ended {i : Instr} {t : State} (first : exec i s = .next t) (ended : t.busy = none ∨ t.busy = some .blocked) :
    perform i s = .next t := by
  rw [perform_eq, first]
  exact settle_ended _ _ ended

/-- An operation whose first step is a link write, to its end: the failed and the stuck write end it, and after a whole write it
is what the steps left make of it. -/
theorem perform_sending {i : Instr} {after : State → State} (first : exec i s = .next (sending bs s done failed))
    (ends : ∀ u, (failed u).busy = none)
    (goes : ∀ u, u.handleOpen = s.handleOpen → settle Config.params (stepsLeft (done u)) (done u) = .next (after u)) :
    perform i s = .next (sending bs s after failed) := by
  rw [perform_eq, first]
  obtain ⟨d, draws, h⟩ := drawWrite_cases s
  cases d with
  | done =>
    simp only [sending, h]
    exact goes _ rfl
  | failed k =>
    simp only [sending, h]
    exact settle_ended _ _ (.inl (ends _))
  | blocked k =>
    simp only [sending, h]
    exact settle_ended _ _ (.inr rfl)

/-- An operation that has given a result after its link write has reported the failed write, or all of the bytes were sent. -/
theorem sending_reports {r : Result}
    (told : (sending bs s done (answered (.err .transportError))).results = s.results ++ [r]) :
    r = .err .transportError ∨
    ∃ draws, sending bs s done (answered (.err .transportError)) = done { s with tx := s.tx ++ bs, draws := draws } := by
  rcases sending_cases bs s done (answered (.err .transportError)) with whole | ⟨_, _, e⟩ | ⟨_, _, e⟩
  · exact .inr whole
  · rw [e] at told
    exact .inl (eq_of_append_singleton told).symm
  · rw [e] at told
    exact absurd (List.self_eq_append_right.mp told) (List.cons_ne_nil _ _)

end Sending

/-! ### WRITE_COMMAND (R80) -/

section Write

variable {s t : State} {d : Direction} {command : Byte} {payload : Bytes}

theorem exec_writeCommand (idle : s.busy = none) :
    exec (.writeCommand d command payload) s = startWrite d command payload s :=
  whenIdle_idle idle _

theorem startWrite_tooLarge (large : Config.maxChunk < payload.length) :
    startWrite d command payload s = .next (answered (.err .payloadTooLarge) s) :=
  if_pos large

theorem startWrite_readWithPayload (fits : payload.length ≤ Config.maxChunk) (nonempty : payload ≠ []) :
    startWrite .read command payload s = .refused .readFrameWithPayload :=
  (if_neg (Nat.not_lt.mpr fits)).trans (if_pos ⟨rfl, nonempty⟩)

/-- A frame whose size and direction are accepted is one link write of header and payload. -/
theorem startWrite_accepted (fits : payload.length ≤ Config.maxChunk) (accepted : ¬(d = .read ∧ payload ≠ [])) :
    startWrite d command payload s =
      onLink s (.next (sendingOnly (headerBytes d command payload.length ++ payload) s)) := by
  rw [startWrite, if_neg (Nat.not_lt.mpr fits), if_neg accepted, writeCommand_fits _ _ _ fits, lastFrame_linkWrite]

/-- A `WRITE_COMMAND` that goes on: its payload was too large, or it was one link write. -/
theorem startWrite_next (h : startWrite d command payload s = .next t) :
    (Config.maxChunk < payload.length ∧ t = answered (.err .payloadTooLarge) s) ∨
    (payload.length ≤ Config.maxChunk ∧ t = sendingOnly (headerBytes d command payload.length ++ payload) s) := by
  by_cases large : Config.maxChunk < payload.length
  · rw [startWrite_tooLarge large] at h
    cases h
    exact .inl ⟨large, rfl⟩
  have fits : payload.length ≤ Config.maxChunk := Nat.not_lt.mp large
  by_cases refused : d = .read ∧ payload ≠ []
  · obtain ⟨rfl, nonempty⟩ := refused
    rw [startWrite_readWithPayload fits nonempty] at h
    cases h
  · rw [startWrite_accepted fits refused] at h
    cases (onLink_next h).2
    exact .inr ⟨fits, rfl⟩

/-- A whole `WRITE_COMMAND` that goes on is its first step. -/
theorem perform_writeCommand_next (h : perform (.writeCommand d command payload) s = .next t) :
    (Config.maxChunk < payload.length ∧ t = answered (.err .payloadTooLarge) s) ∨
    (payload.length ≤ Config.maxChunk ∧ t = sendingOnly (headerBytes d command payload.length ++ payload) s) := by
  obtain ⟨u, first⟩ := exec_of_perform h
  have begun := (whenIdle_next first).2
  rcases startWrite_next begun with ⟨large, rfl⟩ | ⟨fits, rfl⟩
  · rw [perform_ended first (.inl rfl)] at h
    cases h
    exact .inl ⟨large, rfl⟩
  · rw [perform_sending first (fun _ => rfl) fun _ _ => settle_ended _ _ (.inl rfl)] at h
    cases h
    exact .inr ⟨fits, rfl⟩

end Write

/-- Settles O27: the size check, the refusal and the link write, in the order of `startWrite`. -/
theorem writeCommand : Obligations.WriteCommand := by
  unfold Obligations.WriteCommand
  intro d c payload s idle
  rw [exec_writeCommand idle]
  refine ⟨startWrite_tooLarge, ?refused, ?write, ?read⟩
  case refused =>
    rintro fits rfl nonempty
    exact startWrite_readWithPayload fits nonempty
  case write =>
    rintro fits rfl handle
    exact (startWrite_accepted fits (by simp)).trans (onLink_open handle _)
  case read =>
    rintro rfl rfl handle
    exact (startWrite_accepted (Nat.zero_le _) fun nonempty => nonempty.2 rfl).trans (onLink_open handle _)

/-! ### READ_RESPONSE (R81) -/

section Read

variable {s t : State} {command : Byte} {n : Nat}

theorem exec_readResponse (idle : s.busy = none) :
    exec (.readResponse command n) s = beginRead command n .response s :=
  whenIdle_idle idle _

theorem beginRead_response_tooLarge (large : Config.maxChunk < n) :
    beginRead command n .response s = .next (answered (.err .payloadTooLarge) s) :=
  if_pos large

/-- The header of a read whose size is accepted; the answer is awaited once all of it is sent. -/
theorem beginRead_response_fits (fits : n ≤ Config.maxChunk) (handle : s.handleOpen = true) :
    beginRead command n .response s =
      .next (sending (readFrame command n) s (fun t => { t with busy := some (.respond n .response) })
        (answered (.err .transportError))) := by
  rw [beginRead, if_neg (Nat.not_lt.mpr fits), onLink_open handle, startRead, requestRead_fits _ _ fits,
    afterWrite_linkWrite]
  rfl

/-- The second step of a read whose bytes are the result. -/
def answering (n : Nat) (s : State) : State :=
  receiving n s (fun bs => answered (.ok (.bytes bs))) (answered (.err .shortRead))

theorem takeAnswer_eq_answering (n : Nat) (s : State) : takeAnswer n .response s = answering n s := takeAnswer_response n s

/-- The operation in progress has no part in the read that ends it. -/
theorem answering_busy (busy : Option Progress) : answering n { s with busy := busy } = answering n s := by
  unfold answering receiving drawRead
  by_cases empty : n = 0
  · rw [if_pos empty, if_pos empty]
    rfl
  · rw [if_neg empty, if_neg empty]
    cases s.draws.reads <;> (dsimp only; split <;> rfl)

/-- The second step of a read ends it: what it gives is the whole answer or `ShortRead`. -/
theorem answering_reports (n : Nat) (s : State) :
    ∃ r rx draws, answering n s = answered r { s with rx := rx, draws := draws } ∧
      ((∃ bs, r = .ok (.bytes bs)) ∨ r = .err .shortRead) := by
  rw [← takeAnswer_eq_answering]
  obtain ⟨bs, rx, draws, _, _, _, ⟨_, short⟩ | ⟨_, _, full⟩ | ⟨_, _, status, _⟩⟩ := takeAnswer_cases n .response s
  · exact ⟨_, rx, draws, short, .inr rfl⟩
  · exact ⟨_, rx, draws, full, .inl ⟨bs, rfl⟩⟩
  · cases status

/-- The steps left of a read whose header has been sent. -/
theorem settle_respond (waits : s.busy = some (.respond n .response)) (handle : s.handleOpen = true) (fuel : Nat) :
    settle Config.params (fuel + 1) s = .next (answering n s) := by
  obtain ⟨_, _, _, ended, _⟩ := answering_reports n s
  rw [settle_busy _ _ waits nofun, resume, onLink_open handle, takeAnswer_eq_answering, ended]
  exact settle_ended _ _ (.inl rfl)

/-- A whole `READ_RESPONSE` of an accepted size: the header, then the read. -/
theorem perform_readResponse_fits (idle : s.busy = none) (handle : s.handleOpen = true) (fits : n ≤ Config.maxChunk) :
    perform (.readResponse command n) s =
      .next (sending (readFrame command n) s (answering n) (answered (.err .transportError))) :=
  perform_sending ((exec_readResponse idle).trans (beginRead_response_fits fits handle)) (fun _ => rfl)
    fun u still => (settle_respond (s := { u with busy := some (.respond n .response) }) rfl (still.trans handle) 6).trans
      (congrArg _ (answering_busy _))

theorem perform_readResponse_tooLarge (idle : s.busy = none) (large : Config.maxChunk < n) :
    perform (.readResponse command n) s = .next (answered (.err .payloadTooLarge) s) :=
  perform_ended ((exec_readResponse idle).trans (beginRead_response_tooLarge large)) (.inl rfl)

/-- A whole `READ_RESPONSE` that goes on: its size was too large, or it was a header and a read. -/
theorem perform_readResponse_next (h : perform (.readResponse command n) s = .next t) :
    (Config.maxChunk < n ∧ t = answered (.err .payloadTooLarge) s) ∨
    (n ≤ Config.maxChunk ∧ t = sending (readFrame command n) s (answering n) (answered (.err .transportError))) := by
  obtain ⟨u, first⟩ := exec_of_perform h
  obtain ⟨idle, begun⟩ := whenIdle_next first
  rcases beginRead_next begun with ⟨large, _⟩ | ⟨fits, handle, _⟩
  · rw [perform_readResponse_tooLarge idle large] at h
    cases h
    exact .inl ⟨large, rfl⟩
  · rw [perform_readResponse_fits idle handle fits] at h
    cases h
    exact .inr ⟨fits, rfl⟩

end Read

/-- Settles O28: the size check without I/O, or the header and, once all of it is sent, the read. -/
theorem readResponse : Obligations.ReadResponse := by
  unfold Obligations.ReadResponse
  intro c n s idle
  refine ⟨fun large => ⟨?_, perform_readResponse_tooLarge idle large⟩,
    fun fits handle => ⟨?_, perform_readResponse_fits idle handle fits⟩⟩
  · exact (exec_readResponse idle).trans (beginRead_response_tooLarge large)
  · exact (exec_readResponse idle).trans (beginRead_response_fits fits handle)

/-! ### The size law (R83) -/

section Size

variable {s t : State} {d : Direction} {command : Byte} {payload : Bytes} {n : Nat}

/-- What a `WRITE_COMMAND` that has given a result other than `TransportError` has sent (R80, R83). -/
theorem perform_writeCommand_reports {r : Result} (h : perform (.writeCommand d command payload) s = .next t)
    (told : t.results = s.results ++ [r]) (sent : r ≠ .err .transportError) :
    (r = .err .payloadTooLarge ∧ t.tx = s.tx) ∨
    (r = .ok .none ∧ payload.length ≤ Config.maxChunk ∧
      t.tx = s.tx ++ (headerBytes d command payload.length ++ payload)) := by
  rcases perform_writeCommand_next h with ⟨_, rfl⟩ | ⟨fits, rfl⟩
  · exact .inl ⟨(eq_of_append_singleton told).symm, rfl⟩
  · obtain failed | ⟨draws, whole⟩ := sending_reports told
    · exact absurd failed sent
    · rw [sendingOnly, whole] at told ⊢
      exact .inr ⟨(eq_of_append_singleton told).symm, fits, rfl⟩

/-- What a `READ_RESPONSE` that has given a result other than `TransportError` has sent (R81, R83). -/
theorem perform_readResponse_reports {r : Result} (h : perform (.readResponse command n) s = .next t)
    (told : t.results = s.results ++ [r]) (sent : r ≠ .err .transportError) :
    (r = .err .payloadTooLarge ∧ t.tx = s.tx) ∨ (r ≠ .err .payloadTooLarge ∧ t.tx = s.tx ++ readFrame command n) := by
  rcases perform_readResponse_next h with ⟨_, rfl⟩ | ⟨_, rfl⟩
  · exact .inl ⟨(eq_of_append_singleton told).symm, rfl⟩
  · obtain failed | ⟨draws, whole⟩ := sending_reports told
    · exact absurd failed sent
    · obtain ⟨_, _, _, ended, answer⟩ := answering_reports n { s with tx := s.tx ++ readFrame command n, draws := draws }
      rw [whole, ended] at told ⊢
      obtain rfl := eq_of_append_singleton told
      refine .inr ⟨?_, rfl⟩
      rintro rfl
      obtain ⟨_, answer⟩ | answer := answer <;> cases answer

/-- The length of an accepted frame in its bytes 2 and 3, low first (R54). -/
theorem frame_length_bytes (d : Direction) (command : Byte) (rest : Bytes) (fits : n ≤ Config.maxChunk) :
    ∃ low high, (headerBytes d command n ++ rest)[2]? = some low ∧ (headerBytes d command n ++ rest)[3]? = some high ∧
      low.toNat + 256 * high.toNat = n := by
  obtain ⟨low, high, split, joined⟩ := fromLe16_le16 (Nat.lt_of_le_of_lt fits (by decide))
  rw [headerBytes_eq, split]
  exact ⟨low, high, rfl, rfl, joined⟩

end Size

/-- Settles O29: what each operation has sent when it gives the result named. -/
theorem sizeLaw : Obligations.SizeLaw := by
  refine ⟨fun d c payload s t h told => ?write, fun c n s t h told => ?read, fun d c payload s t h told => ?longWrite,
    fun c n s t h told => ?longRead⟩
  case write =>
    obtain ⟨large, _⟩ | ⟨_, fits, tx⟩ := perform_writeCommand_reports h told nofun
    · cases large
    · exact ⟨_, tx, by rw [List.length_append, headerBytes_length], frame_length_bytes d c payload fits⟩
  case read =>
    obtain ⟨r, told, sent, accepted⟩ :
        ∃ r, t.results = s.results ++ [r] ∧ r ≠ .err .transportError ∧ r ≠ .err .payloadTooLarge := by
      obtain ⟨bs, told⟩ | told := told
      · exact ⟨_, told, nofun, nofun⟩
      · exact ⟨_, told, nofun, nofun⟩
    obtain ⟨large, _⟩ | ⟨_, tx⟩ := perform_readResponse_reports h told sent
    · exact absurd large accepted
    · exact ⟨_, tx, rfl⟩
  case longWrite =>
    obtain ⟨_, tx⟩ | ⟨ok, _⟩ := perform_writeCommand_reports h told nofun
    · exact tx
    · cases ok
  case longRead =>
    obtain ⟨_, tx⟩ | ⟨accepted, _⟩ := perform_readResponse_reports h told nofun
    · exact tx
    · exact absurd rfl accepted

end Sys2Proof.TransportLaws

/-! PROOFS of the family of spec/42_pixel_streaming.md: `SET_WINDOW` and `STREAM_PIXELS` whole (O30, O31), the chunk law (O32) and
`PACK_PIXEL` (O33).

A stream goes on from link write to link write, so `settle_sending` takes an operation in progress over one of them; `settle_chunks`
is its induction over the chunks left. The chunk law rests on one comparison, `lt_chunkCount_iff`: there is a chunk `j` exactly when
the buffer has a byte at `j * MAX_CHUNK`. -/

namespace Sys2Proof.PixelLaws

open Machine Claims Scope EncodingLaws
open TransportLaws (sending_reports perform_sending exec_of_perform)

/-! ### An operation in progress that goes over a link write (R36) -/

section Sending

variable {s : State} {bs : Bytes} {done failed : State → State}

/-- A link write does not see which operation is in progress; nor does what follows it, when neither end of it does. -/
theorem sending_busy {p : Option Progress} (hdone : ∀ t : State, done { t with busy := p } = done t)
    (hfailed : ∀ t : State, failed { t with busy := p } = failed t) :
    sending bs { s with busy := p } done failed = sending bs s done failed := by
  have drawn : drawWrite { s with busy := p } = ((drawWrite s).1, { (drawWrite s).2 with busy := p }) := by
    unfold drawWrite
    cases s.draws.writes <;> rfl
  obtain ⟨d, draws, h⟩ := drawWrite_cases s
  simp only [sending, drawn, h]
  cases d with
  | done => exact hdone { s with tx := s.tx ++ bs, draws := draws }
  | failed k => exact hfailed { s with tx := s.tx ++ bs.take k, draws := draws }
  | blocked k => rfl

/-- The steps left after a link write: the failed and the stuck write end the operation, and after a whole write it is what those
steps make of it. -/
theorem settle_sending {cfg : Params} {fuel : Nat} {after : State → State} (ends : ∀ u, (failed u).busy = none)
    (goes : ∀ tx draws, settle cfg fuel (done { s with tx := tx, draws := draws }) =
      .next (after { s with tx := tx, draws := draws })) :
    settle cfg fuel (sending bs s done failed) = .next (sending bs s after failed) := by
  obtain ⟨d, draws, h⟩ := drawWrite_cases s
  simp only [sending, h]
  cases d with
  | done => exact goes _ _
  | failed k => exact settle_ended _ _ (.inl (ends _))
  | blocked k => exact settle_ended _ _ (.inr rfl)

theorem settle_sendingOnly (cfg : Params) (fuel : Nat) (bs : Bytes) (s : State) :
    settle cfg fuel (sendingOnly bs s) = .next (sendingOnly bs s) :=
  settle_sending (fun _ => rfl) fun _ _ => settle_ended _ _ (.inl rfl)

/-- The one frame of an operation does not see which operation it is. -/
theorem sendingOnly_busy (bs : Bytes) (s : State) (p : Option Progress) :
    sendingOnly bs { s with busy := p } = sendingOnly bs s :=
  sending_busy (fun _ => rfl) fun _ => rfl

end Sending

/-- A write frame whose payload fits, and what follows it (R80). -/
theorem afterWrite_frame {command : Byte} {payload : Bytes} (s : State) (onOk : State → State)
    (fits : payload.length ≤ Config.maxChunk) :
    afterWrite (writeCommand .write command payload s) onOk raise =
      sending (writeFrame command payload) s onOk (answered (.err .transportError)) := by
  rw [writeCommand_fits _ _ _ fits, afterWrite_linkWrite]
  rfl

/-! ### SET_WINDOW (R100) -/

section Window

variable {cfg : Params} {x0 y0 x1 y1 : U16} {s : State}

/-- A bound on the wire, high byte first (R57). -/
theorem winBytes_eq (start stop : U16) : winBytes start stop = bound start ++ bound stop := rfl

/-- An end bound not less than the bias goes out as their difference. -/
theorem endBound_eq (h : cfg.windowEndBias = 0 ∨ x1 ≠ 0) :
    endBound cfg x1 = BitVec.ofNat 16 (x1.toNat - cfg.windowEndBias.val) := by
  have le : cfg.windowEndBias.val ≤ x1.toNat := by
    rcases h with h | h
    · simp [h]
    · have := cfg.windowEndBias.isLt
      have : x1.toNat ≠ 0 := fun e => h (BitVec.eq_of_toNat_eq e)
      omega
  apply BitVec.eq_of_toNat_eq
  have := x1.isLt
  simp only [endBound, BitVec.toNat_sub, BitVec.toNat_ofNat]
  omega

theorem windowUnderflows_iff :
    windowUnderflows cfg x1 y1 = true ↔ cfg.windowEndBias = 1 ∧ (x1 = 0 ∨ y1 = 0) := by
  simp [windowUnderflows]

/-- The first step of a window whose end bounds are accepted: the column frame, and the row frame next. -/
theorem beginWindow_accepted (accepted : windowUnderflows cfg x1 y1 = false) (handle : s.handleOpen = true) :
    beginWindow cfg x0 y0 x1 y1 s =
      .next (sending (writeFrame cfg.cmdCaset (bound x0 ++ bound (endBound cfg x1))) s
        (fun t => { t with busy := some (.rows y0 (endBound cfg y1)) }) (answered (.err .transportError))) := by
  rw [beginWindow, accepted, if_neg Bool.false_ne_true, onLink_open handle, startWindow, columnFrame,
    afterWrite_frame _ _ (by rw [winBytes_length]; decide), winBytes_eq]

/-- The second step of a window: the row frame, which ends the operation. -/
theorem resume_rows (start stop : U16) (handle : s.handleOpen = true) :
    resume cfg (.rows start stop) s =
      .next (sendingOnly (writeFrame cfg.cmdRaset (bound start ++ bound stop)) s) := by
  rw [resume, onLink_open handle, lastFrame, rowFrame, afterWrite_frame _ _ (by rw [winBytes_length]; decide), winBytes_eq]
  rfl

/-- The steps left of a window whose column frame has been sent. -/
theorem settle_rows {fuel : Nat} {start stop : U16} (busy : s.busy = some (.rows start stop)) (handle : s.handleOpen = true) :
    settle cfg (fuel + 1) s = .next (sendingOnly (writeFrame cfg.cmdRaset (bound start ++ bound stop)) s) := by
  rw [settle_busy cfg fuel busy nofun, resume_rows start stop handle]
  exact settle_sendingOnly _ _ _ _

/-- The machine's build takes nothing off an end bound (D7). -/
theorem endBound_params (x : U16) : endBound Config.params x = x := BitVec.sub_zero x

theorem exec_setWindow (idle : s.busy = none) (handle : s.handleOpen = true) :
    exec (.setWindow x0 y0 x1 y1) s =
      .next (sending (writeFrame Config.cmdCaset (bound x0 ++ bound x1)) s (fun t => { t with busy := some (.rows y0 y1) })
        (answered (.err .transportError))) := by
  have begun : exec (.setWindow x0 y0 x1 y1) s = beginWindow Config.params x0 y0 x1 y1 s := whenIdle_idle idle _
  rw [begun, beginWindow_accepted rfl handle, endBound_params, endBound_params]
  rfl

/-- A whole window: the row frame follows the column frame. -/
theorem perform_setWindow (idle : s.busy = none) (handle : s.handleOpen = true) :
    perform (.setWindow x0 y0 x1 y1) s =
      .next (sending (writeFrame Config.cmdCaset (bound x0 ++ bound x1)) s
        (sendingOnly (writeFrame Config.cmdRaset (bound y0 ++ bound y1))) (answered (.err .transportError))) := by
  refine perform_sending (exec_setWindow idle handle) (fun _ => rfl) fun u still => ?_
  exact (settle_rows (s := { u with busy := some (.rows y0 y1) }) rfl (still.trans handle)).trans
    (congrArg _ (sendingOnly_busy _ u _))

end Window

/-- Settles O30: the machine's build is the one of the two variants whose bias is 0. -/
theorem setWindow : Obligations.SetWindow := by
  refine ⟨fun _ _ _ _ _ idle handle => ⟨exec_setWindow idle handle, perform_setWindow idle handle⟩,
    fun cfg x0 y0 x1 y1 s => ⟨fun bias zero => ?refused, fun accepted handle => ?sent, fun ey => resume_rows y0 ey⟩⟩
  case refused => exact if_pos (windowUnderflows_iff.mpr ⟨bias, zero⟩)
  case sent =>
    have fits : windowUnderflows cfg x1 y1 = false := by
      rw [← Bool.not_eq_true, windowUnderflows_iff]
      rintro ⟨bias, zero⟩
      rcases accepted with unbiased | ⟨hx, hy⟩
      · rw [bias] at unbiased
        cases unbiased
      · exact zero.elim hx hy
    rw [beginWindow_accepted fits handle, endBound_eq (accepted.imp_right And.left),
      endBound_eq (accepted.imp_right And.right)]

/-! ### The chunks of a buffer (R102) -/

/-- There is a chunk `j` exactly when the buffer has a byte at `j * MAX_CHUNK`. -/
theorem lt_chunkCount_iff {j n : Nat} : j < chunkCount n ↔ j * Config.maxChunk < n := by
  simp only [chunkCount, Config.maxChunk]
  omega

theorem chunkCount_pos {buffer : Bytes} (nonempty : buffer ≠ []) : 0 < chunkCount buffer.length := by
  rw [lt_chunkCount_iff, Nat.zero_mul]
  exact List.length_pos_iff.mpr nonempty

/-- The chunks reach to the end of the buffer. -/
theorem le_chunkCount_mul (n : Nat) : n ≤ chunkCount n * Config.maxChunk :=
  Nat.not_lt.mp (mt lt_chunkCount_iff.mpr (lt_irrefl _))

theorem chunkCount_le (n : Nat) : chunkCount n ≤ n / Config.maxChunk + 1 := by
  simp only [chunkCount, Config.maxChunk]
  omega

theorem chunkOf_length (buffer : Bytes) (j : Nat) :
    (chunkOf buffer j).length = min Config.maxChunk (buffer.length - j * Config.maxChunk) := by
  rw [chunkOf, List.length_take, List.length_drop]

theorem chunkOf_fits (buffer : Bytes) (j : Nat) : (chunkOf buffer j).length ≤ Config.maxChunk :=
  List.length_take_le _ _

/-- The slice at the cursor is a chunk: a chunk ends where the buffer does. -/
theorem slice_eq_chunkOf (buffer : Bytes) (j : Nat) :
    slice buffer (j * Config.maxChunk) (min Config.maxChunk (buffer.length - j * Config.maxChunk)) = chunkOf buffer j := by
  rw [slice, chunkOf, ← List.length_drop, ← List.take_eq_take_min]

/-- The first `n` chunks together are the beginning of the buffer. -/
theorem flatMap_chunkOf (buffer : Bytes) (n : Nat) :
    (List.range n).flatMap (chunkOf buffer) = buffer.take (n * Config.maxChunk) := by
  induction n with
  | zero => simp
  | succ n ih => rw [List.range_succ, List.flatMap_append, ih, List.flatMap_singleton, chunkOf, Nat.succ_mul, List.take_add]

/-- All chunks together are the buffer. -/
theorem flatMap_chunkOf_all (buffer : Bytes) :
    (List.range (chunkCount buffer.length)).flatMap (chunkOf buffer) = buffer := by
  rw [flatMap_chunkOf]
  exact List.take_of_length_le (le_chunkCount_mul _)

/-! ### STREAM_PIXELS (R101) -/

section Stream

variable {cfg : Params} {buffer : Bytes} {s : State} {n j fuel : Nat}

/-- The loop does not see which operation is in progress. -/
theorem streaming_busy (buffer : Bytes) (n j : Nat) (s : State) (p : Option Progress) :
    streaming buffer n j { s with busy := p } = streaming buffer n j s := by
  induction n generalizing j s with
  | zero => rfl
  | succ n ih =>
    exact sending_busy (s := { s with cur := some (j * Config.maxChunk) }) (fun t => ih (j + 1) t) fun _ => rfl

/-- The loop sets the cursor before each of its frames. -/
theorem streaming_cur (buffer : Bytes) (n j : Nat) (s : State) (c : Option Nat) :
    streaming buffer n j { s with cur := c } = streaming buffer n j s := by
  cases n <;> rfl

/-- One pass of the loop: chunk `j`, and the cursor past it when that is not the last. -/
theorem streamStep_chunk (cursor : s.cur = some (j * Config.maxChunk)) (more : j < chunkCount buffer.length) :
    streamStep buffer s =
      sending (writeFrame 0 (chunkOf buffer j)) s
        (fun t => if j + 1 < chunkCount buffer.length then { t with cur := some ((j + 1) * Config.maxChunk) }
          else answered (.ok .none) t)
        (answered (.err .transportError)) := by
  have inside : j * Config.maxChunk < buffer.length := lt_chunkCount_iff.mp more
  rw [streamStep_frame cursor inside, slice_eq_chunkOf, continuationFrame, afterWrite_frame _ _ (chunkOf_fits _ _)]
  congr 1
  funext t
  by_cases next : (j + 1) * Config.maxChunk < buffer.length
  · have whole : j * Config.maxChunk + min Config.maxChunk (buffer.length - j * Config.maxChunk) =
        (j + 1) * Config.maxChunk := by
      rw [Nat.succ_mul] at next ⊢
      omega
    rw [whole, if_pos next, if_pos (lt_chunkCount_iff.mpr next)]
  · have last : ¬ j * Config.maxChunk + min Config.maxChunk (buffer.length - j * Config.maxChunk) < buffer.length := by
      rw [Nat.succ_mul] at next
      omega
    rw [if_neg last, if_neg (mt lt_chunkCount_iff.mp next)]
    rfl

/-- The steps left of a stream with `n` chunks to go, the cursor at chunk `j`. -/
theorem settle_chunks (busy : s.busy = some (.chunks buffer)) (cursor : s.cur = some (j * Config.maxChunk))
    (handle : s.handleOpen = true) (left : j + n = chunkCount buffer.length) (more : 0 < n) (enough : n ≤ fuel) :
    settle cfg fuel s = .next (streaming buffer n j s) := by
  induction n generalizing j s fuel with
  | zero => exact absurd more (lt_irrefl 0)
  | succ n ih =>
    obtain ⟨fuel, rfl⟩ := Nat.exists_eq_add_of_le' (Nat.le_trans (Nat.succ_pos n) enough)
    have atCursor : { s with cur := some (j * Config.maxChunk) } = s := by rw [← cursor]
    rw [settle_busy cfg fuel busy nofun, resume, onLink_open handle, streamStep_chunk cursor (by omega), streaming, atCursor]
    refine settle_sending (fun _ => rfl) fun tx draws => ?_
    by_cases next : j + 1 < chunkCount buffer.length
    · rw [if_pos next, ← streaming_cur buffer n (j + 1) _ (some ((j + 1) * Config.maxChunk))]
      exact ih busy rfl handle (by omega) (by omega) (by omega)
    · obtain rfl : n = 0 := by omega
      rw [if_neg next]
      exact settle_ended _ _ (.inl rfl)

theorem exec_streamPixels (idle : s.busy = none) (handle : s.handleOpen = true) :
    exec (.streamPixels buffer) s =
      .next (sending (writeFrame Config.cmdRamwr []) s
        (fun t =>
          if buffer = [] then answered (.ok .none) t else { t with cur := some 0, busy := some (.chunks buffer) })
        (answered (.err .transportError))) := by
  have begun : exec (.streamPixels buffer) s = onLink s (.next (startStream Config.params buffer s)) := whenIdle_idle idle _
  rw [begun, onLink_open handle, startStream, openFrame, afterWrite_frame _ _ (Nat.zero_le _)]
  rfl

/-- A whole stream: the loop follows the memory-write frame. -/
theorem perform_streamPixels (idle : s.busy = none) (handle : s.handleOpen = true) :
    perform (.streamPixels buffer) s =
      .next (sending (writeFrame Config.cmdRamwr []) s (streaming buffer (chunkCount buffer.length) 0)
        (answered (.err .transportError))) := by
  refine perform_sending (exec_streamPixels idle handle) (fun _ => rfl) fun u still => ?_
  by_cases empty : buffer = []
  · subst empty
    exact settle_ended _ _ (.inl rfl)
  · have nonempty : 0 < chunkCount buffer.length := chunkCount_pos empty
    rw [if_neg empty]
    exact (settle_chunks (j := 0) (s := { u with cur := some 0, busy := some (.chunks buffer) }) rfl
        (by rw [Nat.zero_mul]) (still.trans handle) (Nat.zero_add _) nonempty (chunkCount_le _)).trans
      (congrArg _ ((streaming_busy _ _ _ { u with cur := some 0 } _).trans (streaming_cur _ _ _ _ _)))

end Stream

/-- Settles O31: the first step, and the loop run to the end by `settle_chunks`. -/
theorem streamPixels : Obligations.StreamPixels :=
  fun _ _ idle handle => ⟨exec_streamPixels idle handle, perform_streamPixels idle handle⟩

/-! ### The chunk law (R102) -/

/-- The bytes of a stream: the memory-write frame, then a continuation frame for each chunk. -/
theorem framesBytes_streamFrames (cfg : Params) (buffer : Bytes) :
    framesBytes (streamFrames cfg buffer) = writeFrame cfg.cmdRamwr [] ++
      (List.range (chunkCount buffer.length)).flatMap fun j => writeFrame 0 (chunkOf buffer j) := by
  rw [framesBytes, streamFrames, List.flatMap_cons, List.flatMap_map]
  rfl

theorem writeFrame_length (command : Byte) (payload : Bytes) :
    (writeFrame command payload).length = 4 + payload.length := by
  rw [writeFrame, List.length_append]
  rfl

/-- Four bytes of header for each frame, and the buffer. -/
theorem framesBytes_streamFrames_length (cfg : Params) (buffer : Bytes) :
    (framesBytes (streamFrames cfg buffer)).length = 4 + 4 * chunkCount buffer.length + buffer.length := by
  have payloads : ((List.range (chunkCount buffer.length)).map fun j => (chunkOf buffer j).length).sum = buffer.length := by
    rw [← List.length_flatMap, flatMap_chunkOf_all]
  rw [framesBytes_streamFrames, List.length_append, writeFrame_length, List.length_flatMap]
  simp only [writeFrame_length, List.sum_map_add, payloads, List.map_const', List.sum_replicate, List.length_range,
    List.length_nil, smul_eq_mul]
  omega

/-- What a loop that ends with `Ok` has sent: each of its writes was whole. -/
theorem streaming_tx {buffer : Bytes} {n j : Nat} {s : State}
    (told : (streaming buffer n j s).results = s.results ++ [.ok .none]) :
    (streaming buffer n j s).tx = s.tx ++ (List.range' j n).flatMap fun i => writeFrame 0 (chunkOf buffer i) := by
  induction n generalizing j s with
  | zero => simp [streaming, answered]
  | succ n ih =>
    obtain failed | ⟨draws, whole⟩ := sending_reports told
    · cases failed
    · rw [streaming] at told ⊢
      rw [whole] at told ⊢
      rw [ih told, List.range'_succ, List.flatMap_cons, List.append_assoc]

/-- What a successful stream has sent. -/
theorem perform_streamPixels_tx {buffer : Bytes} {s t : State} (h : perform (.streamPixels buffer) s = .next t)
    (told : t.results = s.results ++ [.ok .none]) :
    t.tx = s.tx ++ framesBytes (streamFrames Config.params buffer) := by
  obtain ⟨u, first⟩ := exec_of_perform h
  obtain ⟨idle, begun⟩ := whenIdle_next first
  rw [perform_streamPixels idle (onLink_next begun).1] at h
  cases h
  obtain failed | ⟨draws, whole⟩ := sending_reports told
  · cases failed
  · rw [whole] at told ⊢
    rw [streaming_tx told, framesBytes_streamFrames, List.append_assoc, List.range_eq_range']
    rfl

/-- Settles O32: what a stream has sent is read off the loop; the lengths all follow from `lt_chunkCount_iff`. -/
theorem chunkLaw : Obligations.ChunkLaw := by
  refine ⟨fun _ _ _ => perform_streamPixels_tx, fun cfg buffer => ⟨?count, framesBytes_streamFrames_length cfg buffer,
    flatMap_chunkOf_all buffer, fun j more => ?whole, fun nonempty => ?last⟩, by decide, by decide⟩
  case count => simp [streamFrames, Nat.add_comm]
  case whole =>
    have later := lt_chunkCount_iff.mp more
    rw [Nat.succ_mul] at later
    rw [chunkOf_length]
    omega
  case last =>
    have ends := le_chunkCount_mul buffer.length
    obtain ⟨k, count⟩ := Nat.exists_eq_add_of_le' (chunkCount_pos nonempty)
    rw [count, Nat.succ_mul] at ends
    rw [chunkOf_length, count, Nat.add_sub_cancel]
    omega

/-! ### PACK_PIXEL (R103, R104) -/

section Pack

variable {r g b : Channel} {s : State}

theorem channelValue_nat (n : Nat) : channelValue (.int n) = .ok n := rfl

/-- A negative integer and a float are refused by name (D24, D10). -/
theorem channelValue_refused {c : Channel} {refusal : Refusal} (h : channelRefusal c = some refusal) :
    channelValue c = .error refusal := by
  cases c with
  | int z =>
    rw [channelRefusal] at h
    split at h
    · next negative => cases h; exact if_pos negative
    · cases h
  | float m e => cases h; rfl

theorem channelValue_accepted {c : Channel} (h : channelRefusal c = none) : ∃ n, channelValue c = .ok n := by
  cases c with
  | int z =>
    rw [channelRefusal] at h
    split at h
    · cases h
    · next natural => exact ⟨_, if_neg natural⟩
  | float m e => cases h

theorem exec_packPixel (idle : s.busy = none) :
    exec (.packPixel r g b) s = accept (packPixel r g b) fun bs => .next (answered (.ok (.bytes bs)) s) :=
  whenIdle_idle idle _

/-- Three naturals are masked and packed. -/
theorem packPixel_nat (r g b : Nat) : packPixel (.int r) (.int g) (.int b) = .ok (pixel (r % 32) (g % 64) (b % 32)) := by
  simp only [packPixel, channelValue_nat, pixelBytes, pixelValue_eq]
  rfl

/-- The first refused channel from the left names the refusal. -/
theorem packPixel_refused {refusal : Refusal}
    (h : (channelRefusal r).or ((channelRefusal g).or (channelRefusal b)) = some refusal) :
    packPixel r g b = .error refusal := by
  cases hr : channelRefusal r with
  | some e =>
    rw [hr] at h
    cases h
    simp only [packPixel, channelValue_refused hr]
  | none =>
    obtain ⟨_, vr⟩ := channelValue_accepted hr
    rw [hr, Option.none_or] at h
    cases hg : channelRefusal g with
    | some e =>
      rw [hg] at h
      cases h
      simp only [packPixel, vr, channelValue_refused hg]
    | none =>
      obtain ⟨_, vg⟩ := channelValue_accepted hg
      rw [hg, Option.none_or] at h
      simp only [packPixel, vr, vg, channelValue_refused h]

theorem exec_packPixel_refused {refusal : Refusal} (idle : s.busy = none)
    (h : (channelRefusal r).or ((channelRefusal g).or (channelRefusal b)) = some refusal) :
    exec (.packPixel r g b) s = .refused refusal := by
  rw [exec_packPixel idle, packPixel_refused h]
  rfl

end Pack

/-- Settles O33: each refusal is the one of the first refused channel. -/
theorem packPixel : Obligations.PackPixel := by
  refine ⟨fun r g b s idle => ?packed, fun r g b s idle negative => ?negative, fun m e x y s idle => ⟨?_, ?_, ?_⟩,
    fun r g b refusal s idle => exec_packPixel_refused idle⟩
  case packed =>
    rw [exec_packPixel idle, packPixel_nat]
    rfl
  case negative =>
    refine exec_packPixel_refused idle ?_
    by_cases hr : r < 0
    · simp [channelRefusal, hr]
    by_cases hg : g < 0
    · simp [channelRefusal, hr, hg]
    · have hb : b < 0 := (negative.resolve_left hr).resolve_left hg
      simp [channelRefusal, hr, hg, hb]
  all_goals exact exec_packPixel_refused idle rfl

end Sys2Proof.PixelLaws

/-! PROOFS of the family of spec/43_status_codec.md: the length law (O34), `DECODE_STATUS` whole in every build (O35), the reserved
bits (O36) and `READ_STATUS` whole (O37).

What the decoder gives is read off the layout split at one segment: `unpackBits_append` says what `Unpack` does with the segments
before and behind it, and `segments_perm` that an admissible layout names each field once, at its width. A read is taken to its end by
`settle_receiving`, the decode behind it by `settle_decode`. -/

namespace Sys2Proof.StatusLaws

open Machine Claims Scope EncodingLaws
open TransportLaws (perform_sending)

/-! ### The bits of an image (R62) -/

theorem getElem_bitsOfByte (b : Byte) {i : Nat} (h : i < (bitsOfByte b).length) : (bitsOfByte b)[i] = b.getLsbD (7 - i) := by
  have inside : i < 8 := h
  interval_cases i <;> rfl

theorem bitAt_cons_of_lt (b : Byte) (bs : Bytes) {pos : Nat} (h : pos < 8) : bitAt (b :: bs) pos = b.getLsbD (7 - pos) := by
  rw [bitAt, Nat.div_eq_of_lt h, Nat.mod_eq_of_lt h, List.getD_cons_zero]

theorem bitAt_cons_add (b : Byte) (bs : Bytes) (pos : Nat) : bitAt (b :: bs) (pos + 8) = bitAt bs pos := by
  rw [bitAt, bitAt, Nat.add_div_right _ (by decide), Nat.add_mod_right, List.getD_cons_succ]

theorem getElem_bitsOfBytes (bs : Bytes) {pos : Nat} (h : pos < (bitsOfBytes bs).length) :
    (bitsOfBytes bs)[pos] = bitAt bs pos := by
  induction bs generalizing pos with
  | nil => exact absurd h (Nat.not_lt_zero _)
  | cons b bs ih =>
    simp only [bitsOfBytes_cons, List.getElem_append]
    by_cases front : pos < (bitsOfByte b).length
    · rw [dif_pos front, getElem_bitsOfByte, bitAt_cons_of_lt b bs front]
    · obtain ⟨k, rfl⟩ := Nat.exists_eq_add_of_le' (Nat.not_lt.mp front)
      rw [dif_neg front, ih]
      exact (bitAt_cons_add b bs k).symm

/-- The bits a segment covers. -/
theorem take_drop_bitsOfBytes {bs : Bytes} {pos w : Nat} (fits : pos + w ≤ 8 * bs.length) :
    ((bitsOfBytes bs).drop pos).take w = (List.range w).map fun i => bitAt bs (pos + i) := by
  refine List.ext_getElem (by simp; omega) fun i _ _ => ?_
  simp [getElem_bitsOfBytes]

theorem natOfBits_segment {bs : Bytes} {pos w : Nat} (fits : pos + w ≤ 8 * bs.length) :
    natOfBits (((bitsOfBytes bs).drop pos).take w) = valueAt bs pos w := by
  rw [take_drop_bitsOfBytes fits, natOfBits, List.foldl_map, valueAt]

theorem natOfBits_ne_zero {bits : List Bool} : natOfBits bits ≠ 0 ↔ true ∈ bits := by
  induction bits with
  | nil => simp
  | cons b bits ih =>
    rw [natOfBits_cons, List.mem_cons, ← ih]
    cases b <;> simp

theorem segment_ne_zero {bs : Bytes} {pos w : Nat} (fits : pos + w ≤ 8 * bs.length) :
    natOfBits (((bitsOfBytes bs).drop pos).take w) ≠ 0 ↔ ∃ j < w, bitAt bs (pos + j) = true := by
  rw [natOfBits_ne_zero, take_drop_bitsOfBytes fits]
  simp

theorem valueAt_congr {a b : Bytes} {pos w : Nat} (same : ∀ j < w, bitAt a (pos + j) = bitAt b (pos + j)) :
    valueAt a pos w = valueAt b pos w :=
  List.foldl_ext _ _ _ fun _ j hj => by rw [same j (List.mem_range.mp hj)]

/-! ### `Unpack` at one segment of a layout (R62) -/

section Unpack

variable {ν : Type}

theorem layoutWidth_append (front behind : Layout ν) :
    layoutWidth (front ++ behind) = layoutWidth front + layoutWidth behind := by
  simp [layoutWidth]

theorem namedSegments_append (front behind : Layout ν) :
    namedSegments (front ++ behind) = namedSegments front ++ namedSegments behind := List.filterMap_append

/-- The loop over a layout in two parts: the second goes on where the first has stopped. -/
theorem unpackBits_append (front behind : Layout ν) (bits : List Bool) :
    unpackBits (front ++ behind) bits =
      ((unpackBits front bits).1 ++ (unpackBits behind (bits.drop (layoutWidth front))).1,
        (unpackBits front bits).2 || (unpackBits behind (bits.drop (layoutWidth front))).2) := by
  induction front generalizing bits with
  | nil => rfl
  | cons segment front ih =>
    obtain ⟨name, w⟩ := segment
    cases name <;> simp [unpackBits, ih, List.drop_drop, Bool.or_assoc]

theorem unpackBits_names (layout : Layout ν) (bits : List Bool) :
    (unpackBits layout bits).1.map Prod.fst = (namedSegments layout).map Prod.fst := by
  induction layout generalizing bits with
  | nil => rfl
  | cons segment layout ih =>
    obtain ⟨name, w⟩ := segment
    cases name with
    | none => exact ih _
    | some f => exact congrArg (f :: ·) (ih _)

/-- The value under a name that stands before in no segment. -/
theorem fieldOf_unpackBits [DecidableEq ν] {before after : Layout ν} {f : ν} {w : Nat} (bits : List Bool)
    (first : f ∉ (namedSegments before).map Prod.fst) :
    fieldOf (unpackBits (before ++ (some f, w) :: after) bits).1 f =
      natOfBits ((bits.drop (layoutWidth before)).take w) := by
  have found : (unpackBits (before ++ (some f, w) :: after) bits).1.lookup f =
      some (natOfBits ((bits.drop (layoutWidth before)).take w)) := by
    rw [unpackBits_append, List.lookup_eq_some_iff]
    refine ⟨_, _, rfl, fun x hx => bne_iff_ne.mpr ?_⟩
    rintro rfl
    rw [← unpackBits_names before bits] at first
    exact first (List.mem_map_of_mem hx)
  rw [fieldOf, found, Option.getD_some]

/-- The pad bit: some segment without a name is not 0. -/
theorem unpackBits_pad {layout : Layout ν} {bits : List Bool} :
    (unpackBits layout bits).2 = true ↔
      ∃ before w after, layout = before ++ (none, w) :: after ∧
        natOfBits ((bits.drop (layoutWidth before)).take w) ≠ 0 := by
  constructor
  · intro set
    induction layout generalizing bits with
    | nil => cases set
    | cons segment layout ih =>
      obtain ⟨name, w⟩ := segment
      have later (set : (unpackBits layout (bits.drop w)).2 = true) :
          ∃ before v after, (name, w) :: layout = before ++ (none, v) :: after ∧
            natOfBits ((bits.drop (layoutWidth before)).take v) ≠ 0 := by
        obtain ⟨before, v, after, split, nonzero⟩ := ih set
        refine ⟨(name, w) :: before, v, after, by rw [split]; rfl, ?_⟩
        rwa [layoutWidth_cons, ← List.drop_drop]
      cases name with
      | some f => exact later set
      | none =>
        rcases (Bool.or_eq_true _ _).mp set with here | behind
        · exact ⟨[], w, layout, rfl, bne_iff_ne.mp here⟩
        · exact later behind
  · rintro ⟨before, w, after, rfl, nonzero⟩
    rw [unpackBits_append]
    have here : (natOfBits ((bits.drop (layoutWidth before)).take w) != 0) = true := bne_iff_ne.mpr nonzero
    simp [unpackBits, here]

end Unpack

/-! ### Admissible layouts (R61) -/

/-- The width of a status field (R18). -/
def statusWidth : StatusField → Nat
  | .pixfmt => 3
  | .gamma => 3
  | _ => 1

/-- The named segments of an admissible layout, but for their order. -/
def statusSegments : List (StatusField × Nat) := statusFlags.map (·, 1) ++ [(.pixfmt, 3), (.gamma, 3)]

theorem mem_statusSegments {f : StatusField} {w : Nat} : (f, w) ∈ statusSegments ↔ w = statusWidth f := by
  cases f <;> simp [statusSegments, statusFlags, statusWidth]

section Layouts

variable (l : StatusLayout)

/-- Constraints (b) to (d) of R61: each field is named once, at its width. -/
theorem segments_perm : (namedSegments l.segments).Perm statusSegments := by
  have admissible := l.admissible
  simp only [admissibleLayout, Bool.and_eq_true, beq_iff_eq] at admissible
  obtain ⟨⟨⟨_, flags⟩, codes⟩, _⟩ := admissible
  have parts := (List.filter_append_perm (fun s => decide (s.1 ∈ statusFlags)) (namedSegments l.segments)).symm
  simp only [← decide_not] at parts
  rwa [flags, codes] at parts

variable {l}

theorem segment_width {before after : Layout StatusField} {f : StatusField} {w : Nat}
    (split : l.segments = before ++ (some f, w) :: after) : w = statusWidth f := by
  rw [← mem_statusSegments, ← (segments_perm l).mem_iff, split, namedSegments_append]
  exact List.mem_append_right _ List.mem_cons_self

/-- A name stands in one segment only. -/
theorem segment_first {before after : Layout StatusField} {f : StatusField} {w : Nat}
    (split : l.segments = before ++ (some f, w) :: after) : f ∉ (namedSegments before).map Prod.fst := by
  have once : ((namedSegments l.segments).map Prod.fst).Nodup :=
    ((segments_perm l).map Prod.fst).nodup_iff.mpr (by decide)
  rw [split, namedSegments_append, List.map_append, List.nodup_append] at once
  exact fun early => once.2.2 f early f List.mem_cons_self rfl

theorem segment_fits {before after : Layout StatusField} {name : Option StatusField} {w : Nat} {bs : Bytes}
    (split : l.segments = before ++ (name, w) :: after) (len : bs.length = 5) :
    layoutWidth before + w ≤ 8 * bs.length := by
  have width := l.width
  rw [split, layoutWidth_append, layoutWidth_cons] at width
  rw [len]
  exact le_trans (by omega) width.le

variable (l)

theorem exists_segment (f : StatusField) :
    ∃ before after, l.segments = before ++ (some f, statusWidth f) :: after := by
  have named : (f, statusWidth f) ∈ namedSegments l.segments :=
    (segments_perm l).mem_iff.mpr (mem_statusSegments.mpr rfl)
  obtain ⟨⟨name, w⟩, member, same⟩ := List.mem_filterMap.mp named
  cases name with
  | none => cases same
  | some g =>
    cases same
    exact List.append_of_mem member

/-- Constraint (e) of R61 leaves room for a reserved bit. -/
theorem exists_reserved : ∃ before w after, l.segments = before ++ (none, w) :: after ∧ 0 < w := by
  have admissible := l.admissible
  simp only [admissibleLayout, Bool.and_eq_true, beq_iff_eq] at admissible
  have reserved := admissible.2
  by_contra none_wide
  have empty : layoutWidth (l.segments.filter fun s => s.1.isNone) = 0 := by
    refine List.sum_eq_zero fun v hv => ?_
    obtain ⟨⟨name, w⟩, member, rfl⟩ := List.mem_map.mp hv
    obtain ⟨member, unnamed⟩ := List.mem_filter.mp member
    obtain ⟨before, after, split⟩ := List.append_of_mem member
    obtain rfl : name = none := Option.isNone_iff_eq_none.mp unnamed
    exact Nat.eq_zero_of_not_pos fun wide => none_wide ⟨before, w, after, split, wide⟩
  rw [empty] at reserved
  cases reserved

end Layouts

/-! ### The view and the pad bit of an image (R120) -/

theorem viewField_ofValues (v : StatusField → Nat) (f : StatusField) :
    viewField (StatusView.ofValues v) f = v f % 2 ^ statusWidth f := by
  cases f <;> exact BitVec.toNat_ofNat _ _

theorem ofValues_viewField (v : StatusView) : StatusView.ofValues (viewField v) = v := by
  cases v
  simp [StatusView.ofValues, viewField]

theorem view_ext {v u : StatusView} (same : ∀ f, viewField v f = viewField u f) : v = u := by
  rw [← ofValues_viewField v, ← ofValues_viewField u, funext same]

/-- The view of an image under a layout. -/
def viewOf (l : StatusLayout) (bs : Bytes) : StatusView :=
  StatusView.ofValues (fieldOf (unpackBits l.segments (bitsOfBytes bs)).1)

/-- Whether a reserved bit of an image is 1 under a layout. -/
def padOf (l : StatusLayout) (bs : Bytes) : Bool := (unpackBits l.segments (bitsOfBytes bs)).2

section Image

variable {cfg : Params} {l : StatusLayout} {bs : Bytes}

theorem statusDecode_wrongLength (len : bs.length ≠ 5) : statusDecode cfg bs = none :=
  (statusDecode_eq cfg bs).trans (if_neg len)

theorem statusDecode_image (len : bs.length = 5) :
    statusDecode cfg bs = if cfg.statusPadMbz = true ∧ padOf cfg.statusLayout bs = true then none
      else some (viewOf cfg.statusLayout bs, padOf cfg.statusLayout bs) := by
  rw [statusDecode_eq, if_pos (show bs.length = Config.statusLen from len)]
  simp only [Bool.and_eq_true]
  rfl

theorem statusDecode_lenient (lenient : cfg.statusPadMbz = false) (len : bs.length = 5) :
    statusDecode cfg bs = some (viewOf cfg.statusLayout bs, padOf cfg.statusLayout bs) := by
  rw [statusDecode_image len, if_neg (by simp [lenient])]

theorem viewField_viewOf {before after : Layout StatusField} {f : StatusField} {w : Nat} (len : bs.length = 5)
    (split : l.segments = before ++ (some f, w) :: after) :
    viewField (viewOf l bs) f = valueAt bs (layoutWidth before) w := by
  have small : natOfBits (((bitsOfBytes bs).drop (layoutWidth before)).take w) < 2 ^ w :=
    (natOfBits_lt _).trans_le (Nat.pow_le_pow_right (by decide) (List.length_take_le _ _))
  rw [viewOf, viewField_ofValues, split, fieldOf_unpackBits _ (segment_first split), ← segment_width split,
    Nat.mod_eq_of_lt small, natOfBits_segment (segment_fits split len)]

theorem padOf_iff (len : bs.length = 5) :
    padOf l bs = true ↔ ∃ before w after j, l.segments = before ++ (none, w) :: after ∧ j < w ∧
      bitAt bs (layoutWidth before + j) = true := by
  rw [padOf, unpackBits_pad]
  constructor
  · rintro ⟨before, w, after, split, nonzero⟩
    obtain ⟨j, inside, set⟩ := (segment_ne_zero (segment_fits split len)).mp nonzero
    exact ⟨before, w, after, j, split, inside, set⟩
  · rintro ⟨before, w, after, j, split, inside, set⟩
    exact ⟨before, w, after, split, (segment_ne_zero (segment_fits split len)).mpr ⟨j, inside, set⟩⟩

/-- Two images with the same named bits have the same view (R121). -/
theorem viewOf_congr {a b : Bytes} (lenA : a.length = 5) (lenB : b.length = 5)
    (same : ∀ before f w after, l.segments = before ++ (some f, w) :: after →
      ∀ j < w, bitAt a (layoutWidth before + j) = bitAt b (layoutWidth before + j)) : viewOf l a = viewOf l b := by
  refine view_ext fun f => ?_
  obtain ⟨before, after, split⟩ := exists_segment l f
  rw [viewField_viewOf lenA split, viewField_viewOf lenB split, valueAt_congr (same _ _ _ _ split)]

end Image

/-! ### The two uniform images (R120) -/

section Uniform

variable {l : StatusLayout} {bs : Bytes} {b : Bool}

theorem length_of_uniform (uniform : bitsOfBytes bs = List.replicate 40 b) : bs.length = 5 := by
  have len := congrArg List.length uniform
  rw [bitsOfBytes_length, List.length_replicate] at len
  omega

theorem bitAt_uniform (uniform : bitsOfBytes bs = List.replicate 40 b) {pos : Nat} (inside : pos < 8 * bs.length) :
    bitAt bs pos = b := by
  rw [← getElem_bitsOfBytes bs (by rwa [bitsOfBytes_length])]
  simp only [uniform, List.getElem_replicate]

theorem viewField_uniform (uniform : bitsOfBytes bs = List.replicate 40 b) (f : StatusField) :
    viewField (viewOf l bs) f = if b then 2 ^ statusWidth f - 1 else 0 := by
  have len := length_of_uniform uniform
  obtain ⟨before, after, split⟩ := exists_segment l f
  have fits := segment_fits split len
  rw [viewField_viewOf len split, ← natOfBits_segment fits, uniform, List.drop_replicate, List.take_replicate,
    Nat.min_eq_left (by omega), natOfBits_replicate]

theorem padOf_uniform (uniform : bitsOfBytes bs = List.replicate 40 b) : padOf l bs = b := by
  have len := length_of_uniform uniform
  rw [Bool.eq_iff_iff, padOf_iff len]
  constructor
  · rintro ⟨before, w, after, j, split, inside, set⟩
    have fits := segment_fits split len
    rwa [bitAt_uniform uniform (by omega)] at set
  · intro ones
    obtain ⟨before, w, after, split, wide⟩ := exists_reserved l
    have fits := segment_fits split len
    exact ⟨before, w, after, 0, split, wide, (bitAt_uniform uniform (by omega)).trans ones⟩

end Uniform

/-! ### DECODE_STATUS (R120, R121, R125) -/

section Decode

variable {cfg : Params} {bs : Bytes} {s : State}

theorem statusAnswer_malformed (malformed : statusDecode cfg bs = none) :
    statusAnswer cfg bs s = answered (.err .malformedRegister) s := by
  simp only [statusAnswer, malformed]

theorem statusAnswer_decoded {view : StatusView} {pad : Bool} (decoded : statusDecode cfg bs = some (view, pad)) :
    statusAnswer cfg bs s = answered (.ok (.status view)) { s with diagStatusPad := if pad then 1 else 0 } := by
  simp only [statusAnswer, decoded]

theorem exec_decodeStatus (idle : s.busy = none) :
    exec (.decodeStatus bs) s = .next (statusAnswer Config.params bs s) :=
  (whenIdle_idle idle _).trans (congrArg _ (decodeStatus_host _ _ _))

/-- The end of a decode does not see which operation is in progress. -/
theorem statusAnswer_busy (p : Option Progress) : statusAnswer cfg bs { s with busy := p } = statusAnswer cfg bs s := by
  unfold statusAnswer
  cases statusDecode cfg bs <;> rfl

theorem statusAnswer_idle : (statusAnswer cfg bs s).busy = none := by
  unfold statusAnswer
  cases statusDecode cfg bs <;> rfl

/-- The steps left of a status read whose answer has been taken. -/
theorem settle_decode (fuel : Nat) :
    settle cfg (fuel + 1) { s with busy := some (.decode bs .host) } = .next (statusAnswer cfg bs s) := by
  rw [settle_busy cfg fuel (p := .decode bs .host) rfl nofun, resume, decodeStatus_host, statusAnswer_busy]
  exact settle_ended _ _ (.inl statusAnswer_idle)

end Decode

/-! ### A link read and what follows it (R37) -/

section Receiving

variable {n : Nat} {s : State} {full : Bytes → State → State} {short : State → State}

theorem receiving_eq (n : Nat) (s : State) (full : Bytes → State → State) (short : State → State) :
    receiving n s full short =
      if (linkRead n s).1.length < n then short (linkRead n s).2 else full (linkRead n s).1 (linkRead n s).2 := by
  by_cases none_asked : n = 0
  · rw [none_asked]
    rfl
  obtain ⟨d, draws, drawn⟩ := drawRead_cases s
  simp only [receiving, linkRead, if_neg none_asked, drawn, List.length_take]
  split
  · rw [← List.drop_eq_drop_min]
  · next enough =>
    have all : min d.count n = n := by omega
    rw [all]

theorem linkRead_busy (n : Nat) (s : State) (p : Option Progress) :
    linkRead n { s with busy := p } = ((linkRead n s).1, { (linkRead n s).2 with busy := p }) := by
  unfold linkRead drawRead
  by_cases none_asked : n = 0
  · rw [if_pos none_asked, if_pos none_asked]
  · rw [if_neg none_asked, if_neg none_asked]
    cases s.draws.reads <;> rfl

/-- A link read does not see which operation is in progress; nor does what follows it, when neither end of it does. -/
theorem receiving_busy {p : Option Progress} (hfull : ∀ bs t, full bs { t with busy := p } = full bs t)
    (hshort : ∀ t : State, short { t with busy := p } = short t) :
    receiving n { s with busy := p } full short = receiving n s full short := by
  simp only [receiving_eq, linkRead_busy, hfull, hshort]

/-- The steps left after a link read: a short answer ends the operation, and after a full one it is what those steps make of it. -/
theorem settle_receiving {cfg : Params} {fuel : Nat} {after : Bytes → State → State} (ends : ∀ u, (short u).busy = none)
    (goes : ∀ bs u, settle cfg fuel (full bs u) = .next (after bs u)) :
    settle cfg fuel (receiving n s full short) = .next (receiving n s after short) := by
  rw [receiving_eq, receiving_eq]
  split
  · exact settle_ended _ _ (.inl (ends _))
  · exact goes _ _

end Receiving

/-! ### READ_STATUS (R123) -/

section Read

variable {s : State} {command : Byte} {n : Nat}

/-- The header of a read whose size is accepted, whoever it is for. -/
theorem beginRead_fits (whom : ReadFor) (fits : n ≤ Config.maxChunk) (handle : s.handleOpen = true) :
    beginRead command n whom s =
      .next (sending (readFrame command n) s (fun t => { t with busy := some (.respond n whom) })
        (failRead whom .transportError)) := by
  rw [beginRead, if_neg (Nat.not_lt.mpr fits), onLink_open handle, startRead, requestRead_fits _ _ fits,
    afterWrite_linkWrite]
  rfl

/-- The second step of a status read: the decode is next, unless the answer is short. -/
theorem takeAnswer_status (n : Nat) (whom : StatusFor) (s : State) :
    takeAnswer n (.status whom) s =
      receiving n s (fun bs t => { t with busy := some (.decode bs whom) }) (failRead (.status whom) .shortRead) := by
  rw [receiving_eq]
  rfl

/-- The steps left of a `READ_STATUS` whose header has been sent: the read, then the decode. -/
theorem settle_readStatus (cfg : Params) (fuel : Nat) (waits : s.busy = some (.respond n (.status .host)))
    (handle : s.handleOpen = true) :
    settle cfg (fuel + 2) s = .next (receiving n s (statusAnswer cfg) (answered (.err .shortRead))) := by
  rw [settle_busy cfg _ waits nofun, resume, onLink_open handle, takeAnswer_status]
  exact settle_receiving (fun _ => rfl) fun _ _ => settle_decode fuel

/-- The read and the decode of a `READ_STATUS` do not see which operation is in progress. -/
theorem receiving_status_busy (cfg : Params) (n : Nat) (s : State) (p : Option Progress) :
    receiving n { s with busy := p } (statusAnswer cfg) (answered (.err .shortRead)) =
      receiving n s (statusAnswer cfg) (answered (.err .shortRead)) :=
  receiving_busy (fun _ _ => statusAnswer_busy p) fun _ => rfl

theorem exec_readStatus (idle : s.busy = none) (handle : s.handleOpen = true) :
    exec .readStatus s =
      .next (sending (readFrame Config.cmdRddst 5) s (fun t => { t with busy := some (.respond 5 (.status .host)) })
        (answered (.err .transportError))) :=
  (whenIdle_idle idle _).trans (beginRead_fits (.status .host) (by decide) handle)

theorem perform_readStatus (idle : s.busy = none) (handle : s.handleOpen = true) :
    perform .readStatus s =
      .next (sending (readFrame Config.cmdRddst 5) s
        (fun t => receiving 5 t (statusAnswer Config.params) (answered (.err .shortRead)))
        (answered (.err .transportError))) :=
  perform_sending (exec_readStatus idle handle) (fun _ => rfl)
    fun u still =>
      (settle_readStatus (s := { u with busy := some (.respond 5 (.status .host)) }) Config.params 5 rfl
        (still.trans handle)).trans (congrArg _ (receiving_status_busy _ _ u _))

end Read

/-! ### The statements -/

/-- Settles O34: the machine's build does not reject a reserved bit, so that the length alone decides. -/
theorem statusLengthLaw : Obligations.StatusLengthLaw := by
  intro bs s idle
  rw [exec_decodeStatus idle]
  exact ⟨fun len => congrArg _ (statusAnswer_malformed (statusDecode_wrongLength len)),
    fun len => ⟨_, _, congrArg _ (statusAnswer_decoded (statusDecode_lenient rfl len))⟩⟩

/-- Settles O37: the first step, and the two steps after its header by `settle_readStatus`. -/
theorem readStatus : Obligations.ReadStatus :=
  fun _ idle handle => ⟨exec_readStatus idle handle, perform_readStatus idle handle⟩

/-- Settles O36: the view is read from the named segments alone, the pad bit from the others. -/
theorem reservedBits : Obligations.ReservedBits := by
  refine ⟨fun cfg a b lenient lenA lenB same => ?view, fun cfg bs view pad s decoded => ?flag,
    fun cfg bs before after w j s strict len split inside set => ?rejected⟩
  case view =>
    have decodedB := statusDecode_lenient lenient lenB
    rw [← viewOf_congr lenA lenB same] at decodedB
    exact ⟨_, _, _, statusDecode_lenient lenient lenA, decodedB⟩
  case flag =>
    rw [decodeStatus_host, statusAnswer_decoded decoded]
    rfl
  case rejected =>
    have pad : padOf cfg.statusLayout bs = true := (padOf_iff len).mpr ⟨before, w, after, j, split, inside, set⟩
    rw [decodeStatus_host]
    exact statusAnswer_malformed ((statusDecode_image len).trans (if_pos ⟨strict, pad⟩))

/-- Settles O35: each field and the pad bit are read off the segments of the layout, and the uniform images by `viewField_uniform`. -/
theorem decodeStatus : Obligations.DecodeStatus := by
  refine ⟨fun _ _ => exec_decodeStatus, fun cfg => cfg.statusLayout.admissible, rfl, decodeStatus_host,
    fun cfg bs => ⟨statusDecode_wrongLength, fun len => ⟨_, _, statusDecode_image len,
      fun _ _ _ _ => viewField_viewOf len, padOf_iff len⟩⟩, fun cfg => ⟨?zeros, fun lenient => ?ones⟩⟩
  case zeros =>
    have uniform : bitsOfBytes [0, 0, 0, 0, 0] = List.replicate 40 false := rfl
    refine ⟨viewOf cfg.statusLayout _, ?_, viewField_uniform uniform⟩
    rw [statusDecode_image rfl, padOf_uniform uniform, if_neg (by simp)]
  case ones =>
    have uniform : bitsOfBytes [0xFF, 0xFF, 0xFF, 0xFF, 0xFF] = List.replicate 40 true := rfl
    refine ⟨viewOf cfg.statusLayout _, ?_, viewField_uniform uniform _, viewField_uniform uniform _, fun f flag => ?_⟩
    · rw [statusDecode_lenient lenient rfl, padOf_uniform uniform]
    · have one : statusWidth f = 1 := by
        revert f
        decide
      rw [viewField_uniform uniform, one]
      rfl

end Sys2Proof.StatusLaws

/-! PROOFS of the family of spec/44_gamma_codec.md: `GAMMA_DECODE` and `GAMMA_ENCODE` whole (O38, O39), the round trip of tables
(O40), and the round trip of images and of a file through a load and a push (O41).

Tables come back by `unpackBits_packedBits`, images byte by byte: a byte holds one field at its low end or one in each half, and its
mask is the ones of those fields. `LOAD_CAL` and a `PUSH` in `Custom` mode are taken to their ends once, by `perform_loadCal` and
`perform_push_custom`. -/

namespace Sys2Proof.GammaLaws

open Machine Claims Scope StateLaws MemoryLaws EncodingLaws
open TransportLaws (eq_of_append_singleton sending_cases exec_of_perform perform_ended)
open PixelLaws (settle_sending sending_busy)

/-! ### GAMMA_DECODE (R135) -/

section Decode

variable {bs : Bytes} {s : State}

theorem exec_gammaDecode (idle : s.busy = none) : exec (.gammaDecode bs) s = .next (answered (tableAnswer bs) s) :=
  (whenIdle_idle idle _).trans (congrArg _ (decodeTable_eq_answered bs s))

theorem gammaDecode_wrongLength (len : bs.length ≠ 14) : gammaDecode bs = none := if_neg len

theorem gammaDecode_image (len : bs.length = 14) :
    gammaDecode bs = some (GammaTable.ofValues (fieldOf (unpackBits gammaLayout (bitsOfBytes bs)).1)) := by
  have width : layoutWidth gammaLayout = 8 * bs.length := by
    rw [len]
    rfl
  rw [gammaDecode, if_pos (show bs.length = Config.gammaLen from len), unpack, if_pos width, Option.map_some]

theorem gammaDecode_isSome : (gammaDecode bs).isSome = true ↔ bs.length = 14 := by
  by_cases len : bs.length = 14
  · simp [gammaDecode_image len, len]
  · simp [gammaDecode_wrongLength len, len]

end Decode

/-! ### GAMMA_ENCODE (R136) -/

section Encode

variable {table : GammaRecord Int} {s : State}

theorem mem_gammaFields (f : GammaField) : f ∈ gammaFields := by
  cases f <;> decide

theorem tableValues_accepted (natural : ∀ f, 0 ≤ recordGet table f) :
    tableValues table = .ok fun f => (recordGet table f).toNat :=
  if_neg (by simpa using fun f _ => natural f)

/-- The refusal of D24. -/
theorem tableValues_negative {f : GammaField} (negative : recordGet table f < 0) :
    tableValues table = .error .negativeField :=
  if_pos (List.any_eq_true.mpr ⟨f, mem_gammaFields f, decide_eq_true negative⟩)

theorem exec_gammaEncode (idle : s.busy = none) :
    exec (.gammaEncode table) s =
      accept (tableValues table) fun v => .next (answered (.ok (.bytes (gammaEncode v))) s) :=
  whenIdle_idle idle _

end Encode

/-! ### The round trip of tables (R137) -/

section Tables

variable {v : GammaField → Nat}

theorem bitsOfBytes_gammaEncode : bitsOfBytes (gammaEncode v) = packedBits gammaLayout v := by
  rw [gammaEncode_eq_bytesOfTable, bitsOfBytes_bytesOfTable]

/-- The layout names each field once, at its width (R12, R60). -/
theorem namedSegments_gammaLayout : namedSegments gammaLayout = gammaFields.map fun f => (f, gammaWidth f) := rfl

/-- What `Unpack` reads from what `Pack` wrote: each field masked to its width. -/
theorem fieldOf_packedBits (f : GammaField) :
    fieldOf (unpackBits gammaLayout (packedBits gammaLayout v)).1 f = v f % 2 ^ gammaWidth f := by
  have read : ((namedSegments gammaLayout).map fun s => (s.1, v s.1 % 2 ^ s.2)).lookup f = some (v f % 2 ^ gammaWidth f) := by
    rw [namedSegments_gammaLayout, List.map_map]
    exact List.lookup_graph (fun f => v f % 2 ^ gammaWidth f) (mem_gammaFields f)
  rw [unpackBits_packedBits, fieldOf, read, Option.getD_some]

theorem gammaDecode_gammaEncode (v : GammaField → Nat) : gammaDecode (gammaEncode v) = some (GammaTable.ofValues v) := by
  rw [gammaDecode_image (gammaEncode_length v), bitsOfBytes_gammaEncode, Option.some_inj]
  refine GammaTable.ext_get fun f => ?_
  rw [GammaTable.get_ofValues, GammaTable.get_ofValues, fieldOf_packedBits, Nat.mod_mod]

theorem ofValues_get (t : GammaTable) : GammaTable.ofValues t.get = t := by
  refine GammaTable.ext_get fun f => ?_
  rw [GammaTable.get_ofValues, Nat.mod_eq_of_lt (t.get_lt f)]

end Tables

/-! ### The round trip of images (R71, R138) -/

/-- A byte with one field, at its low end: decoded and encoded again, it is the byte under the mask of the field. -/
theorem ofNat_field (b : Byte) (k : Nat) :
    BitVec.ofNat 8 ((b.extractLsb' 0 k).toNat % 2 ^ k) = b &&& BitVec.ofNat 8 (2 ^ k - 1) := by
  refine BitVec.eq_of_getLsbD_eq fun i hi => ?_
  simp only [BitVec.getLsbD_ofNat, BitVec.getLsbD_and, Nat.testBit_mod_two_pow, Nat.testBit_two_pow_sub_one,
    BitVec.testBit_toNat, BitVec.getLsbD_extractLsb', Nat.zero_add]
  by_cases inside : i < k <;> simp [inside, hi]

/-- The bits of a number from its two halves of four bits. -/
theorem testBit_halves (x : Nat) {y : Nat} (hy : y < 16) (i : Nat) :
    (x * 16 + y).testBit i = if i < 4 then y.testBit i else x.testBit (i - 4) := by
  rw [Nat.mul_comm]
  exact Nat.testBit_two_pow_mul_add x (i := 4) hy i

/-- A byte with one field at the low end of each half: decoded and encoded again, it is the byte under the mask of the two. -/
theorem ofNat_fields (b : Byte) (k k' : Nat) (h : k' ≤ 4) :
    BitVec.ofNat 8 ((b.extractLsb' 4 k).toNat % 2 ^ k * 16 + (b.extractLsb' 0 k').toNat % 2 ^ k') =
      b &&& BitVec.ofNat 8 ((2 ^ k - 1) * 16 + (2 ^ k' - 1)) := by
  have fits : 2 ^ k' ≤ 2 ^ 4 := Nat.pow_le_pow_right Nat.two_pos h
  have low (x : Nat) : x % 2 ^ k' < 16 := (Nat.mod_lt x (Nat.two_pow_pos k')).trans_le fits
  have ones : 2 ^ k' - 1 < 16 := by omega
  refine BitVec.eq_of_getLsbD_eq fun i hi => ?_
  simp only [BitVec.getLsbD_ofNat, BitVec.getLsbD_and, testBit_halves _ (low _), testBit_halves _ ones,
    Nat.testBit_mod_two_pow, Nat.testBit_two_pow_sub_one, BitVec.testBit_toNat, BitVec.getLsbD_extractLsb', Nat.zero_add]
  by_cases lowHalf : i < 4
  · by_cases inside : i < k' <;> simp [lowHalf, inside, hi]
  · have position : 4 + (i - 4) = i := by omega
    by_cases inside : i - 4 < k <;> simp [lowHalf, inside, hi, position]

/-- The padding of an image reads as 0 in what comes back, and nothing else changes (R138). -/
theorem gammaEncode_decoded {bs : Bytes} {t : GammaTable} (decoded : gammaDecode bs = some t) :
    gammaEncode t.get = List.zipWith (· &&& ·) bs gammaFieldMask := by
  rw [gammaDecode_eq_tableOfBytes] at decoded
  rw [gammaEncode_eq_bytesOfTable]
  unfold tableOfBytes at decoded
  split at decoded
  · next b0 b1 b2 b3 b4 b5 b6 b7 b8 b9 b10 b11 b12 b13 =>
    cases decoded
    simp only [bytesOfTable, gammaFieldMask, List.zipWith_cons_cons, List.zipWith_nil_left, List.cons.injEq]
    exact ⟨ofNat_fields b0 4 4 (by decide), ofNat_field b1 6, ofNat_field b2 6, ofNat_field b3 5, ofNat_field b4 5,
      ofNat_fields b5 2 4 (by decide), ofNat_field b6 7, ofNat_fields b7 3 3 (by decide), ofNat_field b8 7,
      ofNat_fields b9 2 4 (by decide), ofNat_field b10 5, ofNat_field b11 5, ofNat_field b12 6, ofNat_field b13 6, trivial⟩
  · cases decoded

/-- A byte lies under a mask exactly when its bits outside the mask are 0. -/
theorem and_eq_self_iff (b m : Byte) : b &&& m = b ↔ b &&& ~~~m = 0 := by
  have parts : (b &&& m) ^^^ b = b &&& ~~~m := by
    refine BitVec.eq_of_getLsbD_eq fun i hi => ?_
    simp only [BitVec.getLsbD_xor, BitVec.getLsbD_and, BitVec.getLsbD_not, hi]
    cases b.getLsbD i <;> cases m.getLsbD i <;> rfl
  rw [← parts]
  exact BitVec.xor_eq_zero_iff.symm

/-- The same of every byte of an image, each under its own mask. -/
theorem zipWith_and_eq_self_iff {bs mask : Bytes} (len : bs.length = mask.length) :
    List.zipWith (· &&& ·) bs mask = bs ↔ ∀ j < bs.length, bs.getD j 0 &&& ~~~(mask.getD j 0) = 0 := by
  induction bs generalizing mask with
  | nil => simp
  | cons b bs ih =>
    cases mask with
    | nil => cases len
    | cons m mask =>
      rw [List.zipWith_cons_cons, List.cons.injEq, and_eq_self_iff, ih (Nat.succ.inj len), List.length_cons,
        Nat.forall_lt_succ_left]
      rfl

/-! ### LOAD_CAL (R156) -/

section Load

variable {p : Polarity} {s t : State} {bs : Bytes} {table : GammaTable}

theorem loaded_failed (drawn : drawNvsRead s = (.failed, t)) : loaded p s = (.err .fileAccessError, t) := by
  simp only [loaded, drawn]

theorem loaded_absent (drawn : drawNvsRead s = (.answered, t)) (absent : s.nvs.get p = none) :
    loaded p s = (.ok, { t with gt := s.gt.set p GammaTable.zero }) := by
  simp only [loaded, drawn, absent]

theorem loaded_malformed (drawn : drawNvsRead s = (.answered, t)) (file : s.nvs.get p = some bs)
    (malformed : gammaDecode bs = none) : loaded p s = (.err .malformedRegister, t) := by
  rw [gammaDecode_eq_tableOfBytes] at malformed
  simp only [loaded, drawn, file, malformed]

theorem loaded_decoded (drawn : drawNvsRead s = (.answered, t)) (file : s.nvs.get p = some bs)
    (decoded : gammaDecode bs = some table) :
    loaded p s = (.ok, { t with gt := s.gt.set p table, notified := s.notified ++ [p] }) := by
  rw [gammaDecode_eq_tableOfBytes] at decoded
  simp only [loaded, drawn, file, decoded]

/-- The second step of the host's own load, once the store has answered. -/
theorem fillBank_host {draws : Draws} (drawn : drawNvsRead s = (.answered, { s with draws := draws })) (b : Option Progress) :
    fillBank p (s.nvs.get p) .host { s with draws := draws, busy := b } =
      answered (resultOf (loaded p s).1) (loaded p s).2 := by
  rcases fillBank_cases p (s.nvs.get p) .host { s with draws := draws, busy := b } with
    ⟨absent, e⟩ | ⟨bs, file, malformed, e⟩ | ⟨bs, table, file, decoded, e⟩ <;> rw [e]
  · rw [loaded_absent drawn absent]
    rfl
  · rw [loaded_malformed drawn file malformed]
    rfl
  · rw [loaded_decoded drawn file decoded]
    rfl

/-- `LOAD_CAL` to its end: the store access, and then the bank from what the store holds. -/
theorem perform_loadCal (idle : s.busy = none) :
    perform (.loadCal p) s = .next (answered (resultOf (loaded p s).1) (loaded p s).2) := by
  have first : exec (.loadCal p) s = .next (startLoad p .host s) := whenIdle_idle idle _
  obtain ⟨d, draws, drawn⟩ := drawNvsRead_cases s
  cases d with
  | failed =>
    have failed : startLoad p .host s = answered (.err .fileAccessError) { s with draws := draws } := by
      simp only [startLoad, nvsRead, drawn]
      rfl
    rw [failed] at first
    rw [loaded_failed drawn]
    exact perform_ended first (.inl rfl)
  | answered =>
    have read : startLoad p .host s = { s with draws := draws, busy := some (.fill p (s.nvs.get p) .host) } := by
      simp only [startLoad, nvsRead, drawn]
    rw [perform_eq, first, read, onNext, stepsLeft,
      settle_busy Config.params 6 (p := .fill p (s.nvs.get p) .host) rfl nofun, resume, fillBank_host drawn]
    exact settle_ended _ _ (.inl rfl)

/-- A load that reports `Ok` for a file that decodes has put the table into the bank. -/
theorem loaded_bank (file : s.nvs.get p = some bs) (decoded : gammaDecode bs = some table) (ok : (loaded p s).1 = .ok) :
    (loaded p s).2.gt.get p = table := by
  obtain ⟨d, draws, drawn⟩ := drawNvsRead_cases s
  cases d with
  | failed =>
    rw [loaded_failed drawn] at ok
    cases ok
  | answered =>
    rw [loaded_decoded drawn file decoded]
    exact Banks.get_set_self _ _ _

/-- A load only adds its result to the history of results. -/
theorem loaded_results (p : Polarity) (s : State) : (loaded p s).2.results = s.results := by
  obtain ⟨d, draws, drawn⟩ := drawNvsRead_cases s
  cases d with
  | failed => rw [loaded_failed drawn]
  | answered =>
    rcases Option.eq_none_or_eq_some (s.nvs.get p) with absent | ⟨bs, file⟩
    · rw [loaded_absent drawn absent]
    · rcases Option.eq_none_or_eq_some (gammaDecode bs) with malformed | ⟨table, decoded⟩
      · rw [loaded_malformed drawn file malformed]
      · rw [loaded_decoded drawn file decoded]

theorem ok_of_resultOf {part : Part} (h : resultOf part = .ok .none) : part = .ok := by
  cases part with
  | ok => rfl
  | err kind => cases h

/-- A load of a file that decodes, told to have ended with `Ok`, leaves the block idle and the table in the bank. -/
theorem loadCal_fills_bank {u : State} (idle : s.busy = none) (file : s.nvs.get p = some bs)
    (decoded : gammaDecode bs = some table) (h : perform (.loadCal p) s = .next u)
    (told : u.results = s.results ++ [.ok .none]) : u.busy = none ∧ u.gt.get p = table := by
  rw [perform_loadCal idle] at h
  cases h
  have result : (loaded p s).2.results ++ [resultOf (loaded p s).1] = s.results ++ [.ok .none] := told
  rw [loaded_results] at result
  exact ⟨rfl, loaded_bank file decoded (ok_of_resultOf (eq_of_append_singleton result))⟩

end Load

/-! ### PUSH in `Custom` mode (R159) -/

section Push

variable {cfg : Params} {p : Polarity} {file : FileStatus} {image : Bytes} {s : State}

/-- The device part of a push: one frame, and the pair of R159. -/
def pushingDevice (cfg : Params) (p : Polarity) (image : Bytes) (file : FileStatus) (s : State) : State :=
  sending (writeFrame (gammaCommand cfg p) image) s (answered (.push file .ok)) (answered (.push file (.err .transportError)))

theorem endPush_gammaFrame (fits : image.length ≤ Config.maxChunk) :
    endPush file (gammaFrame cfg p image s) = pushingDevice cfg p image file s := by
  rw [endPush, gammaFrame, writeCommand_fits _ _ _ fits, afterWrite_linkWrite]
  cases p <;> rfl

/-- The device part does not see which operation is in progress. -/
theorem pushingDevice_busy (b : Option Progress) :
    pushingDevice cfg p image file { s with busy := b } = pushingDevice cfg p image file s :=
  sending_busy (fun _ => rfl) fun _ => rfl

theorem settle_pushDevice (fuel : Nat) (next : s.busy = some (.pushDevice p image file)) (handle : s.handleOpen = true)
    (fits : image.length ≤ Config.maxChunk) : settle cfg (fuel + 1) s = .next (pushingDevice cfg p image file s) := by
  rw [settle_busy cfg fuel next nofun, resume, onLink_open handle, endPush_gammaFrame fits]
  exact settle_sending (fun _ => rfl) fun _ _ => settle_ended _ _ (.inl rfl)

theorem pushingDevice_nvs : (pushingDevice cfg p image file s).nvs = s.nvs := by
  rcases sending_cases (writeFrame (gammaCommand cfg p) image) s (answered (.push file .ok))
    (answered (.push file (.err .transportError))) with ⟨_, e⟩ | ⟨_, _, e⟩ | ⟨_, _, e⟩ <;> rw [pushingDevice, e] <;> rfl

/-- The result of the device part reports what the file part did. -/
theorem pushingDevice_reports {r : Result} (told : (pushingDevice cfg p image file s).results = s.results ++ [r]) :
    ∃ device, r = .push file device := by
  rcases sending_cases (writeFrame (gammaCommand cfg p) image) s (answered (.push file .ok))
    (answered (.push file (.err .transportError))) with ⟨_, e⟩ | ⟨_, _, e⟩ | ⟨_, _, e⟩ <;> rw [pushingDevice, e] at told
  case inr.inr => exact absurd (List.self_eq_append_right.mp told) (List.cons_ne_nil _ _)
  all_goals exact ⟨_, (eq_of_append_singleton told).symm⟩

theorem storing_cases (p : Polarity) (bs : Bytes) (s : State) (next : FileStatus → State → State) :
    (∃ draws, storing p bs s next = next .ok { s with nvs := s.nvs.set p (some bs), draws := draws }) ∨
    (∃ draws left, storing p bs s next =
      next .fileAccessError { s with nvs := s.nvs.set p (leftoverFile (s.nvs.get p) bs left), draws := draws }) := by
  obtain ⟨d, draws, h⟩ := drawNvsWrite_cases s
  cases d with
  | done => exact .inl ⟨draws, by simp only [storing, h]⟩
  | failed left => exact .inr ⟨draws, left, by simp only [storing, h]⟩

/-- An operation whose first step is a store write, to its end: what the steps left make of it, whatever the store reported. -/
theorem perform_storing {i : Instr} {bs : Bytes} {next after : FileStatus → State → State}
    (first : exec i s = .next (storing p bs s next))
    (goes : ∀ file t, t.handleOpen = s.handleOpen →
      settle Config.params (stepsLeft (next file t)) (next file t) = .next (after file t)) :
    perform i s = .next (storing p bs s after) := by
  rw [perform_eq, first]
  obtain ⟨d, draws, drawn⟩ := drawNvsWrite_cases s
  cases d <;> simp only [storing, drawn] <;> exact goes _ _ rfl

theorem exec_push_custom (idle : s.busy = none) (custom : s.mode = .custom) (handle : s.handleOpen = true) :
    exec (.push p) s =
      .next (storing p (bytesOfTable (s.gt.get p).get) s fun file t =>
        { t with busy := some (.pushDevice p (bytesOfTable (s.gt.get p).get) file) }) := by
  have first : exec (.push p) s = beginPush Config.params p s := whenIdle_idle idle _
  rw [first, beginPush, custom, ← gammaEncode_eq_bytesOfTable]
  refine (onLink_open handle _).trans (congrArg _ ?_)
  obtain ⟨d, draws, drawn⟩ := drawNvsWrite_cases s
  cases d <;> simp only [pushFile, nvsWrite, storing, drawn] <;> rfl

/-- A `PUSH` in `Custom` mode to its end: the file, and then the device whatever became of the file. -/
theorem perform_push_custom (idle : s.busy = none) (custom : s.mode = .custom) (handle : s.handleOpen = true) :
    perform (.push p) s =
      .next (storing p (bytesOfTable (s.gt.get p).get) s
        (pushingDevice Config.params p (bytesOfTable (s.gt.get p).get))) := by
  have fits : (bytesOfTable (s.gt.get p).get).length ≤ Config.maxChunk := (by decide : 14 ≤ Config.maxChunk)
  refine perform_storing (exec_push_custom idle custom handle) fun file t still => ?_
  rw [← pushingDevice_busy (some (.pushDevice p (bytesOfTable (s.gt.get p).get) file))]
  exact settle_pushDevice 6 rfl (still.trans handle) fits

/-- A push in `Custom` mode that goes on has an open handle. -/
theorem handleOpen_of_push {v : State} (custom : s.mode = .custom) (h : perform (.push p) s = .next v) :
    s.handleOpen = true := by
  obtain ⟨u, first⟩ := exec_of_perform h
  have begun := (whenIdle_next first).2
  rw [beginPush, custom] at begun
  exact (onLink_next begun).1

/-- A push in `Custom` mode that reports its file write done has written the bank's image. -/
theorem push_writes_image {v : State} {device : Part} (idle : s.busy = none) (custom : s.mode = .custom)
    (h : perform (.push p) s = .next v) (told : v.results = s.results ++ [.push .ok device]) :
    v.nvs.get p = some (bytesOfTable (s.gt.get p).get) := by
  rw [perform_push_custom idle custom (handleOpen_of_push custom h)] at h
  cases h
  rcases storing_cases p (bytesOfTable (s.gt.get p).get) s
    (pushingDevice Config.params p (bytesOfTable (s.gt.get p).get)) with ⟨_, e⟩ | ⟨_, _, e⟩ <;> rw [e] at told ⊢
  · rw [pushingDevice_nvs]
    exact Banks.get_set_self _ _ _
  · obtain ⟨_, failed⟩ := pushingDevice_reports told
    cases failed

end Push

/-! ### The statements -/

/-- Settles O38: the decoder is the table read byte by byte, and 14 bytes are all that it asks for. -/
theorem gammaDecode : Obligations.GammaDecode :=
  ⟨fun _ _ => exec_gammaDecode, gammaDecode_eq_tableOfBytes, fun bs => by
    rw [← gammaDecode_eq_tableOfBytes, gammaDecode_isSome]⟩

/-- Settles O39: the operand check, and then the image written byte by byte. -/
theorem gammaEncode : Obligations.GammaEncode := by
  refine ⟨fun table s idle natural => ?_, fun table f s idle negative => ?_, gammaEncode_eq_bytesOfTable⟩
  · rw [exec_gammaEncode idle, tableValues_accepted natural, accept, gammaEncode_eq_bytesOfTable]
  · rw [exec_gammaEncode idle, tableValues_negative negative, accept]

/-- Settles O40: the decoded table holds the values masked, and the values of a table are within their widths. -/
theorem gammaTableRoundTrip : Obligations.GammaTableRoundTrip :=
  ⟨fun t => by rw [gammaDecode_gammaEncode, ofValues_get],
    fun v => ⟨_, gammaDecode_gammaEncode v, GammaTable.get_ofValues v⟩⟩

/-- Settles O41: an image comes back under its mask; a load puts its table into the bank, and the push writes the bank's image. -/
theorem gammaImageRoundTrip : Obligations.GammaImageRoundTrip := by
  unfold Obligations.GammaImageRoundTrip
  intro bs len
  refine ⟨_, gammaDecode_image len, gammaEncode_decoded (gammaDecode_image len), ?unchanged, ?stored⟩
  case unchanged =>
    rw [gammaEncode_decoded (gammaDecode_image len), ← len]
    exact zipWith_and_eq_self_iff len
  case stored =>
    rintro p s u idle file load loaded v push ⟨device, pushed⟩
    obtain ⟨ended, bank⟩ := loadCal_fills_bank idle file (gammaDecode_image len) load loaded
    rw [push_writes_image (s := { u with mode := .custom }) ended rfl push pushed, bank, ← gammaEncode_eq_bytesOfTable,
      gammaEncode_decoded (gammaDecode_image len)]

end Sys2Proof.GammaLaws

/-! PROOFS of the family of spec/45_calibration_controller.md: `LOAD_CAL` (O42), `ATTACH` (O43), `SET_FIELD` (O44), `PUSH` (O45),
`SELECT_CURVE` (O46), `ENTER_CUSTOM` (O47) and `STARTUP` (O48), each whole, and the independence of the two polarities (O49).

Two lemmas carry the composite operations. `settle_startLoad` takes a load to its end whoever it is for, and `exists_statusRead` says
how a status read ends, with the same final state for `READ_STATUS`, for `ATTACH` and for the attach of a `STARTUP`. The polarities
are independent because what each operation does as a whole (`perform_loadCal`, `perform_push_custom`) commutes with `withBank`. -/

namespace Sys2Proof.CalibrationLaws

open Machine Claims Scope StateLaws MemoryLaws EncodingLaws GammaLaws
open TransportLaws (eq_of_append_singleton sending_cases perform_ended)
open PixelLaws (sending_busy settle_sendingOnly sendingOnly_busy afterWrite_frame)
open StatusLaws (beginRead_fits takeAnswer_status receiving_eq receiving_busy)

/-! ### A later step does not see how many steps are left (D2) -/

/-- Seven steps are enough for every operation but a stream. -/
theorem settle_stepsLeft (cfg : Params) {t : State} (noStream : ∀ buffer, t.busy ≠ some (.chunks buffer)) :
    settle cfg (stepsLeft t) t = settle cfg 7 t := by
  cases h : t.busy with
  | none => rw [settle_ended cfg _ (.inl h), settle_ended cfg _ (.inl h)]
  | some p =>
    cases p with
    | chunks buffer => exact absurd h (noStream buffer)
    | _ => simp only [stepsLeft, h]

/-! ### LOAD_CAL (R156) -/

section Load

variable {p : Polarity} {s t : State} {whom : LoadFor}

theorem endLoad_busy (r : Part) (b : Option Progress) : endLoad whom r { s with busy := b } = endLoad whom r s := by
  cases whom <;> rfl

/-- The second step of a load, once the store has answered, whoever the load is for. -/
theorem fillBank_loaded {draws : Draws} (drawn : drawNvsRead s = (.answered, { s with draws := draws })) (b : Option Progress) :
    fillBank p (s.nvs.get p) whom { s with draws := draws, busy := b } = endLoad whom (loaded p s).1 (loaded p s).2 := by
  rcases fillBank_cases p (s.nvs.get p) whom { s with draws := draws, busy := b } with
    ⟨absent, e⟩ | ⟨bs, file, malformed, e⟩ | ⟨bs, table, file, decoded, e⟩ <;> rw [e]
  · rw [loaded_absent drawn absent]
    cases whom <;> rfl
  · rw [loaded_malformed drawn file malformed]
    cases whom <;> rfl
  · rw [loaded_decoded drawn file decoded]
    cases whom <;> rfl

/-- A load, whoever it is for, to its end: one step when the store fails, two when it answers. -/
theorem settle_startLoad (cfg : Params) (p : Polarity) (whom : LoadFor) (s : State) (fuel : Nat) :
    ∃ k, settle cfg (fuel + 1) (startLoad p whom s) = settle cfg (k + fuel) (endLoad whom (loaded p s).1 (loaded p s).2) := by
  obtain ⟨d, draws, drawn⟩ := drawNvsRead_cases s
  cases d with
  | failed =>
    refine ⟨1, ?_⟩
    rw [Nat.add_comm 1, loaded_failed drawn]
    simp only [startLoad, nvsRead, drawn]
  | answered =>
    refine ⟨0, ?_⟩
    have read : startLoad p whom s = { s with draws := draws, busy := some (.fill p (s.nvs.get p) whom) } := by
      simp only [startLoad, nvsRead, drawn]
    rw [read, settle_busy cfg fuel (p := .fill p (s.nvs.get p) whom) rfl nofun, resume, fillBank_loaded drawn,
      Nat.zero_add, onNext]

/-- The first step of a load reads the store: it changes no register and sends nothing. -/
theorem startLoad_keeps (p : Polarity) (whom : LoadFor) (s : State) :
    (startLoad p whom s).gt = s.gt ∧ (startLoad p whom s).mode = s.mode ∧ (startLoad p whom s).tx = s.tx := by
  rcases startLoad_cases p whom s with ⟨draws, e⟩ | ⟨draws, e⟩ <;> rw [e]
  · cases whom <;> exact ⟨rfl, rfl, rfl⟩
  · exact ⟨rfl, rfl, rfl⟩

/-- What a load can find: no answer of the store, no file, a file that is no image, or a table (R156). -/
inductive LoadFinds (p : Polarity) (s : State) : Prop where
  | nothing (draws : Draws) (drawn : drawNvsRead s = (.failed, { s with draws := draws }))
  | noFile (draws : Draws) (drawn : drawNvsRead s = (.answered, { s with draws := draws })) (absent : s.nvs.get p = none)
  | noImage (draws : Draws) (drawn : drawNvsRead s = (.answered, { s with draws := draws })) (bs : Bytes)
    (file : s.nvs.get p = some bs) (malformed : gammaDecode bs = none)
  | table (draws : Draws) (drawn : drawNvsRead s = (.answered, { s with draws := draws })) (bs : Bytes) (table : GammaTable)
    (file : s.nvs.get p = some bs) (decoded : gammaDecode bs = some table)

theorem loadFinds (p : Polarity) (s : State) : LoadFinds p s := by
  obtain ⟨d, draws, drawn⟩ := drawNvsRead_cases s
  cases d with
  | failed => exact .nothing draws drawn
  | answered =>
    cases file : s.nvs.get p with
    | none => exact .noFile draws drawn file
    | some bs =>
      cases decoded : gammaDecode bs with
      | none => exact .noImage draws drawn bs file decoded
      | some table => exact .table draws drawn bs table file decoded

theorem loaded_keeps (p : Polarity) (s : State) :
    (loaded p s).2.busy = s.busy ∧ (loaded p s).2.handleOpen = s.handleOpen := by
  cases loadFinds p s with
  | nothing draws drawn => rw [loaded_failed drawn]; exact ⟨rfl, rfl⟩
  | noFile draws drawn absent => rw [loaded_absent drawn absent]; exact ⟨rfl, rfl⟩
  | noImage draws drawn bs file malformed => rw [loaded_malformed drawn file malformed]; exact ⟨rfl, rfl⟩
  | table draws drawn bs table file decoded => rw [loaded_decoded drawn file decoded]; exact ⟨rfl, rfl⟩

theorem drawNvsRead_busy (s : State) (b : Option Progress) :
    drawNvsRead { s with busy := b } = ((drawNvsRead s).1, { (drawNvsRead s).2 with busy := b }) := by
  unfold drawNvsRead
  cases s.draws.nvsReads <;> rfl

/-- A load does not see which operation is in progress. -/
theorem loaded_busy (p : Polarity) (s : State) (b : Option Progress) :
    loaded p { s with busy := b } = ((loaded p s).1, { (loaded p s).2 with busy := b }) := by
  have again := drawNvsRead_busy s b
  cases loadFinds p s with
  | nothing draws drawn =>
    rw [drawn] at again
    rw [loaded_failed drawn, loaded_failed again]
  | noFile draws drawn absent =>
    rw [drawn] at again
    rw [loaded_absent drawn absent, loaded_absent again absent]
  | noImage draws drawn bs file malformed =>
    rw [drawn] at again
    rw [loaded_malformed drawn file malformed, loaded_malformed again file malformed]
  | table draws drawn bs table file decoded =>
    rw [drawn] at again
    rw [loaded_decoded drawn file decoded, loaded_decoded again file decoded]

end Load

/-- Settles O42: the operation to its end is `perform_loadCal` of the family of spec/44_gamma_codec.md. -/
theorem loadCal : Obligations.LoadCal := fun p s idle =>
  ⟨⟨_, whenIdle_idle idle _, (startLoad_keeps p .host s).1⟩, perform_loadCal idle⟩

/-! ### The status read and ATTACH (R123, R157) -/

section Attach

variable {s : State} {cfg : Params} {whom : StatusFor}

theorem failRead_busy (whom : StatusFor) (kind : ErrKind) (s : State) (b : Option Progress) :
    failRead (.status whom) kind { s with busy := b } = failRead (.status whom) kind s := by
  rcases whom with _ | _ | _ <;> rfl

theorem failRead_idle (whom : ReadFor) (kind : ErrKind) (s : State) : (failRead whom kind s).busy = none := by
  obtain ⟨r, e, _⟩ := failRead_eq whom kind s
  rw [e, finish_busy]

/-- The first step of a status read does not see which operation is in progress. -/
theorem beginStatus_busy (cfg : Params) (whom : StatusFor) (handle : s.handleOpen = true) (b : Option Progress) :
    beginStatus cfg whom { s with busy := b } = beginStatus cfg whom s := by
  have fits : Config.statusLen ≤ Config.maxChunk := by decide
  rw [beginStatus, beginStatus, beginRead_fits _ fits handle, beginRead_fits (s := { s with busy := b }) _ fits handle]
  exact congrArg _ (sending_busy (fun _ => rfl) fun _ => failRead_busy whom _ _ b)

/-- A status read for `whom` with `fuel` steps after its decode. -/
def statusRun (cfg : Params) (whom : StatusFor) (fuel : Nat) (s : State) : Out :=
  onNext (beginStatus cfg whom s) (settle cfg (fuel + 2))

/-- How a status read from `s` ends: the same for whomever it is. -/
inductive StatusRead (cfg : Params) (s : State) : Prop where
  /-- The header's write never returns (R193). -/
  | sticks (t : State) (run : ∀ whom fuel, statusRun cfg whom fuel s = .next t) (stuck : t.busy = some .blocked)
    (results : t.results = s.results) (mode : t.mode = s.mode)
  /-- The write, the read or the decode fails (R195 (f)). -/
  | fails (kind : ErrKind) (t : State) (run : ∀ whom fuel, statusRun cfg whom fuel s = .next (failRead (.status whom) kind t))
    (results : t.results = s.results) (mode : t.mode = s.mode)
  /-- There is a view. -/
  | views (view : StatusView) (t : State)
    (run : ∀ whom fuel, statusRun cfg whom fuel s = settle cfg fuel (deliverStatus whom view t))
    (results : t.results = s.results) (mode : t.mode = s.mode)

/-- The decode of a status read does not see which operation is in progress. -/
theorem decodeStatus_busy (image : Bytes) (b : Option Progress) :
    decodeStatus cfg image whom { s with busy := b } = decodeStatus cfg image whom s := by
  unfold decodeStatus
  cases statusDecode cfg image with
  | none => exact failRead_busy whom _ s b
  | some decoded => cases whom <;> rfl

/-- The read and the decode of a status read whose header has been sent. -/
theorem settle_respond {n : Nat} (handle : s.handleOpen = true) (fuel : Nat) :
    settle cfg (fuel + 2) { s with busy := some (.respond n (.status whom)) } =
      if (linkRead n s).1.length < n then .next (failRead (.status whom) .shortRead (linkRead n s).2)
      else settle cfg fuel (decodeStatus cfg (linkRead n s).1 whom (linkRead n s).2) := by
  rw [settle_busy cfg (fuel + 1) (p := .respond n (.status whom)) rfl nofun, resume,
    onLink_open (s := { s with busy := some (.respond n (.status whom)) }) handle, takeAnswer_status,
    receiving_busy (fun _ _ => rfl) fun t => failRead_busy whom _ t _, receiving_eq, onNext]
  split
  · exact settle_ended _ _ (.inl (failRead_idle _ _ _))
  · rw [settle_busy cfg fuel (p := .decode (linkRead n s).1 whom) rfl nofun, resume, decodeStatus_busy]
    rfl

/-- A status read is the write of its header, and the steps left after it. -/
theorem statusRun_eq (handle : s.handleOpen = true) (fuel : Nat) :
    statusRun cfg whom fuel s =
      settle cfg (fuel + 2) (sending (readFrame cfg.cmdRddst Config.statusLen) s
        (fun t => { t with busy := some (.respond Config.statusLen (.status whom)) })
        (failRead (.status whom) .transportError)) := by
  rw [statusRun, beginStatus, beginRead_fits _ (by decide) handle, onNext]

/-- A status read whose header has been sent fails, or has a view. -/
theorem statusRead_of_sent {u : State} {n : Nat} (results : u.results = s.results) (mode : u.mode = s.mode)
    (handle : u.handleOpen = true)
    (run : ∀ whom fuel, statusRun cfg whom fuel s = settle cfg (fuel + 2) { u with busy := some (.respond n (.status whom)) }) :
    StatusRead cfg s := by
  obtain ⟨bs, rx, draws, _, read, _⟩ := linkRead_cases n u
  have run (whom : StatusFor) (fuel : Nat) := (run whom fuel).trans (settle_respond handle fuel)
  simp only [read] at run
  by_cases short : bs.length < n
  · simp only [if_pos short] at run
    exact .fails .shortRead _ run results mode
  · simp only [if_neg short, decodeStatus] at run
    cases decoded : statusDecode cfg bs with
    | none =>
      simp only [decoded] at run
      exact .fails .malformedRegister _
        (fun whom fuel => (run whom fuel).trans (settle_ended _ _ (.inl (failRead_idle _ _ _)))) results mode
    | some found =>
      simp only [decoded] at run
      exact .views found.1 _ run results mode

theorem exists_statusRead (cfg : Params) (handle : s.handleOpen = true) : StatusRead cfg s := by
  have run (whom : StatusFor) (fuel : Nat) := statusRun_eq (cfg := cfg) (whom := whom) handle fuel
  obtain ⟨d, draws, drawn⟩ := drawWrite_cases s
  cases d <;> simp only [sending, drawn] at run
  case blocked k =>
    exact .sticks _ (fun whom fuel => (run whom fuel).trans (settle_ended _ _ (.inr rfl))) rfl rfl rfl
  case failed k =>
    exact .fails .transportError _
      (fun whom fuel => (run whom fuel).trans (settle_ended _ _ (.inl (failRead_idle _ _ _)))) rfl rfl
  case done =>
    exact statusRead_of_sent (u := { s with tx := s.tx ++ readFrame cfg.cmdRddst Config.statusLen, draws := draws }) rfl rfl
      handle run

/-- An operation whose first step is that of a status read. -/
theorem perform_statusRun {i : Instr} (begun : exec i s = beginStatus Config.params whom s) (handle : s.handleOpen = true) :
    perform i s = statusRun Config.params whom 5 s := by
  rw [perform_eq, begun, statusRun_eq handle, beginStatus, beginRead_fits _ (by decide) handle, onNext]
  refine settle_stepsLeft _ fun buffer stream => ?_
  rcases sending_cases (readFrame Config.params.cmdRddst Config.statusLen) s
    (fun t => { t with busy := some (.respond Config.statusLen (.status whom)) })
    (failRead (.status whom) .transportError) with ⟨_, e⟩ | ⟨_, _, e⟩ | ⟨_, _, e⟩ <;> rw [e] at stream
  · cases stream
  · rw [failRead_idle] at stream
    cases stream
  · cases stream

/-- The last step of an attach whose status names a curve. -/
theorem settle_derive_fixed {w : AttachFor} {view : StatusView} {i : Curve} (names : view.gamma.toNat = i.val) (fuel : Nat) :
    settle cfg (fuel + 1) (deliverStatus (.attach w) view s) = .next (endAttach w .ok { s with mode := .fixed i }) := by
  rw [deliverStatus, settle_busy cfg fuel (p := .derive view.gamma w) rfl nofun, resume, deriveMode,
    curveOfStatus_of_eq names, accept, onNext]
  cases w <;> exact settle_ended _ _ (.inl rfl)

/-- The refusal of D18. -/
theorem settle_derive_refused {w : AttachFor} {view : StatusView} (large : 3 < view.gamma.toNat) (fuel : Nat) :
    settle cfg (fuel + 1) (deliverStatus (.attach w) view s) = .refused .attachGammaOutOfRange := by
  rw [deliverStatus, settle_busy cfg fuel (p := .derive view.gamma w) rfl nofun, resume, deriveMode,
    curveOfStatus_out large, accept, onNext]

theorem exec_attach (idle : s.busy = none) : exec .attach s = beginStatus Config.params (.attach .host) s :=
  whenIdle_idle idle _

/-- A history does not grow by one entry and stay as it was. -/
theorem not_told {l l' : List Result} {r : Result} (same : l = l') (told : l = l' ++ [r]) : False :=
  List.cons_ne_nil r [] (List.self_eq_append_right.mp (same.symm.trans told))

/-- The one entry that a history has grown by. -/
theorem eq_of_told {l l' : List Result} {r r' : Result} (same : l = l') (told : l ++ [r] = l' ++ [r']) : r = r' :=
  eq_of_append_singleton (same ▸ told)

end Attach

/-- Settles O43: the status read ends as that of `READ_STATUS`, and a view is followed by the step that derives the mode. -/
theorem attach : Obligations.Attach := by
  unfold Obligations.Attach
  intro s idle handle
  have read : perform .readStatus s = statusRun Config.params .host 5 s := perform_statusRun (whenIdle_idle idle _) handle
  have attached : perform .attach s = statusRun Config.params (.attach .host) 5 s := perform_statusRun (exec_attach idle) handle
  refine ⟨(exec_attach idle).trans (beginRead_fits (.status (.attach .host)) (by decide) handle), ?_⟩
  rw [read, attached]
  cases exists_statusRead Config.params handle with
  | sticks t run stuck results mode =>
    exact ⟨t, run _ _, mode, fun _ => run _ _, fun _ told => (not_told results told).elim,
      fun _ _ told => (not_told results told).elim, fun _ told => (not_told results told).elim⟩
  | fails kind t run results mode =>
    refine ⟨_, run _ _, mode, nofun, fun _ _ => run _ _, fun _ _ told => ?_, fun _ told => ?_⟩
    · cases eq_of_told results told
    · cases eq_of_told results told
  | views view t run results mode =>
    refine ⟨_, run _ _, mode, nofun, fun _ told => ?_, fun view' i told names => ?_, fun view' told large => ?_⟩
    · cases eq_of_told results told
    · cases eq_of_told results told
      rw [run, settle_derive_fixed names, ← results]
      rfl
    · cases eq_of_told results told
      rw [run, settle_derive_refused large]

/-! ### STARTUP (R163) -/

section Startup

variable {s : State} {cfg : Params}

/-- How an attach from `s` ends: the same for the host and for a `STARTUP`. -/
inductive AttachEnds (cfg : Params) (s : State) : Prop where
  | sticks (t : State) (run : ∀ w fuel, statusRun cfg (.attach w) (fuel + 1) s = .next t) (stuck : t.busy = some .blocked)
    (results : t.results = s.results)
  | ends (part : Part) (t : State) (run : ∀ w fuel, statusRun cfg (.attach w) (fuel + 1) s = .next (endAttach w part t))
    (results : t.results = s.results)
  | refuses (r : Refusal) (run : ∀ w fuel, statusRun cfg (.attach w) (fuel + 1) s = .refused r)

theorem exists_attachEnds (cfg : Params) (handle : s.handleOpen = true) : AttachEnds cfg s := by
  cases exists_statusRead cfg handle with
  | sticks t run stuck results => exact .sticks t (fun _ _ => run _ _) stuck results
  | fails kind t run results => exact .ends (.err kind) t (fun _ _ => run _ _) results
  | views view t run results =>
    by_cases large : 3 < view.gamma.toNat
    · exact .refuses _ fun _ fuel => (run _ _).trans (settle_derive_refused large fuel)
    · let i : Curve := ⟨view.gamma.toNat, by simp only [Config.nFixedCurves]; omega⟩
      exact .ends .ok { t with mode := .fixed i } (fun _ fuel => (run _ _).trans (settle_derive_fixed (i := i) rfl fuel)) results

theorem resultOf_injective {a b : Part} (h : resultOf a = resultOf b) : a = b := by
  cases a <;> cases b <;> cases h <;> rfl

theorem exec_startup (idle : s.busy = none) (handle : s.handleOpen = true) :
    exec .startup s = .next (startLoad .positive .startupPositive s) :=
  (whenIdle_idle idle _).trans (onLink_open handle _)

/-- The second load of a start-up, and the step before it. -/
theorem settle_loadNegative (cfg : Params) (first : Part) (s : State) (fuel : Nat) :
    ∃ k, settle cfg (fuel + 2) { s with busy := some (.loadNegative first) } =
      settle cfg (k + fuel) { (loaded .negative s).2 with busy := some (.attachNext first (loaded .negative s).1) } := by
  obtain ⟨k, load⟩ := settle_startLoad cfg .negative (.startupNegative first)
    { s with busy := some (.loadNegative first) } fuel
  rw [loaded_busy, endLoad_busy] at load
  refine ⟨k, Eq.trans ?_ load⟩
  rw [settle_busy cfg (fuel + 1) (p := .loadNegative first) rfl nofun, resume, onNext]

/-- The attach of a start-up. -/
theorem settle_attachNext (handle : s.handleOpen = true) (first second : Part) (fuel : Nat) :
    settle cfg (fuel + 3) { s with busy := some (.attachNext first second) } =
      statusRun cfg (.attach (.startup first second)) fuel s := by
  rw [settle_busy cfg (fuel + 2) (p := .attachNext first second) rfl nofun, resume, beginStatus_busy cfg _ handle, statusRun]

/-- A start-up is the two loads, and then an attach that reports them. -/
theorem perform_startup (idle : s.busy = none) (handle : s.handleOpen = true) :
    ∃ fuel, perform .startup s =
      statusRun Config.params
        (.attach (.startup (loaded .positive s).1 (loaded .negative (loaded .positive s).2).1)) (fuel + 1)
        (loaded .negative (loaded .positive s).2).2 := by
  obtain ⟨_, open1⟩ := loaded_keeps .positive s
  obtain ⟨_, open2⟩ := loaded_keeps .negative (loaded .positive s).2
  obtain ⟨k1, load1⟩ := settle_startLoad Config.params .positive .startupPositive s 6
  obtain ⟨k2, load2⟩ := settle_loadNegative Config.params (loaded .positive s).1 (loaded .positive s).2 (k1 + 4)
  have steps : perform .startup s = settle Config.params 7 (startLoad .positive .startupPositive s) := by
    rw [perform_eq, exec_startup idle handle]
    refine settle_stepsLeft _ fun buffer => ?_
    rcases startLoad_cases .positive .startupPositive s with ⟨_, e⟩ | ⟨_, e⟩ <;> rw [e] <;> nofun
  refine ⟨k2 + k1, steps.trans (load1.trans (load2.trans ?_))⟩
  exact settle_attachNext (open2.trans (open1.trans handle)) _ _ (k2 + k1 + 1)

end Startup

/-- Settles O48: the attach inside the start-up ends as the host's own does from the state the loads leave. -/
theorem startup : Obligations.Startup := by
  unfold Obligations.Startup
  intro s idle handle
  obtain ⟨_, mode, tx⟩ := startLoad_keeps .positive .startupPositive s
  refine ⟨⟨_, exec_startup idle handle, tx, mode⟩, ?_⟩
  obtain ⟨idle1, open1⟩ := loaded_keeps .positive s
  obtain ⟨idle2, open2⟩ := loaded_keeps .negative (loaded .positive s).2
  have history : (loaded .negative (loaded .positive s).2).2.results = s.results :=
    (loaded_results _ _).trans (loaded_results _ _)
  have still : (loaded .negative (loaded .positive s).2).2.handleOpen = true := open2.trans (open1.trans handle)
  obtain ⟨fuel, whole⟩ := perform_startup idle handle
  rw [whole, perform_statusRun (exec_attach (idle2.trans (idle1.trans idle))) still]
  cases exists_attachEnds Config.params still with
  | sticks t run stuck results =>
    rw [run, run]
    refine ⟨fun u h _ => h, fun u part h told => ?_, nofun⟩
    cases h
    exact (not_told (results.trans history) told).elim
  | ends part t run results =>
    rw [run, run]
    refine ⟨fun u h stuck => ?_, fun u part' h told => ?_, nofun⟩
    · cases h
      cases stuck
    · cases h
      have : Part.result part = resultOf part' := eq_of_told (results.trans history) told
      cases resultOf_injective (a := part) this
      rw [← history, ← results]
      rfl
  | refuses r run =>
    rw [run, run]
    exact ⟨fun _ h => (nomatch h), fun _ _ h => (nomatch h), fun _ h => h⟩

/-! ### SELECT_CURVE and ENTER_CUSTOM (R160, R161) -/

section Select

variable {s : State}

theorem exec_selectCurve (i : Curve) (idle : s.busy = none) (handle : s.handleOpen = true) :
    exec (.selectCurve i.val) s = .next { s with mode := .fixed i, busy := some (.curve i) } := by
  have begun : exec (.selectCurve i.val) s = _ := whenIdle_idle idle _
  rw [begun, curveOperand_val, accept, onLink_open handle]

/-- The second step of `SELECT_CURVE`: the curve frame, which ends the operation. -/
theorem settle_curve (cfg : Params) (i : Curve) (fuel : Nat) (handle : s.handleOpen = true) :
    settle cfg (fuel + 1) { s with busy := some (.curve i) } =
      .next (sendingOnly (writeFrame cfg.cmdGamset [oneHotByte i]) s) := by
  have fits : [oneHotByte i].length ≤ Config.maxChunk := (by decide : 1 ≤ Config.maxChunk)
  rw [settle_busy cfg fuel (p := .curve i) rfl nofun, resume, onLink_open (s := { s with busy := some (.curve i) }) handle, lastFrame,
    curveFrame, oneHot_eq_oneHotByte, afterWrite_frame _ _ fits, onNext]
  exact (settle_sendingOnly cfg fuel _ _).trans (congrArg _ (sendingOnly_busy _ s _))

end Select

/-- Settles O46: the refusal, the write of `MODE`, and the frame that comes after it. -/
theorem selectCurve : Obligations.SelectCurve := by
  refine ⟨fun z s idle out => ?refused, fun i s idle handle => ⟨exec_selectCurve i idle handle, ?whole⟩⟩
  case refused =>
    have begun : exec (.selectCurve z) s = _ := whenIdle_idle idle _
    rw [begun, curveOperand_out out, accept]
  case whole =>
    rw [perform_eq, exec_selectCurve i idle handle]
    exact settle_curve (s := { s with mode := .fixed i }) Config.params i 6 handle

/-- Settles O47: the one step has no operand, no link transfer and no store access. -/
theorem enterCustom : Obligations.EnterCustom := fun _ idle => whenIdle_idle idle _

/-! ### PUSH (R159) -/

section Push

variable {p : Polarity} {s : State} {cfg : Params}

theorem exec_push (idle : s.busy = none) : exec (.push p) s = beginPush Config.params p s := whenIdle_idle idle _

theorem exec_push_unattached (idle : s.busy = none) (unattached : s.mode = .unattached) :
    exec (.push p) s = .refused .modeUnattached := by
  rw [exec_push idle, beginPush, unattached]

/-- The device part of a push in a fixed mode: the curve frame. -/
theorem endPush_curveFrame (file : FileStatus) (i : Curve) (s : State) :
    endPush file (curveFrame cfg i s) =
      sending (writeFrame cfg.cmdGamset [oneHotByte i]) s (answered (.push file .ok))
        (answered (.push file (.err .transportError))) := by
  have fits : [oneHotByte i].length ≤ Config.maxChunk := (by decide : 1 ≤ Config.maxChunk)
  rw [endPush, curveFrame, oneHot_eq_oneHotByte, writeCommand_fits _ _ _ fits, afterWrite_linkWrite]
  rfl

theorem exec_push_fixed {i : Curve} (idle : s.busy = none) (fixed : s.mode = .fixed i) :
    exec (.push p) s = onLink s (.next (endPush .notTouched (curveFrame Config.params i s))) := by
  rw [exec_push idle, beginPush, fixed]

end Push

/-- Settles O45: the push in `Custom` mode is `perform_push_custom` of the family of spec/44_gamma_codec.md. -/
theorem push : Obligations.Push := by
  refine fun p s idle => ⟨exec_push_unattached idle, fun i fixed handle => ?_,
    fun custom handle => ⟨exec_push_custom idle custom handle, perform_push_custom idle custom handle⟩⟩
  rw [exec_push_fixed idle fixed, onLink_open handle, endPush_curveFrame]
  rfl

/-! ### SET_FIELD (R158) -/

section SetField

variable {p : Polarity} {f : GammaField} {x : Int} {s : State}

theorem storeField_eq_fieldStored (p : Polarity) (f : GammaField) (x : Int) (s : State) :
    storeField p f x s = fieldStored p f x s := by
  rw [fieldStored, ← clamp_eq_clamped]
  rfl

theorem exec_setField (idle : s.busy = none) : exec (.setField p f x) s = beginSetField p f x s := whenIdle_idle idle _

theorem exec_setField_unattached (idle : s.busy = none) (unattached : s.mode = .unattached) :
    exec (.setField p f x) s = .refused .modeUnattached := by
  rw [exec_setField idle, beginSetField, unattached]

theorem exec_setField_fixed {i : Curve} (idle : s.busy = none) (fixed : s.mode = .fixed i) :
    exec (.setField p f x) s = .next (answered (.ok .none) (fieldStored p f x s)) := by
  rw [exec_setField idle, beginSetField, fixed, storeField_eq_fieldStored]
  rfl

theorem exec_setField_custom (idle : s.busy = none) (custom : s.mode = .custom) :
    exec (.setField p f x) s = onLink s (.next { fieldStored p f x s with busy := some (.pushFile p) }) := by
  rw [exec_setField idle, beginSetField, custom, storeField_eq_fieldStored]

/-- The file part of a push does not see which operation is in progress. -/
theorem pushFile_busy (p : Polarity) (s : State) (b : Option Progress) : pushFile p { s with busy := b } = pushFile p s := by
  have drawn : drawNvsWrite { s with busy := b } = ((drawNvsWrite s).1, { (drawNvsWrite s).2 with busy := b }) := by
    unfold drawNvsWrite
    cases s.draws.nvsWrites <;> rfl
  simp only [pushFile, nvsWrite, drawn]
  rcases drawNvsWrite s with ⟨_ | _, t⟩ <;> rfl

/-- The device part of a push comes after its file part. -/
theorem pushFile_next (p : Polarity) (s : State) :
    ∃ file, (pushFile p s).busy = some (.pushDevice p (imageOf (s.gt.get p)) file) ∧
      (pushFile p s).handleOpen = s.handleOpen := by
  rcases pushFile_cases p s with ⟨_, e⟩ | ⟨_, _, e⟩ <;> rw [e] <;> exact ⟨_, rfl, rfl⟩

/-- A push whose file part is done, however many steps are left. -/
theorem settle_pushFile (cfg : Params) (p : Polarity) (fuel : Nat) (handle : s.handleOpen = true) :
    settle cfg (fuel + 1) (pushFile p s) = settle cfg (stepsLeft (pushFile p s)) (pushFile p s) := by
  have fits : (imageOf (s.gt.get p)).length ≤ Config.maxChunk := by rw [imageOf_length]; decide
  obtain ⟨file, next, still⟩ := pushFile_next p s
  have device (n : Nat) := settle_pushDevice (cfg := cfg) n next (still.trans handle) fits
  rw [settle_stepsLeft cfg fun _ stream => (nomatch next.symm.trans stream)]
  exact (device fuel).trans (device 6).symm

/-- A `SET_FIELD` in `Custom` mode is its store and then a `PUSH`. -/
theorem perform_setField_custom (idle : s.busy = none) (custom : s.mode = .custom) (handle : s.handleOpen = true) :
    perform (.setField p f x) s = perform (.push p) (fieldStored p f x s) := by
  have pushes : exec (.push p) (fieldStored p f x s) = .next (pushFile p (fieldStored p f x s)) := by
    rw [exec_push (s := fieldStored p f x s) idle, beginPush, show (fieldStored p f x s).mode = .custom from custom]
    exact onLink_open (s := fieldStored p f x s) handle _
  rw [perform_eq, perform_eq, exec_setField_custom idle custom, onLink_open handle, pushes, onNext, onNext, stepsLeft,
    settle_busy Config.params 6 (p := .pushFile p) rfl nofun, resume, onNext, pushFile_busy]
  exact settle_pushFile (s := fieldStored p f x s) Config.params p 5 handle

/-- The store of `SET_FIELD` register by register. -/
theorem fieldStored_get (p q : Polarity) (f g : GammaField) (x : Int) (s : State) :
    ((fieldStored p f x s).gt.get q).get g = if q = p ∧ g = f then clamped f x else (s.gt.get q).get g := by
  show ((s.gt.set p ((s.gt.get p).set f (clamped f x))).get q).get g = _
  by_cases bank : q = p
  · subst bank
    rw [Banks.get_set_self]
    by_cases field : g = f
    · subst field
      rw [if_pos ⟨rfl, rfl⟩, ← clamp_eq_clamped, get_set_clamp, clamp_eq_clamped]
    · rw [if_neg fun h => field h.2, GammaTable.get_set_of_ne _ _ field]
  · rw [if_neg fun h => bank h.1, Banks.get_set_of_ne _ _ bank]

end SetField

/-- Settles O44: one lemma for each of the three modes, and the store register by register. -/
theorem setField : Obligations.SetField :=
  ⟨fun _ _ _ _ idle => ⟨exec_setField_unattached idle, fun _ => exec_setField_fixed idle, fun custom handle =>
    ⟨(exec_setField_custom idle custom).trans (onLink_open handle _), perform_setField_custom idle custom handle⟩⟩,
    fieldStored_get⟩

/-! ### The two polarities (R164) -/

theorem banks_set_comm {α : Type} (b : Banks α) {p q : Polarity} (x y : α) (h : q ≠ p) :
    (b.set q y).set p x = (b.set p x).set q y := by
  refine Banks.ext_get fun r => ?_
  by_cases hp : r = p
  · subst hp
    rw [Banks.get_set_self, Banks.get_set_of_ne _ _ h.symm, Banks.get_set_self]
  · rw [Banks.get_set_of_ne _ _ hp]
    by_cases hq : r = q
    · subst hq
      rw [Banks.get_set_self, Banks.get_set_self]
    · rw [Banks.get_set_of_ne _ _ hq, Banks.get_set_of_ne _ _ hq, Banks.get_set_of_ne _ _ hp]

section Independent

variable {p q : Polarity} {table : GammaTable} {file : Option Bytes} {s : State}

theorem withBank_gt_get (h : q ≠ p) : (withBank q table file s).gt.get p = s.gt.get p := Banks.get_set_of_ne _ _ h.symm

theorem withBank_nvs_get (h : q ≠ p) : (withBank q table file s).nvs.get p = s.nvs.get p := Banks.get_set_of_ne _ _ h.symm

/-- What does not see anything of the Calibration Controller does not see a bank and a file of it. -/
theorem blind_withBank {f : State → State} (hf : Blind f) (q : Polarity) (table : GammaTable) (file : Option Bytes) (s : State) :
    f (withBank q table file s) = withBank q table file (f s) := by
  have kept : f s = withCalibration s.gt s.mode s.nvs (f s) := hf.commutes s.gt s.mode s.nvs s
  calc f (withBank q table file s)
      = withCalibration (s.gt.set q table) s.mode (s.nvs.set q file) (f s) := hf.commutes _ _ _ s
    _ = withBank q table file (withCalibration s.gt s.mode s.nvs (f s)) := rfl
    _ = withBank q table file (f s) := by rw [← kept]

theorem endPush_blind (file : FileStatus) (command : Byte) (payload : Bytes) :
    Blind fun s => endPush file (writeCommand .write command payload s) :=
  (writeCommand_blind _ _ _).afterWrite (finish_blind _) fun _ => finish_blind _

theorem drawNvsRead_withBank : drawNvsRead (withBank q table file s) =
    ((drawNvsRead s).1, withBank q table file (drawNvsRead s).2) := by
  unfold drawNvsRead
  cases h : s.draws.nvsReads <;> simp only [withBank, h]

theorem drawNvsWrite_withBank : drawNvsWrite (withBank q table file s) =
    ((drawNvsWrite s).1, withBank q table file (drawNvsWrite s).2) := by
  unfold drawNvsWrite
  cases h : s.draws.nvsWrites <;> simp only [withBank, h]

/-- A load of `p` neither reads nor writes what belongs to `q`. -/
theorem loaded_withBank (h : q ≠ p) :
    loaded p (withBank q table file s) = ((loaded p s).1, withBank q table file (loaded p s).2) := by
  have again := drawNvsRead_withBank (q := q) (table := table) (file := file) (s := s)
  have same := withBank_nvs_get (table := table) (file := file) (s := s) h
  cases loadFinds p s with
  | nothing draws drawn =>
    rw [drawn] at again
    rw [loaded_failed drawn, loaded_failed again]
  | noFile draws drawn absent =>
    rw [drawn] at again
    rw [loaded_absent drawn absent, loaded_absent again (same.trans absent)]
    simp only [withBank, banks_set_comm _ _ _ h]
  | noImage draws drawn bs found malformed =>
    rw [drawn] at again
    rw [loaded_malformed drawn found malformed, loaded_malformed again (same.trans found) malformed]
  | table draws drawn bs table' found decoded =>
    rw [drawn] at again
    rw [loaded_decoded drawn found decoded, loaded_decoded again (same.trans found) decoded]
    simp only [withBank, banks_set_comm _ _ _ h]

/-- A write of the file of `p`, and what follows it when that does not see what belongs to `q`. -/
theorem storing_withBank {bs : Bytes} {next : FileStatus → State → State} (h : q ≠ p)
    (blind : ∀ status t, next status (withBank q table file t) = withBank q table file (next status t)) :
    storing p bs (withBank q table file s) next = withBank q table file (storing p bs s next) := by
  obtain ⟨d, draws, drawn⟩ := drawNvsWrite_cases s
  have again := drawNvsWrite_withBank (q := q) (table := table) (file := file) (s := s)
  rw [drawn] at again
  cases d with
  | done =>
    simp only [storing, drawn, again]
    rw [← blind]
    simp only [withBank, banks_set_comm _ _ _ h]
  | failed left =>
    simp only [storing, drawn, again, withBank_nvs_get h]
    rw [← blind]
    simp only [withBank, banks_set_comm _ _ _ h]

theorem pushingDevice_withBank (cfg : Params) (image : Bytes) (fits : image.length ≤ Config.maxChunk) (status : FileStatus)
    (t : State) : pushingDevice cfg p image status (withBank q table file t) =
      withBank q table file (pushingDevice cfg p image status t) := by
  rw [← endPush_gammaFrame fits, ← endPush_gammaFrame fits]
  exact blind_withBank (endPush_blind status (gammaCmd cfg p) image) q table file t

theorem fieldStored_withBank (h : q ≠ p) (f : GammaField) (x : Int) :
    fieldStored p f x (withBank q table file s) = withBank q table file (fieldStored p f x s) := by
  simp only [fieldStored, withBank_gt_get h]
  simp only [withBank, banks_set_comm _ _ _ h]

/-- A block that is not idle starts no operation (R193, R200). -/
theorem perform_not_idle (i : Instr) {b : Progress} (busy : s.busy = some b) :
    perform i s = whenIdle s (.refused .operationInProgress) := by
  have all (o : Out) : whenIdle s o = whenIdle s (.refused .operationInProgress) := by
    unfold whenIdle
    rw [busy]
    cases b <;> rfl
  have first : exec i s = whenIdle s (.refused .operationInProgress) := by cases i <;> exact all _
  rw [perform_eq, first, whenIdle, busy]
  cases b <;> rfl

/-- An operation that needs the handle, to its end. -/
theorem perform_onLink {i : Instr} {first whole : Out} (begun : exec i s = onLink s first)
    (goes : s.handleOpen = true → perform i s = whole) : perform i s = onLink s whole := by
  cases handle : s.handleOpen with
  | true => rw [onLink_open handle, goes handle]
  | false =>
    rw [perform_eq, begun, onLink, onLink, handle]
    rfl

theorem perform_refused {i : Instr} {r : Refusal} (first : exec i s = .refused r) : perform i s = .refused r := by
  rw [perform_eq, first, onNext]

theorem perform_push_fixed {i : Curve} (idle : s.busy = none) (fixed : s.mode = .fixed i) :
    perform (.push p) s = onLink s (.next (endPush .notTouched (curveFrame Config.params i s))) := by
  refine perform_onLink (exec_push_fixed idle fixed) fun handle => perform_ended ?_ ?_
  · rw [exec_push_fixed idle fixed, onLink_open handle]
  · rw [endPush_curveFrame]
    rcases sending_cases (writeFrame Config.params.cmdGamset [oneHotByte i]) s (answered (.push .notTouched .ok))
      (answered (.push .notTouched (.err .transportError))) with ⟨_, e⟩ | ⟨_, _, e⟩ | ⟨_, _, e⟩ <;> rw [e]
    · exact .inl rfl
    · exact .inl rfl
    · exact .inr rfl

/-- A whole push in `Custom` mode, whether the handle is open or not. -/
theorem perform_push_saving (idle : s.busy = none) (custom : s.mode = .custom) :
    perform (.push p) s = onLink s (.next (storing p (bytesOfTable (s.gt.get p).get) s
      (pushingDevice Config.params p (bytesOfTable (s.gt.get p).get)))) :=
  perform_onLink (by rw [exec_push idle, beginPush, custom]) (perform_push_custom idle custom)

/-- A whole `SET_FIELD` in `Custom` mode, whether the handle is open or not. -/
theorem perform_setField_pushing {f : GammaField} {x : Int} (idle : s.busy = none) (custom : s.mode = .custom) :
    perform (.setField p f x) s = onLink s (perform (.push p) (fieldStored p f x s)) :=
  perform_onLink (exec_setField_custom idle custom) (perform_setField_custom idle custom)

theorem perform_push_withBank (h : q ≠ p) (idle : s.busy = none) :
    perform (.push p) (withBank q table file s) = mapNext (withBank q table file) (perform (.push p) s) := by
  cases mode : s.mode with
  | unattached =>
    rw [perform_refused (exec_push_unattached idle mode),
      perform_refused (exec_push_unattached (s := withBank q table file s) idle mode), mapNext]
  | fixed i =>
    have frame := blind_withBank (endPush_blind .notTouched Config.params.cmdGamset [oneHot i]) q table file s
    rw [perform_push_fixed idle mode, perform_push_fixed (s := withBank q table file s) idle mode, mapNext_onLink]
    exact congrArg (fun t => onLink s (.next t)) frame
  | custom =>
    have fits : (bytesOfTable (s.gt.get p).get).length ≤ Config.maxChunk := (by decide : 14 ≤ Config.maxChunk)
    rw [perform_push_saving idle mode, perform_push_saving (s := withBank q table file s) idle mode, mapNext_onLink, withBank_gt_get h,
      storing_withBank h (pushingDevice_withBank Config.params _ fits)]
    rfl

theorem perform_setField_withBank (h : q ≠ p) (f : GammaField) (x : Int) (idle : s.busy = none) :
    perform (.setField p f x) (withBank q table file s) =
      mapNext (withBank q table file) (perform (.setField p f x) s) := by
  cases mode : s.mode with
  | unattached =>
    rw [perform_refused (exec_setField_unattached idle mode),
      perform_refused (exec_setField_unattached (s := withBank q table file s) idle mode), mapNext]
  | fixed i =>
    rw [perform_ended (exec_setField_fixed idle mode) (.inl rfl),
      perform_ended (exec_setField_fixed (s := withBank q table file s) idle mode) (.inl rfl), fieldStored_withBank h]
    rfl
  | custom =>
    rw [perform_setField_pushing idle mode, perform_setField_pushing (s := withBank q table file s) idle mode,
      mapNext_onLink, fieldStored_withBank h, perform_push_withBank (s := fieldStored p f x s) h idle]
    rfl

theorem perform_loadCal_withBank (h : q ≠ p) (idle : s.busy = none) :
    perform (.loadCal p) (withBank q table file s) = mapNext (withBank q table file) (perform (.loadCal p) s) := by
  rw [perform_loadCal idle, perform_loadCal (s := withBank q table file s) idle, loaded_withBank h]
  rfl

end Independent

/-- Settles O49: what each of the three operations does as a whole commutes with the replacement of the other bank and file. -/
theorem polaritiesAreIndependent : Obligations.PolaritiesAreIndependent := by
  unfold Obligations.PolaritiesAreIndependent
  intro i p q table file s h acts
  cases busy : s.busy with
  | some b =>
    rw [perform_not_idle i busy, perform_not_idle (s := withBank q table file s) i busy, mapNext_whenIdle]
    rfl
  | none =>
    cases i with
    | loadCal r =>
      cases (eq_of_beq acts : r = p)
      exact perform_loadCal_withBank h busy
    | setField r f x =>
      cases (eq_of_beq acts : r = p)
      exact perform_setField_withBank h f x busy
    | push r =>
      cases (eq_of_beq acts : r = p)
      exact perform_push_withBank h busy
    | _ => cases acts

end Sys2Proof.CalibrationLaws

/-! PROOFS of the family of spec/46_arithmetic_and_sequencing_laws.md: the two byte orders (O6), mask and clamp (O7), and that every
operation ends with one result or is stuck (O13).

For O13, `remaining` is a measure that works in every state, also one that no run reaches: every later step of an operation makes it
smaller (`remaining_resume_lt`), and `stepsLeft` is never below it (`remaining_le_stepsLeft`), so `settle` never runs out of fuel. That only the last step of an operation gives a result is read off its moves (`move_ends_or_goes_on`). -/

namespace Sys2Proof.ArithmeticLaws

open Machine Claims Scope StateLaws

/-! ### Byte assembly (R172) -/

theorem ofNat_and_255 (n : Nat) : BitVec.ofNat 8 (n &&& 0xFF) = BitVec.ofNat 8 n := by
  refine BitVec.eq_of_toNat_eq ?_
  rw [BitVec.toNat_ofNat, BitVec.toNat_ofNat, show 0xFF = 2 ^ 8 - 1 from rfl, Nat.and_two_pow_sub_one_eq_mod, Nat.mod_mod]

theorem le16_eq (n : Nat) : le16 n = [BitVec.ofNat 8 (n &&& 0xFF), BitVec.ofNat 8 (n >>> 8)] := by
  rw [ofNat_and_255, Nat.shiftRight_eq_div_pow]
  rfl

theorem be16_eq (n : Nat) : be16 n = [BitVec.ofNat 8 (n >>> 8), BitVec.ofNat 8 (n &&& 0xFF)] := by
  rw [ofNat_and_255, Nat.shiftRight_eq_div_pow]
  rfl

/-- Settles O6: a number below 65536 is read back from its two bytes in either order. -/
theorem byteAssembly : Obligations.ByteAssembly := by
  unfold Obligations.ByteAssembly
  intro n range
  have small : n < 65536 := by omega
  refine ⟨le16_eq n, be16_eq n, ?_, ?_⟩
  · obtain ⟨low, high, bytes, back⟩ := fromLe16_le16 small
    cases (le16_eq n).symm.trans bytes
    exact back
  · obtain ⟨high, low, bytes, back⟩ := fromBe16_be16 small
    cases (be16_eq n).symm.trans bytes
    exact back

/-! ### Mask and clamp (R171) -/

section Clamp

variable {w x : Nat}

theorem clamp_of_lt (inside : x < 2 ^ w) : clamp w x = x := by
  have bound : ((2 ^ w : Nat) : Int) = 2 ^ w := by push_cast; rfl
  rw [clamp, if_neg (by omega), if_neg (by omega), Int.toNat_natCast]

theorem clamp_of_le (beyond : 2 ^ w ≤ x) : clamp w x = 2 ^ w - 1 := by
  have bound : ((2 ^ w : Nat) : Int) = 2 ^ w := by push_cast; rfl
  rw [clamp, if_neg (by omega), if_pos (by omega)]

end Clamp

/-- Settles O7; the mask of the encoder changes no register of a bank because none is beyond its width. -/
theorem maskAndClamp : Obligations.MaskAndClamp :=
  ⟨fun _ _ inside => ⟨lo_of_lt inside, clamp_of_lt inside⟩, fun _ _ beyond => ⟨clamp_of_le beyond, rfl⟩, by decide,
    fun s p => (s.gt.get p).get_lt, fun s p => GammaLaws.gammaTableRoundTrip.1 (s.gt.get p)⟩

/-! ### The steps an operation still takes (D2) -/

/-- The steps of an operation after its status decode (R123, R157). -/
def afterDecode : StatusFor → Nat
  | .host => 0
  | .attach _ => 1

/-- The steps of an operation after a read (R81, R123). -/
def afterRead : ReadFor → Nat
  | .response => 0
  | .status whom => afterDecode whom + 1

/-- The steps of an operation after a load: in a `STARTUP`, the other load and the attach, or the attach (R156, R163). -/
def afterLoad : LoadFor → Nat
  | .host => 0
  | .startupPositive => 6
  | .startupNegative _ => 4

/-- A bound on the steps an operation takes from a point on, at the cursor given: those it takes when no transfer fails, and of a
stream one for each whole `MAX_CHUNK` bytes from the cursor to the end of the buffer, and one more (R101). -/
def stepsFrom (cur : Option Nat) : Progress → Nat
  | .blocked => 0
  | .respond _ whom => afterRead whom + 1
  | .decode _ whom => afterDecode whom + 1
  | .derive _ _ => 1
  | .rows _ _ => 1
  | .chunks buffer => (buffer.length - cur.getD 0) / Config.maxChunk + 1
  | .curve _ => 1
  | .fill _ _ whom => afterLoad whom + 1
  | .pushFile _ => 2
  | .pushDevice _ _ _ => 1
  | .loadNegative _ => 6
  | .attachNext _ _ => 4

/-- A bound on the steps the operation in progress still takes. -/
def remaining (s : State) : Nat :=
  match s.busy with
  | none => 0
  | some p => stepsFrom s.cur p

section Remaining

variable {s t : State}

theorem remaining_idle (idle : s.busy = none) : remaining s = 0 := by rw [remaining, idle]

theorem remaining_busy {p : Progress} (busy : s.busy = some p) : remaining s = stepsFrom s.cur p := by rw [remaining, busy]

theorem afterDecode_le (whom : StatusFor) : afterDecode whom ≤ 1 := by
  cases whom with
  | host => exact Nat.zero_le _
  | attach => exact le_rfl

theorem afterRead_le (whom : ReadFor) : afterRead whom ≤ 2 := by
  cases whom with
  | response => decide
  | status whom => exact Nat.succ_le_succ (afterDecode_le whom)

theorem afterLoad_le (whom : LoadFor) : afterLoad whom ≤ 6 := by
  cases whom with
  | host => exact Nat.zero_le _
  | startupPositive => exact le_rfl
  | startupNegative => exact Nat.le_add_right 4 2

/-- An operation that is not stuck has a step left. -/
theorem stepsFrom_pos (cur : Option Nat) {p : Progress} (going : p ≠ .blocked) : 0 < stepsFrom cur p := by
  cases p with
  | blocked => exact absurd rfl going
  | _ => exact Nat.succ_pos _

/-- The bound of `settle` is one in every state: of a stream wherever its cursor is, of a `STARTUP` after its first step. -/
theorem remaining_le_stepsLeft (s : State) : remaining s ≤ stepsLeft s := by
  unfold remaining stepsLeft
  cases s.busy with
  | none => exact le_rfl
  | some p =>
    cases p with
    | chunks buffer => exact Nat.succ_le_succ (Nat.div_le_div_right (Nat.sub_le _ _))
    | respond n whom => exact Nat.succ_le_succ ((afterRead_le whom).trans (by decide))
    | decode image whom => exact Nat.succ_le_succ ((afterDecode_le whom).trans (by decide))
    | fill p file whom => exact Nat.succ_le_succ (afterLoad_le whom)
    | _ => simp only [stepsFrom]; decide

/-! ### Each later step leaves fewer of them -/

/-- A frame and what follows it: fewer than `n` steps are left when that is so after a whole write, and an error ends the operation. -/
theorem remaining_afterFrame_lt {n : Nat} (d : Direction) (command : Byte) (payload : Bytes) {onOk : State → State}
    {onErr : ErrKind → State → State} (some_left : 0 < n) (ended : ∀ kind u, (onErr kind u).busy = none)
    (sent : ∀ tx draws, remaining (onOk { s with tx := tx, draws := draws }) < n) :
    remaining (afterWrite (writeCommand d command payload s) onOk onErr) < n := by
  rcases writeCommand_cases d command payload s with ⟨_, e⟩ | ⟨fits, _⟩
  · rw [e, afterWrite_err, remaining_idle (ended _ s)]
    exact some_left
  · rcases afterFrame_cases d command s onOk onErr fits with ⟨draws, e⟩ | ⟨draws, k, e⟩ | ⟨draws, k, e⟩ <;> rw [e]
    · exact sent _ draws
    · rw [remaining_idle (ended _ _)]
      exact some_left
    · exact some_left

theorem remaining_lastFrame (d : Direction) (command : Byte) (payload : Bytes) :
    remaining (lastFrame (writeCommand d command payload s)) < 1 :=
  remaining_afterFrame_lt d command payload Nat.one_pos (fun _ _ => rfl) fun _ _ => Nat.one_pos

theorem remaining_endPush (file : FileStatus) (command : Byte) (payload : Bytes) :
    remaining (endPush file (writeCommand .write command payload s)) < 1 :=
  remaining_afterFrame_lt .write command payload Nat.one_pos (fun _ _ => rfl) fun _ _ => Nat.one_pos

theorem remaining_failRead (whom : ReadFor) (kind : ErrKind) (s : State) : remaining (failRead whom kind s) = 0 :=
  remaining_idle (CalibrationLaws.failRead_idle whom kind s)

theorem remaining_takeAnswer (n : Nat) (whom : ReadFor) (s : State) : remaining (takeAnswer n whom s) ≤ afterRead whom := by
  obtain ⟨draws, ⟨r, e⟩ | ⟨bs, w, rfl, _, e⟩⟩ := takeAnswer_left n whom s <;> rw [e]
  · exact Nat.zero_le _
  · exact le_rfl

theorem remaining_decodeStatus (cfg : Params) (image : Bytes) (whom : StatusFor) (s : State) :
    remaining (decodeStatus cfg image whom s) ≤ afterDecode whom := by
  rcases decodeStatus_cases cfg image whom s with ⟨_, e⟩ | ⟨view, pad, _, e⟩ <;> rw [e]
  · rw [remaining_failRead]
    exact Nat.zero_le _
  · cases whom <;> exact le_rfl

theorem remaining_endLoad (whom : LoadFor) (r : Part) (s : State) : remaining (endLoad whom r s) = afterLoad whom := by
  cases whom <;> rfl

theorem remaining_startLoad (p : Polarity) (whom : LoadFor) (s : State) :
    remaining (startLoad p whom s) ≤ afterLoad whom + 1 := by
  rcases startLoad_cases p whom s with ⟨draws, e⟩ | ⟨draws, e⟩ <;> rw [e]
  · rw [remaining_endLoad]
    exact Nat.le_succ _
  · exact le_rfl

theorem remaining_fillBank (p : Polarity) (file : Option Bytes) (whom : LoadFor) (s : State) :
    remaining (fillBank p file whom s) = afterLoad whom := by
  rcases fillBank_cases p file whom s with ⟨_, e⟩ | ⟨_, _, _, e⟩ | ⟨_, _, _, _, e⟩ <;> rw [e, remaining_endLoad]

theorem remaining_pushFile (p : Polarity) (s : State) : remaining (pushFile p s) = 1 := by
  rcases pushFile_cases p s with ⟨_, e⟩ | ⟨_, _, e⟩ <;> rw [e] <;> rfl

theorem remaining_beginStatus {cfg : Params} {whom : StatusFor} (h : beginStatus cfg whom s = .next t) :
    remaining t ≤ afterDecode whom + 2 := by
  rcases beginRead_next h with ⟨_, rfl⟩ | ⟨fits, _, rfl⟩
  · rw [remaining_failRead]
    exact Nat.zero_le _
  · rcases startRead_cases cfg.cmdRddst (.status whom) s fits with ⟨_, e⟩ | ⟨_, _, e⟩ | ⟨_, _, e⟩ <;> rw [e]
    · exact le_rfl
    · rw [remaining_failRead]
      exact Nat.zero_le _
    · exact Nat.zero_le _

/-- A pass of a stream that is not its last takes the cursor `MAX_CHUNK` bytes on (R101). -/
theorem remaining_streamStep {buffer : Bytes} (busy : s.busy = some (.chunks buffer)) :
    remaining (streamStep buffer s) < stepsFrom s.cur (.chunks buffer) := by
  have some_left : 0 < stepsFrom s.cur (.chunks buffer) := Nat.succ_pos _
  unfold streamStep
  by_cases inside : s.cur.getD 0 < buffer.length
  · rw [if_pos inside]
    refine remaining_afterFrame_lt _ _ _ some_left (fun _ _ => rfl) fun tx draws => ?_
    split
    · next more =>
      simp only [remaining, busy, stepsFrom, Option.getD_some, Config.maxChunk] at more ⊢
      omega
    · exact some_left
  · rw [if_neg inside]
    exact some_left

/-- Every later step of an operation, from any state that holds it, leaves fewer steps. -/
theorem remaining_resume_lt {cfg : Params} {p : Progress} (busy : s.busy = some p) (h : resume cfg p s = .next t) :
    remaining t < stepsFrom s.cur p := by
  cases p with
  | blocked => cases h
  | respond n whom => cases (onLink_next h).2; exact Nat.lt_succ_of_le (remaining_takeAnswer n whom s)
  | decode image whom => cases h; exact Nat.lt_succ_of_le (remaining_decodeStatus cfg image whom s)
  | derive gamma whom =>
    obtain ⟨i, _, h⟩ := accept_next h
    cases h
    obtain ⟨r, e⟩ := endAttach_eq whom .ok { s with mode := .fixed i }
    rw [e]
    exact Nat.one_pos
  | rows start stop => cases (onLink_next h).2; exact remaining_lastFrame _ _ _
  | chunks buffer => cases (onLink_next h).2; exact remaining_streamStep busy
  | curve i => cases (onLink_next h).2; exact remaining_lastFrame _ _ _
  | fill p file whom => cases h; exact Nat.lt_succ_of_le (remaining_fillBank p file whom s).le
  | pushFile p => cases h; exact Nat.lt_succ_of_le (remaining_pushFile p s).le
  | pushDevice p image file => cases (onLink_next h).2; exact remaining_endPush _ _ _
  | loadNegative first => cases h; exact Nat.lt_succ_of_le (remaining_startLoad .negative (.startupNegative first) s)
  | attachNext first second => exact Nat.lt_succ_of_le (remaining_beginStatus h)

end Remaining

/-! ### Every operation ends, or is stuck in a write (R175, R185, R193, R218) -/

/-- From `s`, the operation has ended in `t` with exactly one result, the block idle and the cursor dead. -/
def EndedFrom (s t : State) : Prop := t.busy = none ∧ t.cur = none ∧ ∃ r, t.results = s.results ++ [r]

/-- From `s`, the operation has come to the write in `t` that never returns, and given no result. -/
def StuckFrom (s t : State) : Prop := t.busy = some .blocked ∧ t.results = s.results

section Ends

variable {s t u : State} {c : Cause}

/-- A step of an operation ends it with one result, or leaves it in progress with none. -/
theorem move_ends_or_goes_on (m : Move s c u) : EndedFrom s u ∨ (u.busy ≠ none ∧ u.results = s.results) := by
  cases m with
  | ends e r => exact .inl ⟨rfl, rfl, r, by rw [finish_results, e.results_eq]⟩
  | fails _ _ _ r => exact .inl ⟨rfl, rfl, r, rfl⟩
  | goesOn e | streams e => exact .inr ⟨nofun, e.results_eq⟩
  | sticks => exact .inr ⟨nofun, rfl⟩

/-- A step of an operation and then the steps left: what ends is ended, and what goes on ends as `later` says. -/
theorem move_then_settle_ends {fuel : Nat} (m : Move s c u) (rest : settle Config.params fuel u = .next t)
    (later : u.busy ≠ none → EndedFrom u t ∨ StuckFrom u t) : EndedFrom s t ∨ StuckFrom s t := by
  rcases move_ends_or_goes_on m with ended | ⟨going, same⟩
  · cases (settle_ended Config.params fuel (.inl ended.1)).symm.trans rest
    exact .inl ended
  · have ends := later going
    rwa [EndedFrom, StuckFrom, same] at ends

/-- An operation in progress with fuel for its remaining steps ends or is stuck: each step takes one of both. -/
theorem settle_ends {fuel : Nat} (busy : s.busy ≠ none) (enough : remaining s ≤ fuel)
    (h : settle Config.params fuel s = .next t) : EndedFrom s t ∨ StuckFrom s t := by
  induction fuel generalizing s with
  | zero =>
    obtain ⟨p, hp⟩ := Option.ne_none_iff_exists'.mp busy
    cases h
    by_cases stuck : p = .blocked
    · exact .inr ⟨stuck ▸ hp, rfl⟩
    · rw [remaining_busy hp] at enough
      exact absurd enough (Nat.not_le.mpr (stepsFrom_pos _ stuck))
  | succ fuel ih =>
    obtain ⟨p, hp⟩ := Option.ne_none_iff_exists'.mp busy
    by_cases stuck : p = .blocked
    · subst stuck
      cases (settle_ended Config.params (fuel + 1) (.inr hp)).symm.trans h
      exact .inr ⟨hp, rfl⟩
    · rw [settle_busy Config.params fuel hp stuck] at h
      rw [remaining_busy hp] at enough
      cases next : resume Config.params p s with
      | next u =>
        rw [next] at h
        have fewer : remaining u ≤ fuel := Nat.le_of_lt_succ ((remaining_resume_lt hp next).trans_le enough)
        exact move_then_settle_ends (resume_move hp next) h fun going => ih going fewer h
      | fault r => rw [next] at h; cases h
      | refused r => rw [next] at h; cases h

end Ends

/-- Settles O13: the first step is a move, and the bound of `perform` covers the steps that remain after it. -/
theorem operationsEnd : Obligations.OperationsEnd := by
  unfold Obligations.OperationsEnd
  intro i s t h
  obtain ⟨u, first⟩ := TransportLaws.exec_of_perform h
  rw [perform_eq, first] at h
  exact move_then_settle_ends (exec_move first) h fun going => settle_ends going (remaining_le_stepsLeft u) h

end Sys2Proof.ArithmeticLaws

/-! PROOFS of the family of spec/60_exceptions.md: a request that is no operation (O9), the stuck block (O21), one operation at a time
(O22), the closed handle (O23), the error codes (O25) and the environment's choices (O26).

Two checks of the model carry O21 to O23. Every instruction starts at `whenIdle`, so a busy block answers all of them alike
(`exec_of_not_idle`). Every use of the link stands behind `onLink`, so with the handle closed each row is refused there once the
checks before it are passed. -/

namespace Sys2Proof.ExceptionLaws

open Machine Claims StateLaws

/-! ### Requests that are no operation (R192) -/

/-- Settles O9. -/
theorem stepRefusesBadRequests : Obligations.StepRefusesBadRequests := by
  intro s format bs rest e idle request undecoded
  have refused : step s = .refused (rejectionOf e) := step_badRequest idle request undecoded
  rw [refused]
  cases e <;> rfl

/-! ### A block that is not idle (R193, R200) -/

section NotIdle

variable {s : State} {p : Progress}

theorem whenIdle_stuck (stuck : s.busy = some .blocked) (o : Out) : whenIdle s o = .fault .linkWriteBlocked := by
  simp only [whenIdle, stuck]

theorem whenIdle_busy (busy : s.busy = some p) (going : p ≠ .blocked) (o : Out) :
    whenIdle s o = .refused .operationInProgress := by
  unfold whenIdle
  split
  case h_1 idle => cases idle.symm.trans busy
  case h_2 stuck => exact absurd (Option.some.inj (busy.symm.trans stuck)) going
  case h_3 => rfl

/-- What `whenIdle` answers to every operation, every instruction answers. -/
theorem exec_of_not_idle {answer : Out} (all : ∀ o, whenIdle s o = answer) (i : Instr) : exec i s = answer := by
  cases i <;> exact all _

end NotIdle

/-- A run whose first step is a fault is that fault, however long it is. -/
theorem run_succ_of_fault {M : Host.Core} {s : M.State} {r : M.Fault} (h : M.step s = .fault r) (k : Nat) :
    M.run (k + 1) s = .fault r := by
  rw [Host.Core.run, h]

/-- Settles O21: the stuck block answers every operation at `whenIdle`, and every run ends at its first step. -/
theorem stuckForEver : Obligations.StuckForEver := fun _ stuck =>
  ⟨step_stuck stuck, exec_of_not_idle (whenIdle_stuck stuck), run_succ_of_fault (M := Sys2Proof.core) (step_stuck stuck)⟩

/-- Settles O22. -/
theorem oneOperationAtATime : Obligations.OneOperationAtATime := fun i _ _ busy going =>
  exec_of_not_idle (whenIdle_busy busy going) i

/-! ### The closed handle (R192, D37) -/

section Closed

variable {s : State}

theorem onLink_closed (closed : s.handleOpen = false) (o : Out) : onLink s o = .refused .closedHandle := by
  rw [onLink, closed, if_neg Bool.false_ne_true]

/-- An operation of an idle block that has nothing to check before the handle. -/
theorem link_closed (idle : s.busy = none) (closed : s.handleOpen = false) (o : Out) :
    whenIdle s (onLink s o) = .refused .closedHandle :=
  (whenIdle_idle idle _).trans (onLink_closed closed o)

/-! #### After the size check -/

theorem emitWrite_closed {payload : Bytes} (idle : s.busy = none) (closed : s.handleOpen = false)
    (fits : payload.length ≤ Config.maxChunk) (frame : State → Sent × State) :
    emitWrite payload frame s = .refused .closedHandle := by
  rw [emitWrite, whenIdle_idle idle, if_neg (Nat.not_lt.mpr fits), onLink_closed closed]

theorem emitRead_closed {n : Nat} (idle : s.busy = none) (closed : s.handleOpen = false) (fits : n ≤ Config.maxChunk)
    (command : Byte) : emitRead command n s = .refused .closedHandle := by
  rw [emitRead, whenIdle_idle idle, if_neg (Nat.not_lt.mpr fits), onLink_closed closed]

theorem execResp_closed {answer : Bytes} (idle : s.busy = none) (closed : s.handleOpen = false)
    (fits : answer.length ≤ Config.maxChunk) : execResp answer s = .refused .closedHandle := by
  rw [execResp, whenIdle_idle idle, if_neg (Nat.not_lt.mpr fits), onLink_closed closed]

theorem startWrite_closed {d : Direction} {payload : Bytes} (closed : s.handleOpen = false)
    (fits : payload.length ≤ Config.maxChunk) (accepted : d = .write ∨ payload = []) (command : Byte) :
    startWrite d command payload s = .refused .closedHandle := by
  have notRefused : ¬(d = .read ∧ payload ≠ []) := by
    rintro ⟨rfl, nonempty⟩
    exact accepted.elim nofun nonempty
  rw [TransportLaws.startWrite_accepted fits notRefused, onLink_closed closed]

theorem beginRead_closed {n : Nat} (closed : s.handleOpen = false) (fits : n ≤ Config.maxChunk) (command : Byte)
    (whom : ReadFor) : beginRead command n whom s = .refused .closedHandle := by
  rw [beginRead, if_neg (Nat.not_lt.mpr fits), onLink_closed closed]

theorem beginStatus_closed (closed : s.handleOpen = false) (cfg : Params) (whom : StatusFor) :
    beginStatus cfg whom s = .refused .closedHandle :=
  beginRead_closed closed (by decide) _ _

/-! #### After the checks of the bounds, of `MODE` and of the curve index -/

/-- The decided build takes nothing off an end bound, so no window is refused for its bounds (D7). -/
theorem beginWindow_closed (closed : s.handleOpen = false) (x0 y0 x1 y1 : U16) :
    beginWindow Config.params x0 y0 x1 y1 s = .refused .closedHandle := by
  have accepted : windowUnderflows Config.params x1 y1 = false := rfl
  rw [beginWindow, accepted, if_neg Bool.false_ne_true, onLink_closed closed]

theorem beginPush_closed (closed : s.handleOpen = false) (attached : s.mode ≠ .unattached) (cfg : Params) (p : Polarity) :
    beginPush cfg p s = .refused .closedHandle := by
  unfold beginPush
  split
  case h_1 unattached => exact absurd unattached attached
  case h_2 | h_3 => exact onLink_closed closed _

/-- An index from 0 to 3 is a curve's number. -/
theorem exists_curve_of_range {z : Int} (low : 0 ≤ z) (high : z ≤ 3) : ∃ i : Curve, z = (i.val : Int) :=
  ⟨⟨z.toNat, by simp only [Config.nFixedCurves]; omega⟩, (Int.toNat_of_nonneg low).symm⟩

theorem exec_selectCurve_closed {z : Int} (idle : s.busy = none) (closed : s.handleOpen = false) (low : 0 ≤ z) (high : z ≤ 3) :
    exec (.selectCurve z) s = .refused .closedHandle := by
  obtain ⟨i, rfl⟩ := exists_curve_of_range low high
  have begun : exec (.selectCurve i.val) s = _ := whenIdle_idle idle _
  rw [begun, curveOperand_val, accept, onLink_closed closed]

/-! #### The later transfers of an operation -/

theorem resume_closed {p : Progress} (closed : s.handleOpen = false) (transfer : transferNext p = true) (cfg : Params) :
    resume cfg p s = .refused .closedHandle := by
  cases p with
  | respond | rows | chunks | curve | pushDevice => exact onLink_closed closed _
  | attachNext => exact beginStatus_closed closed _ _
  | blocked | decode | derive | fill | pushFile | loadNegative => cases transfer

end Closed

/-- Settles O23: row by row, the handle is the check that is left. -/
theorem closedHandleIsRefused : Obligations.ClosedHandleIsRefused := by
  refine ⟨fun s idle closed => ⟨fun _ _ _ fits accepted => ?writeCommand, fun _ _ fits => ?readResponse,
    fun _ _ _ _ => ?setWindow, fun _ => ?streamPixels, ?readStatus, ?attach, ?startup, fun _ attached => ?push,
    fun _ _ _ custom => ?setField, fun _ low high => ?selectCurve, fun _ _ fits => ?fWrite, fun _ _ fits => ?fRead,
    fun _ fits => ?fCont, fun a b => ?fCaset, fun a b => ?fRaset, ?fRamwr, fun _ => ?fGamset, fun _ fits => ?fPvgam,
    fun _ fits => ?fNvgam, ?fRddst, fun _ fits => execResp_closed idle closed fits⟩,
    fun s p busy transfer closed quiet => ?later⟩
  case writeCommand => exact (whenIdle_idle idle _).trans (startWrite_closed closed fits accepted _)
  case readResponse => exact (whenIdle_idle idle _).trans (beginRead_closed closed fits _ _)
  case setWindow => exact (whenIdle_idle idle _).trans (beginWindow_closed closed _ _ _ _)
  case readStatus | attach => exact (whenIdle_idle idle _).trans (beginStatus_closed closed _ _)
  case streamPixels | startup => exact link_closed idle closed _
  case push => exact (whenIdle_idle idle _).trans (beginPush_closed closed attached _ _)
  case setField => exact (CalibrationLaws.exec_setField_custom idle custom).trans (onLink_closed closed _)
  case selectCurve => exact exec_selectCurve_closed idle closed low high
  case fWrite | fCont | fPvgam | fNvgam => exact emitWrite_closed idle closed fits _
  case fCaset | fRaset => exact emitWrite_closed idle closed (by rw [winBytes_length]; decide) _
  case fRamwr => exact emitWrite_closed idle closed (Nat.zero_le _) _
  case fGamset => exact emitWrite_closed idle closed (by rw [List.length_singleton]; decide) _
  case fRead => exact emitRead_closed idle closed fits _
  case fRddst => exact emitRead_closed idle closed (by decide) _
  case later =>
    have going : p ≠ .blocked := by rintro rfl; cases transfer
    exact (step_carries_on busy going quiet).trans (resume_closed closed transfer _)

/-! ### The error codes (R191, D4) -/

theorem ordinalCode_ne_zero (kind : ErrKind) : ordinalCode kind ≠ 0 := by
  cases kind <;> decide

/-- Settles O25: the machine's build numbers the kinds by `ordinalCode`. -/
theorem errorCodes : Obligations.ErrorCodes :=
  ⟨rfl, rfl, rfl, rfl, rfl, ordinalCode_ne_zero, fun _ => ⟨rfl, fun _ => rfl⟩⟩

/-! ### The environment's choices (R194) -/

section Unlisted

variable {s : State}

theorem drawWrite_unlisted (h : s.draws.writes = []) :
    drawWrite s = (Config.freeWrite s.draws.taken, { s with draws := { s.draws with taken := s.draws.taken + 1 } }) := by
  simp only [drawWrite, h]

theorem drawRead_unlisted (h : s.draws.reads = []) :
    drawRead s = (Config.freeRead s.draws.taken, { s with draws := { s.draws with taken := s.draws.taken + 1 } }) := by
  simp only [drawRead, h]

theorem drawNvsRead_unlisted (h : s.draws.nvsReads = []) :
    drawNvsRead s = (Config.freeNvsRead s.draws.taken, { s with draws := { s.draws with taken := s.draws.taken + 1 } }) := by
  simp only [drawNvsRead, h]

theorem drawNvsWrite_unlisted (h : s.draws.nvsWrites = []) :
    drawNvsWrite s = (Config.freeNvsWrite s.draws.taken, { s with draws := { s.draws with taken := s.draws.taken + 1 } }) := by
  simp only [drawNvsWrite, h]

end Unlisted

/-- Settles O26: a listed choice is the one made, and taking it off the list again leaves `s`. -/
theorem choicesAreFree : Obligations.ChoicesAreFree := fun _ =>
  ⟨fun _ => drawWrite_listed rfl, fun _ => drawRead_listed rfl, fun _ => drawNvsRead_listed rfl,
    fun _ => drawNvsWrite_listed rfl, drawWrite_unlisted, drawRead_unlisted, drawNvsRead_unlisted, drawNvsWrite_unlisted⟩

end Sys2Proof.ExceptionLaws

/-! PROOFS of the family of spec/70_reset_and_hazards.md, a reset of a running block (O20), and of the words written out from
spec/30_encoding.md (O4). -/

namespace Sys2Proof.ResetLaws

open Machine Claims EncodingLaws Scope

/-! ### Reset (R215, D26) -/

/-- Every field of both banks is 0 after a reset. -/
theorem restart_field (s : State) (p : Polarity) (f : GammaField) : ((restart s).gt.get p).get f = 0 := by
  rw [restart_gt, Banks.get_all, GammaTable.get_zero]

/-- Settles O20: the step is `restart` of the state with the event gone, and `restart` sets or keeps each field as listed. -/
theorem restartValues : Obligations.RestartValues := fun s rest running next =>
  ⟨restart { s with inbox := rest }, StateLaws.step_restart running next, restart_field _, restart_mode _, restart_diagStatusPad _,
    restart_cur _, restart_busy _, restart_tx _, restart_rx _, restart_nvs _, restart_handleOpen _, restart_results _,
    restart_notified _, restart_inbox _, restart_draws _⟩

/-! ### Words under the example binding B1 (R51, R57 to R59, R65, R70) -/

/-- B1 tells its codes and selectors apart, so a word that is the encoding of a well-formed instruction decodes to it (O2). -/
theorem decode_word {i : Instr} {format : Format} {bs : Bytes} (wf : WellFormed bindingB1 i)
    (word : encode bindingB1 i = (format, bs)) : decode bindingB1 format bs = .ok i := by
  have commands : bindingB1.cmdDistinct = true := by decide
  have selectors : bindingB1.opDistinct = true := by decide
  simpa only [word] using encodedInstructionsDecode bindingB1 i commands selectors wf

/-- Settles O4: nine of the words are what the encoder writes for their instruction; the selector of the tenth is bound to none. -/
theorem wordsDecode : Obligations.WordsDecode := by
  unfold Obligations.WordsDecode
  have unbound : ∀ op, bindingB1.opIndex op ≠ 0x00 := ordinalIndex_ne (.inl rfl)
  exact ⟨decode_word rfl rfl, decode_word rfl rfl, decode_word rfl rfl, decode_word rfl rfl, decode_word rfl rfl,
    decode_word rfl rfl, decode_word rfl rfl, decode_word rfl rfl, decode_word rfl rfl, decode_hostop_unbound unbound []⟩

end Sys2Proof.ResetLaws
